-- ==== Sys2Proof/Word.lean ====
section
/-! DEFINITION. The two word types of the streams: a byte and a 32-bit unsigned field (R9, 00_scope.md). -/

namespace Sys2Proof

/-- A byte, 0 .. 255 (R9). -/
abbrev Byte := BitVec 8

/-- A `uint32` field (R9). -/
abbrev Word := BitVec 32

end Sys2Proof
end

