-- ==== Sys2Proof/Config.lean ====
section
/-! DEFINITION. What the implementation or the platform fixes (R7, 00_scope.md): the types of the run parameters, and the
functions the spec leaves open, as constants with no body. -/

namespace Sys2Proof

/-- A capacity or another bound: a natural number or `inf` (R7, the four caps). -/
inductive Cap where
  | inf
  | upTo (n : Nat)
deriving DecidableEq, Repr

/-- What the `inflate` collaborator answers: `Ok(bytes)` or `Err` (R231, 43_sequencer.md). -/
inductive Inflated where
  | ok (bytes : List Byte)
  | err
deriving DecidableEq, Repr, Inhabited

/-- The `crc32` collaborator of a run (R230, U1): the default instance of G1, or a function nothing is known of, or one that
never answers (R299). -/
inductive CrcUnit where
  | standard
  | other (which : Nat)
  | silent
deriving DecidableEq, Repr

/-- The `inflate` collaborator of a run (R231, U2): a pure function, of which a run may list the answers it assumes and of
which nothing else is known, or one that never answers (R299). -/
inductive InflateUnit where
  | answering (listed : List (List Byte × Inflated)) (which : Nat)
  | silent
deriving DecidableEq, Repr

/-- The value of a `crc32` collaborator other than the default (R230). FREE: no body. -/
opaque Config.freeCrc32 : Nat → List Byte → Word

/-- What `crc_acc` holds after a body when the collaborator is not the default (R38). FREE: no body. -/
opaque Config.freeCrcAcc : Nat → List Byte → Word

/-- The answer of the `inflate` collaborator (R231, D23: "uninterpreted"). FREE: no body. -/
opaque Config.freeInflate : Nat → List Byte → Inflated

end Sys2Proof
end

