-- ==== Sys2Proof/Syntax.lean ====
section
/-! DEFINITION. The records of the two streams and the host commands: one constructor per row of spec/opcode_table.json
(R90 to R99, 30_encoding.md; R220, 43_sequencer.md), with the fields a record carries as its operands. -/

namespace Sys2Proof

/-- The 4-byte chunk type, a sequence of bytes with no numeric meaning (R66, R97). -/
structure Tag where
  b0 : Byte
  b1 : Byte
  b2 : Byte
  b3 : Byte
deriving DecidableEq, Repr

/-- The tag's bytes in stream order (R97). -/
def Tag.bytes (t : Tag) : List Byte := [t.b0, t.b1, t.b2, t.b3]

/-- `49 48 44 52` (R98). PRESUMED: the ASCII codes, spec G2, log 17. -/
def tagIHDR : Tag := ⟨0x49, 0x48, 0x44, 0x52⟩

/-- `49 44 41 54` (R98). PRESUMED: the ASCII codes, spec G2, log 17. -/
def tagIDAT : Tag := ⟨0x49, 0x44, 0x41, 0x54⟩

/-- `49 45 4E 44` (R98). PRESUMED: the ASCII codes, spec G2, log 17. -/
def tagIEND : Tag := ⟨0x49, 0x45, 0x4E, 0x44⟩

/-- One record or command: the machine's instruction. -/
inductive Instr where
  /-- The signature record: "Operands: none; the record is its own operand" (R122). -/
  | sig
  /-- A frame whose tag is `IHDR`: its data and its stored CRC (R92, R151). -/
  | ihdr (data : List Byte) (crc : Word)
  /-- A frame whose tag is `IDAT` (R156). -/
  | idat (data : List Byte) (crc : Word)
  /-- A frame whose tag is `IEND` (R157). -/
  | iend (data : List Byte) (crc : Word)
  /-- A frame with any other tag (R158). -/
  | other (tag : Tag) (data : List Byte) (crc : Word)
  /-- A scanline of filter type 0 with its filtered bytes (R94, R186). -/
  | none (xs : List Byte)
  /-- Filter type 1 (R187). -/
  | sub (xs : List Byte)
  /-- Filter type 2 (R188). -/
  | up (xs : List Byte)
  /-- Filter type 3 (R189). -/
  | average (xs : List Byte)
  /-- Filter type 4 (R190). -/
  | paeth (xs : List Byte)
  /-- A scanline whose filter type is 5 .. 255 (R101, R183). -/
  | illegalFilter (ft : Byte) (xs : List Byte)
  /-- The host command with code 1 (R221). -/
  | cmdDecode
  /-- The host command with code 2 and what CFG and RAWIN present (R228). -/
  | cmdDefilter (cfgWidth cfgHeight : Word) (rawIn : List Byte)
deriving DecidableEq, Repr

/-- What a decoder is given: bytes of one of the three stream formats (R90), the scanline format with the stride the header
gives it (R100: "the scanline itself carries no length"), or what the CMD, CFG and RAWIN ports present (R107, R232). -/
inductive Record where
  | sig (bytes : List Byte)
  | frame (bytes : List Byte)
  | scanline (stride : Nat) (bytes : List Byte)
  | cmd (code : BitVec 2) (cfgWidth cfgHeight : Word) (rawIn : List Byte)
deriving DecidableEq, Repr

end Sys2Proof
end

