-- ==== Sys2Proof/Machine/State.lean ====
section
/-! DEFINITION. The machine's state (R21, 10_state.md), the inputs and run parameters beside it (R39), the reasons a step can
stop, and the state after reset (R40). -/

namespace Sys2Proof.Machine

/-- The sequencer's states (R26). Their codes are `Phase.code`; codes 10 .. 15 are never taken. -/
inductive Phase where
  | start
  | signatureChecked
  | reading
  | headerKnown
  | payloadAccumulating
  | endSeen
  | decompressing
  | defiltering
  | done
  | failed
deriving DecidableEq, Repr

/-- The terminal faults of the hardware with what each records (R251 to R267). Taking one is a NEXT state (`raise`, R270). -/
inductive DecodeFault where
  | signatureInvalid
  | truncatedStream
  | crcMismatch (expected computed : Word) (chunkIndex : Nat)
  | wrongChunkLength (length : Nat)
  | unsupportedCompression (value : Byte)
  | unsupportedFilterMethod (value : Byte)
  | unsupportedColorType (value : Byte)
  | unsupportedBitDepth (value : Byte)
  | unsupportedInterlacing (value : Byte)
  | unsupportedDimensions (width height : Word)
  | missingHeader
  | decompressError
  | sizeMismatch (expected actual : Nat)
  | allocationFailure
  | truncatedImageData (expected actual : Nat)
  | unknownFilterType (row : Nat) (value : Byte)
deriving DecidableEq, Repr

/-- What the host presents on the CMD port at one step boundary (R220, R232): nothing, a 2-bit code, or reset (R290). -/
inductive PortAction where
  | idle
  | code (c : BitVec 2)
  | reset
deriving DecidableEq, Repr

/-- Why the MODEL stops; the hardware's own faults are `DecodeFault`. -/
inductive Fault where
  /-- The byte source never answers a request: the block hangs inside the step (R299, U11). Raised by `srcRead`. Safe. -/
  | srcNoAnswer
  /-- The `crc32` collaborator never answers (R299, U11). Raised by `frameCheck`. Safe. -/
  | crcNoAnswer
  /-- The `inflate` collaborator never answers (R299, U11). Raised by `stepDecompress`. Safe. -/
  | infNoAnswer
  /-- A scanline that RAW does not hold whole (R63: "no rule reads RAW out of bounds"). Raised by the scanline fetch. Safe. -/
  | rawOutOfBounds (addr : Nat)
  /-- A PIX address at or above the number of cells (R64). Raised by `pixRead` and `pixWrite`. Safe. -/
  | pixOutOfBounds (addr : Nat)
  /-- A read of a PIX cell that holds nothing (R37, D33). Raised by `pixRead`. Safe. -/
  | pixUnwritten (addr : Nat)
  /-- A second write of a PIX cell (R64: "no rule writes a cell twice"). Raised by `pixWrite`. Safe. -/
  | pixRewrite (addr : Nat)
  /-- A scanline record whose content is not `stride` bytes (R94). Raised by `scanlineStep`. Safe. -/
  | scanlineLength (actual stride : Nat)
  /-- `Reading` at a step boundary, which R26 excludes; R222 gives it no step. Raised by `step`. Safe. -/
  | readingAtBoundary
deriving DecidableEq, Repr

/-- Why an instruction has no meaning here. -/
inductive Refusal where
  /-- An instruction of the table that has no meaning in this model yet. Raised by `exec`'s refused arms. Safe. -/
  | notModelled (mnemonic : String)
deriving DecidableEq, Repr

/-- The parameters of a run, which no step changes (R39; R7, 00_scope.md). -/
structure Params where
  /-- The input stream (R61). -/
  src : List Byte
  /-- The source answers every request up to this position and none beyond it (R299). -/
  srcAnswers : Cap
  /-- `cfg_width` on the CFG port (R228). -/
  cfgWidth : Word
  /-- `cfg_height` on the CFG port (R228). -/
  cfgHeight : Word
  /-- `raw_in` on the RAWIN port (R228). -/
  rawIn : List Byte
  /-- `CHUNK_CAP` (R7). -/
  chunkCap : Cap
  /-- `PAYLOAD_CAP` (R7). -/
  payloadCap : Cap
  /-- `RAW_CAP` (R7). -/
  rawCap : Cap
  /-- `PIXEL_CAP` (R7). -/
  pixelCap : Cap
  /-- The CRC collaborator (R230). -/
  crcUnit : CrcUnit
  /-- The decompressor collaborator (R231). -/
  inflateUnit : InflateUnit
deriving DecidableEq, Repr

/-- The machine's state: every row of R21's inventory that is storage, the CMD port's schedule and the run parameters. -/
structure State where
  /-- Which command started the session (R27). -/
  cmd : BitVec 2
  /-- The sequencer's state register (R26). -/
  phase : Phase
  sigOk : Bool
  hdrValid : Bool
  done : Bool
  failed : Bool
  /-- Bytes of SRC consumed so far (R22). -/
  pos : Nat
  /-- Frames accepted so far (R23). -/
  chunkIndex : Nat
  /-- `LEN` (R24). -/
  len : Word
  /-- `BODY`, of which `TYPE` and `DATA` are views (R24). -/
  body : List Byte
  /-- `CRC_S` (R24). -/
  crcS : Word
  /-- `CRC_C` (R24). -/
  crcC : Word
  width : Word
  height : Word
  bitDepth : Byte
  colorType : Byte
  compressionMethod : Byte
  filterMethod : Byte
  interlaceMethod : Byte
  /-- `stride`, an exact natural (R29). -/
  stride : Nat
  /-- `exp_raw`, an exact natural (R29). -/
  expRaw : Nat
  errCode : BitVec 5
  errInfo0 : Nat
  errInfo1 : Nat
  errInfo2 : Nat
  /-- PAY (R32). -/
  pay : List Byte
  /-- RAW (R33). -/
  raw : List Byte
  /-- The next scanline to reconstruct (R34). -/
  row : Nat
  /-- The byte of the scanline being reconstructed (R34). -/
  col : Nat
  /-- `FILT` (R35). -/
  filt : Byte
  a : Byte
  b : Byte
  ul : Byte
  x : Byte
  /-- `LINE`, hidden (R36, R193). -/
  line : List Byte
  /-- `LEFT`, hidden (R36, R193). -/
  left : List Byte
  /-- `UPLEFT`, hidden (R36, R193). -/
  upleft : List Byte
  /-- How many cells PIX has (R37). -/
  pixSize : Nat
  /-- The written cells of PIX, by rising address (R37); a cell that is not listed is unwritten. -/
  pix : List Host.Cell
  /-- `crc_acc`, hidden and optional (R38). -/
  crcAcc : Word
  /-- What the host presents on the CMD port at the coming step boundaries, the next first (R220, R237, R290). -/
  cmdPort : List PortAction
  /-- The run's parameters (R39). -/
  params : Params
deriving DecidableEq, Repr

/-- The parameters of `State.reset`: nothing on the stream ports, every cap `inf`, the default `crc32`, `inflate`
uninterpreted, every collaborator answering (R7). DESIGN CHOICE for the ports' contents: log 11. -/
def Params.reset : Params :=
  { src := [], srcAnswers := .inf, cfgWidth := 0, cfgHeight := 0, rawIn := [], chunkCap := .inf, payloadCap := .inf,
    rawCap := .inf, pixelCap := .inf, crcUnit := .standard, inflateUnit := .answering [] 0 }

/-- The state reset leaves under the given parameters, with the given actions still to come on the CMD port (R40, R290).
Registers that R40 marks unspecified hold zero or nothing: DESIGN CHOICE, log 4. -/
def State.afterReset (p : Params) (port : List PortAction) : State :=
  { cmd := 0, phase := .start, sigOk := false, hdrValid := false, done := false, failed := false, pos := 0, chunkIndex := 0,
    len := 0, body := [], crcS := 0, crcC := 0, width := 0, height := 0, bitDepth := 0, colorType := 0,
    compressionMethod := 0, filterMethod := 0, interlaceMethod := 0, stride := 0, expRaw := 0, errCode := 0, errInfo0 := 0,
    errInfo1 := 0, errInfo2 := 0, pay := [], raw := [], row := 0, col := 0, filt := 0, a := 0, b := 0, ul := 0, x := 0,
    line := [], left := [0, 0, 0, 0], upleft := [0, 0, 0, 0], pixSize := 0, pix := [], crcAcc := 0, cmdPort := port,
    params := p }

/-- The machine right after reset (R40). -/
def State.reset : State := State.afterReset Params.reset []

end Sys2Proof.Machine
end

