-- ==== Sys2Proof/Machine/Collaborators.lean ====
section
/-! DEFINITION. The call-outs `crc32` (R230) and `inflate` (R231): what a run's collaborator answers, `none` where it never
answers (R299). -/

namespace Sys2Proof.Machine

/-- One bit of the reflected division by 0x04C11DB7 (spec G1, PRESUMED there and here: log 1). -/
def crcBit (c : Word) : Word := if c &&& 1 = 1 then (c >>> 1) ^^^ 0xEDB88320 else c >>> 1

/-- `n` times `crcBit` (G1). -/
def crcBits : Nat → Word → Word
  | 0, c => c
  | n + 1, c => crcBits n (crcBit c)

/-- One byte of the default CRC: the byte into the low 8 bits, then eight bits (G1). -/
def crcByte (c : Word) (v : Byte) : Word := crcBits 8 (c ^^^ v.zeroExtend 32)

/-- The accumulator after some bytes of a body, from the value before them (R38, R128, G1). -/
def crcFeed (c : Word) (s : List Byte) : Word := s.foldl crcByte c

/-- The accumulator before the first byte (G1). -/
def crcStart : Word := 0xFFFFFFFF

/-- The CRC an accumulator stands for (G1). -/
def crcFinish (c : Word) : Word := c ^^^ 0xFFFFFFFF

/-- The CRC-32 of G1, the default instance of the `crc32` parameter (R230). -/
def crc32Standard (s : List Byte) : Word := crcFinish (crcFeed crcStart s)

/-- The answer on the CRC port (R230). -/
def crc32 (u : CrcUnit) (s : List Byte) : Option Word :=
  match u with
  | .standard => some (crc32Standard s)
  | .other n => some (Config.freeCrc32 n s)
  | .silent => none

/-- What `crc_acc` holds once a body has streamed in (R38); a free value where the collaborator is not the default, log 14. -/
def crcAccOf (u : CrcUnit) (s : List Byte) : Word :=
  match u with
  | .standard => crcFeed crcStart s
  | .other n => Config.freeCrcAcc n s
  | .silent => Config.freeCrcAcc 0 s

/-- The answer listed for a payload, if the run lists one. -/
def listedAnswer : List (List Byte × Inflated) → List Byte → Option Inflated
  | [], _ => none
  | (payload, answer) :: more, p => if payload = p then some answer else listedAnswer more p

/-- The answer on the INF port (R231): a function of the payload alone. -/
def inflate (u : InflateUnit) (payload : List Byte) : Option Inflated :=
  match u with
  | .answering listed n =>
    match listedAnswer listed payload with
    | some answer => some answer
    | none => some (Config.freeInflate n payload)
  | .silent => none

end Sys2Proof.Machine
end

