-- ==== Sys2Proof/Machine/Flags.lean ====
section
/-! DEFINITION. The codes software sees for the inductive registers (R26, R251), what a fault writes into the info registers
(R251), and the flags (R25). There are no arithmetic condition codes (R25). -/

namespace Sys2Proof.Machine

/-- The value of the `phase` register (R26). -/
def Phase.code : Phase → BitVec 4
  | .start => 0
  | .signatureChecked => 1
  | .reading => 2
  | .headerKnown => 3
  | .payloadAccumulating => 4
  | .endSeen => 5
  | .decompressing => 6
  | .defiltering => 7
  | .done => 8
  | .failed => 9

/-- The phases in which the next step is a chunk frame (R222). -/
def Phase.inChunkLoop : Phase → Bool
  | .signatureChecked => true
  | .headerKnown => true
  | .payloadAccumulating => true
  | .start => false
  | .reading => false
  | .endSeen => false
  | .decompressing => false
  | .defiltering => false
  | .done => false
  | .failed => false

/-- `code(E)` (R251). -/
def DecodeFault.code : DecodeFault → BitVec 5
  | .signatureInvalid => 1
  | .truncatedStream => 2
  | .crcMismatch _ _ _ => 3
  | .wrongChunkLength _ => 4
  | .unsupportedCompression _ => 5
  | .unsupportedFilterMethod _ => 6
  | .unsupportedColorType _ => 7
  | .unsupportedBitDepth _ => 8
  | .unsupportedInterlacing _ => 9
  | .unsupportedDimensions _ _ => 10
  | .missingHeader => 11
  | .decompressError => 12
  | .sizeMismatch _ _ => 13
  | .allocationFailure => 14
  | .truncatedImageData _ _ => 15
  | .unknownFilterType _ _ => 16

/-- `err_info0`, `err_info1`, `err_info2` of a fault; parameters it does not have are 0 (R251, R270). -/
def DecodeFault.info : DecodeFault → Nat × Nat × Nat
  | .signatureInvalid => (0, 0, 0)
  | .truncatedStream => (0, 0, 0)
  | .crcMismatch expected computed index => (expected.toNat, computed.toNat, index)
  | .wrongChunkLength length => (length, 0, 0)
  | .unsupportedCompression v => (v.toNat, 0, 0)
  | .unsupportedFilterMethod v => (v.toNat, 0, 0)
  | .unsupportedColorType v => (v.toNat, 0, 0)
  | .unsupportedBitDepth v => (v.toNat, 0, 0)
  | .unsupportedInterlacing v => (v.toNat, 0, 0)
  | .unsupportedDimensions w h => (w.toNat, h.toNat, 0)
  | .missingHeader => (0, 0, 0)
  | .decompressError => (0, 0, 0)
  | .sizeMismatch expected actual => (expected, actual, 0)
  | .allocationFailure => (0, 0, 0)
  | .truncatedImageData expected actual => (expected, actual, 0)
  | .unknownFilterType row v => (row, v.toNat, 0)

/-- The class `UnsupportedProfile` of a code (R268). -/
def isUnsupportedProfile (code : BitVec 5) : Bool := decide (5 ≤ code.toNat) && decide (code.toNat ≤ 10)

/-- The signature matched: `sig_ok <- 1` (R122). -/
def State.setSigOk (s : State) : State := { s with sigOk := true }

/-- Every scanline is reconstructed: `phase <- Done`, `done <- 1` (R195). -/
def State.setDone (s : State) : State := { s with phase := .done, done := true }

/-- `failed <- 1`, `phase <- Failed` (R270). -/
def State.setFailed (s : State) : State := { s with phase := .failed, failed := true }

end Sys2Proof.Machine
end

