-- ==== Sys2Proof/WellFormed.lean ====
section
/-! DEFINITION. Which terms of `Instr` some record stands for: the length range of a frame (R92, R102), the tag and the filter
type a default row is left with (R98, R99), and the lengths a scanline can have (R94). -/

namespace Sys2Proof

/-- The first chunk length outside `0 .. 2^31 - 1` (R102). -/
def lengthLimit : Nat := 2147483648

/-- A chunk's data has a legal length (R92). -/
def dataOk (data : List Byte) : Bool := decide (data.length < lengthLimit)

/-- The filtered bytes are `4 * width` many for some `width` in `1 .. 2^32 - 1` (R94, R28). -/
def rowOk (xs : List Byte) : Bool :=
  decide (xs.length % 4 = 0) && decide (4 ≤ xs.length) && decide (xs.length ≤ 4 * 4294967295)

/-- The tag is none of the three known ones (R98, the row `OTHER`). -/
def otherTagOk (t : Tag) : Bool := decide (t ≠ tagIHDR) && decide (t ≠ tagIDAT) && decide (t ≠ tagIEND)

/-- Some record decodes to this term. -/
def Instr.wf : Instr → Bool
  | .sig => true
  | .ihdr data _ => dataOk data
  | .idat data _ => dataOk data
  | .iend data _ => dataOk data
  | .other tag data _ => otherTagOk tag && dataOk data
  | .none xs => rowOk xs
  | .sub xs => rowOk xs
  | .up xs => rowOk xs
  | .average xs => rowOk xs
  | .paeth xs => rowOk xs
  | .illegalFilter ft xs => decide (4 < ft.toNat) && rowOk xs
  | .cmdDecode => true
  | .cmdDefilter _ _ _ => true

end Sys2Proof
end

