-- ==== Sys2Proof/Decode.lean ====
section
/-! DEFINITION. The big-endian field decoder (R121), the decoder of every record format (R90 to R99, R107), total on any bytes
and rejecting by name, and after it the encoder, written from the same tables. -/

namespace Sys2Proof

/-- The signature bytes (R91). -/
def signature : List Byte := [0x89, 0x50, 0x4E, 0x47, 0x0D, 0x0A, 0x1A, 0x0A]

/-- The value of a byte sequence, most significant byte first, as a natural number (R97). -/
def beNat (s : List Byte) : Nat := s.foldl (fun v x => v * 256 + x.toNat) 0

/-- `be32(s)` of a 4-byte sequence (R121). -/
def be32 (s : List Byte) : Word := BitVec.ofNat 32 (beNat s)

/-- The four big-endian bytes of a value, `be32^-1` of R106. -/
def be32Bytes (v : Word) : List Byte :=
  [v.extractLsb' 24 8, v.extractLsb' 16 8, v.extractLsb' 8 8, v.extractLsb' 0 8]

/-- Why bytes are no record. -/
inductive DecodeError where
  /-- Fewer than 8 bytes where the signature is read (R122). -/
  | shortSignature
  /-- Eight bytes that are not the signature (R91). -/
  | badSignature
  /-- Fewer than 4 bytes of a length field (R123). -/
  | shortLength
  /-- A length field of 2^31 or more (R102). -/
  | illegalLength (length : Nat)
  /-- Fewer bytes than the type and the data need (R123). -/
  | shortBody (length : Nat)
  /-- Fewer than 4 bytes of the stored CRC (R123). -/
  | shortCrc (length : Nat)
  /-- Fewer than `stride + 1` bytes of a scanline (R94). -/
  | shortScanline
  /-- A code that is no command: 0 or 3 (R220). -/
  | noCommand (code : BitVec 2)
deriving DecidableEq, Repr

/-- What the decoder answers: the instruction and the bytes after it, or why there is none. -/
inductive Decoded where
  | ok (i : Instr) (rest : List Byte)
  | bad (e : DecodeError)
deriving DecidableEq, Repr

/-- `SIG` (R91): all 64 bits are compared. -/
def decodeSig (bs : List Byte) : Decoded :=
  if bs.length < 8 then .bad .shortSignature
  else if bs.take 8 = signature then .ok .sig (bs.drop 8)
  else .bad .badSignature

/-- The chunk kind of a tag, by comparison of all four bytes (R98). -/
def frameKind (tag : Tag) (data : List Byte) (crc : Word) : Instr :=
  if tag = tagIHDR then .ihdr data crc
  else if tag = tagIDAT then .idat data crc
  else if tag = tagIEND then .iend data crc
  else .other tag data crc

/-- `FRAME` (R92): length, type, data, CRC, with no padding; the length comes from the record's own first field (R100). -/
def decodeFrame (bs : List Byte) : Decoded :=
  match bs with
  | l0 :: l1 :: l2 :: l3 :: afterLength =>
    let n := (be32 [l0, l1, l2, l3]).toNat
    if lengthLimit ≤ n then .bad (.illegalLength n)
    else
      match afterLength with
      | t0 :: t1 :: t2 :: t3 :: afterTag =>
        if afterTag.length < n then .bad (.shortBody n)
        else
          match afterTag.drop n with
          | c0 :: c1 :: c2 :: c3 :: rest => .ok (frameKind ⟨t0, t1, t2, t3⟩ (afterTag.take n) (be32 [c0, c1, c2, c3])) rest
          | _ => .bad (.shortCrc n)
      | _ => .bad (.shortBody n)
  | _ => .bad .shortLength

/-- The reconstruction a filter-type byte selects; all eight bits are compared (R99). -/
def filterKind (ft : Byte) (xs : List Byte) : Instr :=
  if ft = 0 then .none xs
  else if ft = 1 then .sub xs
  else if ft = 2 then .up xs
  else if ft = 3 then .average xs
  else if ft = 4 then .paeth xs
  else .illegalFilter ft xs

/-- `SCANLINE` (R94): the filter type, then `stride` filtered bytes. -/
def decodeScanline (stride : Nat) (bs : List Byte) : Decoded :=
  match bs with
  | [] => .bad .shortScanline
  | ft :: content =>
    if content.length < stride then .bad .shortScanline
    else .ok (filterKind ft (content.take stride)) (content.drop stride)

/-- The command a code on the CMD port stands for; codes 0 and 3 are not commands (R220). -/
def decodeCmd (code : BitVec 2) (cfgWidth cfgHeight : Word) (rawIn : List Byte) : Decoded :=
  if code = 1 then .ok .cmdDecode []
  else if code = 2 then .ok (.cmdDefilter cfgWidth cfgHeight rawIn) []
  else .bad (.noCommand code)

/-- The decoder of R107: the format is given with the bytes, then the row is found by `match` and `mask`. -/
def decode : Record → Decoded
  | .sig bs => decodeSig bs
  | .frame bs => decodeFrame bs
  | .scanline stride bs => decodeScanline stride bs
  | .cmd code w h raw => decodeCmd code w h raw

/-- The bytes of a frame, from the line `CHUNK` of R106 with the stored CRC given. -/
def frameBytes (tag : Tag) (data : List Byte) (crc : Word) : List Byte :=
  be32Bytes (BitVec.ofNat 32 data.length) ++ tag.bytes ++ data ++ be32Bytes crc

/-- The record of an instruction (R91, R92, R94, R106, R220). -/
def encode : Instr → Record
  | .sig => .sig signature
  | .ihdr data crc => .frame (frameBytes tagIHDR data crc)
  | .idat data crc => .frame (frameBytes tagIDAT data crc)
  | .iend data crc => .frame (frameBytes tagIEND data crc)
  | .other tag data crc => .frame (frameBytes tag data crc)
  | .none xs => .scanline xs.length (0 :: xs)
  | .sub xs => .scanline xs.length (1 :: xs)
  | .up xs => .scanline xs.length (2 :: xs)
  | .average xs => .scanline xs.length (3 :: xs)
  | .paeth xs => .scanline xs.length (4 :: xs)
  | .illegalFilter ft xs => .scanline xs.length (ft :: xs)
  | .cmdDecode => .cmd 1 0 0 []
  | .cmdDefilter w h raw => .cmd 2 w h raw

/-- The bytes of a stream record; a command has none, since it is not a stream record (R107). -/
def Record.bytes : Record → List Byte
  | .sig bs => bs
  | .frame bs => bs
  | .scanline _ bs => bs
  | .cmd _ _ _ _ => []

/-- The record with further bytes of its stream after it: records stand back to back (R90). -/
def Record.followedBy : Record → List Byte → Record
  | .sig bs, more => .sig (bs ++ more)
  | .frame bs, more => .frame (bs ++ more)
  | .scanline stride bs, more => .scanline stride (bs ++ more)
  | .cmd code w h raw, _ => .cmd code w h raw

/-- The `n` low bytes of a number, most significant first: the order in which R107 reads a row's bytes as a number. -/
def beBytes (n w : Nat) : List Byte := (List.range n).map fun k => BitVec.ofNat 8 (w >>> (8 * (n - 1 - k)))

/-- The record whose table bits are `w` (R107: a `SIG` row has 64 bits, a `FRAME` row the 32 of the tag, a `SCANLINE` row the
8 of the filter type, a `CMD` row the 2 of the code), every other bit 0: an empty body and a zero CRC for a frame, one pixel of
zeros for a scanline, zeros on CFG and nothing on RAWIN for a command. DESIGN CHOICE, log 10. -/
def tableRecord (nbits w : Nat) : Record :=
  if 64 ≤ nbits then .sig (beBytes 8 w)
  else if 32 ≤ nbits then .frame ([0, 0, 0, 0] ++ beBytes 4 w ++ [0, 0, 0, 0])
  else if 8 ≤ nbits then .scanline 4 (BitVec.ofNat 8 w :: [0, 0, 0, 0])
  else .cmd (BitVec.ofNat 2 w) 0 0 []

/-- The instruction the decoder reads from the table's bits. -/
def decodeTableWord (nbits w : Nat) : Option Instr :=
  match decode (tableRecord nbits w) with
  | .ok i _ => some i
  | .bad _ => Option.none

end Sys2Proof
end

