-- ==== Sys2Proof/Machine/Operands.lean ====
section
/-! DEFINITION. How operands are formed: the views of the frame registers (R24), the fields of an `IHDR` (R152) and their
checks (R153), the sizes derived from the header (R29), the addresses of RAW and PIX (R63, R64), and the predictors
(R185, R191). All arithmetic is exact (R9); the one reduction modulo 256 is `recon` (R185, conflict C3). -/

namespace Sys2Proof.Machine

/-- `BPP`, the neighbour distance and the bytes of a pixel (R6). -/
def bpp : Nat := 4

/-- `src_len` (R61). -/
def State.srcLen (s : State) : Nat := s.params.src.length

/-- `TYPE = BODY[0..3]` (R24). -/
def State.frameType (s : State) : List Byte := s.body.take 4

/-- `DATA = BODY[4 .. 3+LEN]` (R24). -/
def State.frameData (s : State) : List Byte := s.body.drop 4

/-- `pay_len = |PAY|` (R32). -/
def State.payLen (s : State) : Nat := s.pay.length

/-- `raw_len = |RAW|` (R33). -/
def State.rawLen (s : State) : Nat := s.raw.length

/-- `stride = 4 * width` (R29). -/
def strideOf (width : Word) : Nat := bpp * width.toNat

/-- `exp_raw = height * (stride + 1)` (R29). -/
def expRawOf (width height : Word) : Nat := height.toNat * (strideOf width + 1)

/-- The size of the pixel buffer, `height * stride` (R29). -/
def State.imageSize (s : State) : Nat := s.height.toNat * s.stride

/-- `rpos` at a step boundary: where scanline `row` begins in RAW (R34, R95). -/
def State.rpos (s : State) : Nat := s.row * (s.stride + 1)

/-- The address of byte (`row`, `col`) in PIX (R64, R96). -/
def pixAddr (stride row col : Nat) : Nat := row * stride + col

/-- The seven fields of an `IHDR`'s data (R93). -/
structure HeaderFields where
  width : Word
  height : Word
  bitDepth : Byte
  colorType : Byte
  compressionMethod : Byte
  filterMethod : Byte
  interlaceMethod : Byte
deriving DecidableEq, Repr

/-- The field extraction of R152; it is done after the length check, so every index is in range. -/
def headerFields (data : List Byte) : HeaderFields :=
  { width := be32 (data.take 4), height := be32 ((data.drop 4).take 4), bitDepth := data.getD 8 0,
    colorType := data.getD 9 0, compressionMethod := data.getD 10 0, filterMethod := data.getD 11 0,
    interlaceMethod := data.getD 12 0 }

/-- Checks 2 to 7 of R153, in its order. -/
def headerFault (h : HeaderFields) : Option DecodeFault :=
  if h.compressionMethod ≠ 0 then some (.unsupportedCompression h.compressionMethod)
  else if h.filterMethod ≠ 0 then some (.unsupportedFilterMethod h.filterMethod)
  else if h.colorType ≠ 6 then some (.unsupportedColorType h.colorType)
  else if h.bitDepth ≠ 8 then some (.unsupportedBitDepth h.bitDepth)
  else if h.interlaceMethod ≠ 0 then some (.unsupportedInterlacing h.interlaceMethod)
  else if h.width = 0 ∨ h.height = 0 then some (.unsupportedDimensions h.width h.height)
  else none

/-- Check 7 of R153 alone, which R228 makes of the host's dimensions. -/
def dimensionFault (width height : Word) : Option DecodeFault :=
  if width = 0 ∨ height = 0 then some (.unsupportedDimensions width height) else none

/-- `paeth(a, b, ul)` in exact signed integers, ties to `a`, then `b`, then `ul` (R191). -/
def paeth (a b ul : Byte) : Byte :=
  let p : Int := (a.toNat : Int) + b.toNat - ul.toNat
  let da := (p - a.toNat).natAbs
  let db := (p - b.toNat).natAbs
  let dc := (p - ul.toNat).natAbs
  if da ≤ db ∧ da ≤ dc then a else if db ≤ dc then b else ul

/-- `pred(0, a, b, ul)` (R185). -/
def predNone (_a _b _ul : Byte) : Nat := 0

/-- `pred(1, a, b, ul)` (R185). -/
def predSub (a _b _ul : Byte) : Nat := a.toNat

/-- `pred(2, a, b, ul)` (R185). -/
def predUp (_a b _ul : Byte) : Nat := b.toNat

/-- `pred(3, a, b, ul)`: the 9-bit sum is not reduced before the division (R185, R189). -/
def predAverage (a b _ul : Byte) : Nat := (a.toNat + b.toNat) / 2

/-- `pred(4, a, b, ul)` (R185). -/
def predPaeth (a b ul : Byte) : Nat := (paeth a b ul).toNat

/-- `pred(ft, a, b, ul)`; filter types above 4 select none (R185). -/
def pred (ft : Byte) (a b ul : Byte) : Nat :=
  if ft = 0 then predNone a b ul
  else if ft = 1 then predSub a b ul
  else if ft = 2 then predUp a b ul
  else if ft = 3 then predAverage a b ul
  else predPaeth a b ul

/-- `(x + pred) mod 256`, the only truncation (R185). -/
def recon (x : Byte) (prediction : Nat) : Byte := BitVec.ofNat 8 (x.toNat + prediction)

end Sys2Proof.Machine
end

