-- ==== Sys2Proof/Machine/Ops.lean ====
section
/-! DEFINITION. The named operations the meanings are made of: the sequencing of a step's pseudocode (R11), fault entry
(R270), `SrcRead` (R120), `PayAppend` (R156), the PIX accesses (R64), `commit_header` (R154), `sde_enter` (R181), reset (R290)
and the CMD port (R220). -/

namespace Sys2Proof.Machine

/-- How far a step's pseudocode has come (R11): it goes on, or it has raised, or the model is stopped. -/
inductive Flow where
  | ok (s : State)
  | raised (s : State)
  | stuck (f : Fault)
deriving DecidableEq, Repr

/-- Sequencing: "`raise` ends the step in which it occurs: no assignment written after it takes place" (R11). -/
def Flow.andThen (m : Flow) (k : State → Flow) : Flow :=
  match m with
  | .ok s => k s
  | .raised s => .raised s
  | .stuck f => .stuck f

/-- The outcome of a step: a step that raised has a next state, in phase `Failed` (R270). -/
def Flow.outcome (m : Flow) : Host.Outcome State Fault Refusal :=
  match m with
  | .ok s => .next s
  | .raised s => .next s
  | .stuck f => .fault f

/-- TAKING A FAULT: `raise E` writes the code and the info registers, sets `failed` and enters `Failed` (R270). Nothing else
is saved, and there is no return (R272). -/
def raise (e : DecodeFault) (s : State) : State :=
  { s.setFailed with errCode := e.code, errInfo0 := e.info.1, errInfo1 := e.info.2.1, errInfo2 := e.info.2.2 }

/-- A size is above a cap: `>`, not `>=` (R123, R156, R224). -/
def Cap.exceededBy (c : Cap) (n : Nat) : Bool :=
  match c with
  | .inf => false
  | .upTo m => decide (m < n)

/-- `SrcRead(n)` (R120): all `n` bytes and `pos` advanced, or `TruncatedStream` with nothing consumed; a source that never
answers hangs the step (R299). -/
def srcRead (n : Nat) (s : State) (k : List Byte → State → Flow) : Flow :=
  if Cap.exceededBy s.params.srcAnswers (s.pos + n) then .stuck .srcNoAnswer
  else if s.pos + n ≤ s.srcLen then k ((s.params.src.drop s.pos).take n) { s with pos := s.pos + n }
  else .raised (raise .truncatedStream s)

/-- `PayAppend(d)` (R156): append at the end, never above `PAYLOAD_CAP`. -/
def payAppend (d : List Byte) (s : State) : Flow :=
  if Cap.exceededBy s.params.payloadCap (s.payLen + d.length) then .raised (raise .allocationFailure s)
  else .ok { s with pay := s.pay ++ d }

/-! ### Cells: a sparse byte space in canonical form -/

/-- The byte at an address; an address that is not listed holds nothing (R37, D33). -/
def Memory.read : List Host.Cell → Nat → Option Byte
  | [], _ => none
  | (k, v) :: m, i => if k = i then some v else Memory.read m i

/-- The cells with a byte written at an address. -/
def Memory.write (i : Nat) (v : Byte) : List Host.Cell → List Host.Cell
  | [] => [(i, v)]
  | (k, w) :: m =>
    if i < k then (i, v) :: (k, w) :: m
    else if i = k then (i, v) :: m
    else (k, w) :: Memory.write i v m

/-- The canonical form: addresses strictly rising. Every listed cell differs from an unlisted one, which holds nothing. -/
def Memory.wf : List Host.Cell → Bool
  | [] => true
  | [_] => true
  | (i, _) :: (j, w) :: m => decide (i < j) && Memory.wf ((j, w) :: m)

/-- `PIX[i]`: reads a written cell (R64); a cell that does not exist or holds nothing stops the model, log 5. -/
def pixRead (i : Nat) (s : State) (k : Byte → Flow) : Flow :=
  if i < s.pixSize then
    match Memory.read s.pix i with
    | some v => k v
    | none => .stuck (.pixUnwritten i)
  else .stuck (.pixOutOfBounds i)

/-- `PIX[i] <- v`: writes an unwritten cell (R64); a second write stops the model, log 18. -/
def pixWrite (i : Nat) (v : Byte) (s : State) : Flow :=
  if i < s.pixSize then
    match Memory.read s.pix i with
    | some _ => .stuck (.pixRewrite i)
    | none => .ok { s with pix := Memory.write i v s.pix }
  else .stuck (.pixOutOfBounds i)

/-- `commit_header` (R154): the seven registers, the derived sizes and `hdr_valid` in one step; `HeaderKnown` only from
`SignatureChecked`. -/
def commitHeader (h : HeaderFields) (s : State) : State :=
  { s with
    width := h.width, height := h.height, bitDepth := h.bitDepth, colorType := h.colorType,
    compressionMethod := h.compressionMethod, filterMethod := h.filterMethod, interlaceMethod := h.interlaceMethod,
    stride := strideOf h.width, expRaw := expRawOf h.width h.height, hdrValid := true,
    phase := if s.phase = .signatureChecked then .headerKnown else s.phase }

/-- The decompressed stream or the pixel buffer would not fit (R224, R228). -/
def State.capacityExceeded (s : State) : Bool :=
  Cap.exceededBy s.params.rawCap s.expRaw || Cap.exceededBy s.params.pixelCap s.imageSize

/-- `sde_enter` (R181): the length check, the pixel buffer allocated with every cell unwritten, the first scanline next. -/
def sdeEnter (s : State) : Flow :=
  if s.rawLen < s.expRaw then .raised (raise (.truncatedImageData s.expRaw s.rawLen) s)
  else .ok { s with pixSize := s.imageSize, pix := [], row := 0, phase := .defiltering }

/-- Reset, from any phase (R290): every register at its reset value; the parameters of the run stay, and so do the actions
still to come on the CMD port (log 23). -/
def hostReset (port : List PortAction) (s : State) : State := State.afterReset s.params port

/-- What the CMD port presents at this boundary has been taken or ignored; it is not remembered (R237). -/
def State.takePort (s : State) : State := { s with cmdPort := s.cmdPort.tail }

end Sys2Proof.Machine
end

