-- ==== Sys2Proof/Machine/Frames.lean ====
section
/-! DEFINITION. The records of SRC: `SIG` (R122) and the chunk frames (R123 to R125) with the effect of each kind
(R150 to R158). -/

namespace Sys2Proof.Machine

/-- `step_sig` (R122). -/
def stepSig (s : State) : Flow :=
  srcRead 8 s fun bytes s =>
    if bytes ≠ signature then .raised (raise .signatureInvalid s)
    else .ok { s.setSigOk with phase := .signatureChecked }

/-- `SIG` (R122). -/
def execSig (s : State) : Host.Outcome State Fault Refusal := (stepSig s).outcome

/-! ### The common part of every frame -/

/-- `frame_read` (R123), from the stream itself. -/
def frameRead (s : State) : Flow :=
  srcRead 4 s fun lengthField s =>
    let n := (be32 lengthField).toNat
    let s := { s with len := be32 lengthField }
    if lengthLimit ≤ n then .raised (raise (.wrongChunkLength n) s)
    else if Cap.exceededBy s.params.chunkCap n then .raised (raise .allocationFailure s)
    else
      srcRead (4 + n) s fun body s =>
        srcRead 4 { s with body := body } fun crcField s => .ok { s with crcS := be32 crcField }

/-- `frame_read` (R123) of a frame whose fields are already decoded: the same registers, the same `pos`, the same two faults
that do not depend on where the stream ends (log 13). -/
def frameTake (tag : Tag) (data : List Byte) (crc : Word) (s : State) : Flow :=
  let n := data.length
  let s := { s with pos := s.pos + 4, len := BitVec.ofNat 32 n }
  if lengthLimit ≤ n then .raised (raise (.wrongChunkLength n) s)
  else if Cap.exceededBy s.params.chunkCap n then .raised (raise .allocationFailure s)
  else .ok { s with pos := s.pos + (4 + n) + 4, body := tag.bytes ++ data, crcS := crc }

/-- `frame_check` (R124): `expected` is the stored CRC, `computed` the collaborator's answer. -/
def frameCheck (s : State) : Flow :=
  match crc32 s.params.crcUnit s.body with
  | none => .stuck .crcNoAnswer
  | some computed =>
    let s := { s with crcAcc := crcAccOf s.params.crcUnit s.body, crcC := computed }
    if s.crcC ≠ s.crcS then .raised (raise (.crcMismatch s.crcS s.crcC s.chunkIndex) s) else .ok s

/-- `chunk_index <- chunk_index + 1`, only if the dispatch raised nothing (R125). -/
def countFrame (s : State) : Flow := .ok { s with chunkIndex := s.chunkIndex + 1 }

/-- `frame_read; frame_check; frame_commit` (R125, R223) of a decoded frame with the effect of its kind. -/
def frameStep (tag : Tag) (data : List Byte) (crc : Word) (effect : List Byte → State → Flow) (s : State) : Flow :=
  ((frameTake tag data crc s).andThen frameCheck).andThen fun s => (effect data s).andThen countFrame

/-! ### The kinds -/

/-- `do_ihdr_first` (R151, R153). -/
def doIhdrFirst (data : List Byte) (s : State) : Flow :=
  if data.length ≠ 13 then .raised (raise (.wrongChunkLength data.length) s)
  else
    match headerFault (headerFields data) with
    | some e => .raised (raise e s)
    | none => .ok (commitHeader (headerFields data) s)

/-- `do_ihdr_later` (R155): the data is discarded. -/
def doIhdrLater (_data : List Byte) (s : State) : Flow := .ok s

/-- An `IHDR` frame is the first one while `hdr_valid = 0` (R150). -/
def doIhdr (data : List Byte) (s : State) : Flow := if s.hdrValid then doIhdrLater data s else doIhdrFirst data s

/-- `do_idat` (R156). -/
def doIdat (data : List Byte) (s : State) : Flow :=
  (payAppend data s).andThen fun s => .ok { s with phase := .payloadAccumulating }

/-- `do_iend` (R157): the data is ignored. -/
def doIend (_data : List Byte) (s : State) : Flow := .ok { s with phase := .endSeen }

/-- `do_other` (R158): the data is discarded. -/
def doOther (_data : List Byte) (s : State) : Flow := .ok s

/-- `IHDR` (R123 to R125, R150 to R155). -/
def execIhdr (data : List Byte) (crc : Word) (s : State) : Host.Outcome State Fault Refusal :=
  (frameStep tagIHDR data crc doIhdr s).outcome

/-- `IDAT` (R123 to R125, R156). -/
def execIdat (data : List Byte) (crc : Word) (s : State) : Host.Outcome State Fault Refusal :=
  (frameStep tagIDAT data crc doIdat s).outcome

/-- `IEND` (R123 to R125, R157). -/
def execIend (data : List Byte) (crc : Word) (s : State) : Host.Outcome State Fault Refusal :=
  (frameStep tagIEND data crc doIend s).outcome

/-- `OTHER` (R123 to R125, R158). -/
def execOther (tag : Tag) (data : List Byte) (crc : Word) (s : State) : Host.Outcome State Fault Refusal :=
  (frameStep tag data crc doOther s).outcome

end Sys2Proof.Machine
end

