-- ==== Sys2Proof/Machine/Commands.lean ====
section
/-! DEFINITION. The host commands (R220): `CMD_DECODE` (R221) and `CMD_DEFILTER` (R228). Each takes itself off the CMD port,
and outside `Start` does nothing else (R237). -/

namespace Sys2Proof.Machine

/-- `step_start_decode` (R221): the command and the signature record are one step. -/
def stepStartDecode (s : State) : Flow := stepSig { s with cmd := 1 }

/-- `CMD_DECODE` (R220, R221, R237). -/
def execCmdDecode (s : State) : Host.Outcome State Fault Refusal :=
  if s.phase = .start then (stepStartDecode s.takePort).outcome else .next s.takePort

/-- The header a `CMD_DEFILTER` session has: the host's dimensions and the only supported profile (R228). -/
def hostHeader (width height : Word) : HeaderFields :=
  { width := width, height := height, bitDepth := 8, colorType := 6, compressionMethod := 0, filterMethod := 0,
    interlaceMethod := 0 }

/-- `step_start_defilter` (R228). -/
def stepStartDefilter (cfgWidth cfgHeight : Word) (rawIn : List Byte) (s : State) : Flow :=
  let s := { s with cmd := 2 }
  match dimensionFault cfgWidth cfgHeight with
  | some e => .raised (raise e s)
  | none =>
    let s := commitHeader (hostHeader cfgWidth cfgHeight) s
    if s.capacityExceeded then .raised (raise .allocationFailure s) else sdeEnter { s with raw := rawIn }

/-- `CMD_DEFILTER` (R220, R228, R237). -/
def execCmdDefilter (cfgWidth cfgHeight : Word) (rawIn : List Byte) (s : State) : Host.Outcome State Fault Refusal :=
  if s.phase = .start then (stepStartDefilter cfgWidth cfgHeight rawIn s.takePort).outcome else .next s.takePort

end Sys2Proof.Machine
end

