-- ==== Sys2Proof/Machine/Scanlines.lean ====
section
/-! DEFINITION. The records of RAW: the five reconstructions and the illegal filter types (R182 to R195). -/

namespace Sys2Proof.Machine

/-- `a`: the reconstructed byte one pixel to the left, or 0 in the first pixel (R184). -/
def readLeft (col : Nat) (s : State) (k : Byte → Flow) : Flow :=
  if bpp ≤ col then pixRead (pixAddr s.stride s.row (col - bpp)) s k else k 0

/-- `b`: the reconstructed byte directly above, or 0 in the first scanline (R184). -/
def readAbove (col : Nat) (s : State) (k : Byte → Flow) : Flow :=
  if 1 ≤ s.row then pixRead (pixAddr s.stride (s.row - 1) col) s k else k 0

/-- `ul`: the reconstructed byte above-left, or 0 at either edge (R184). -/
def readAboveLeft (col : Nat) (s : State) (k : Byte → Flow) : Flow :=
  if 1 ≤ s.row ∧ bpp ≤ col then pixRead (pixAddr s.stride (s.row - 1) (col - bpp)) s k else k 0

/-- The hidden buffers after a byte: the previous scanline's byte moves to `UPLEFT`, the reconstructed one to `LEFT` and
`LINE` (R193). -/
def shiftBuffers (col : Nat) (above reconstructed : Byte) (s : State) : State :=
  { s with
    upleft := s.upleft.set (col % bpp) above, left := s.left.set (col % bpp) reconstructed,
    line := s.line.set col reconstructed }

/-- The write-back of a byte with its neighbours given (R185, R192): the neighbour and input registers (R36), PIX, the hidden
buffers. -/
def reconstruct (predict : Byte → Byte → Byte → Nat) (col : Nat) (x a b ul : Byte) (s : State) : Flow :=
  let v := recon x (predict a b ul)
  (pixWrite (pixAddr s.stride s.row col) v { s with col := col, x := x, a := a, b := b, ul := ul }).andThen fun s =>
    .ok (shiftBuffers col b v s)

/-- One turn of R182's loop: the byte at (`row`, `col`). -/
def defilterByte (predict : Byte → Byte → Byte → Nat) (col : Nat) (x : Byte) (s : State) : Flow :=
  readLeft col s fun a => readAbove col s fun b => readAboveLeft col s fun ul => reconstruct predict col x a b ul s

/-- R182's loop over the filtered bytes, in increasing order of the column. -/
def defilterRow (predict : Byte → Byte → Byte → Nat) : List Byte → Nat → State → Flow
  | [], _, s => .ok s
  | x :: xs, col, s => (defilterByte predict col x s).andThen (defilterRow predict xs (col + 1))

/-- The hidden buffers at the start of a scanline; above the first scanline all bytes are 0 (R193, R194). -/
def clearBuffers (s : State) : State :=
  { s with
    left := [0, 0, 0, 0], upleft := [0, 0, 0, 0],
    line := if s.row = 0 then List.replicate s.stride 0 else s.line }

/-- The end of a scanline step: the next row, and `Done` after the last (R182, R195). -/
def finishRow (s : State) : Flow :=
  let s := { s with row := s.row + 1 }
  if s.row = s.height.toNat then .ok s.setDone else .ok s

/-- `step_scanline` (R182) of a decoded scanline with a recognised filter type (R183). -/
def scanlineStep (ft : Byte) (predict : Byte → Byte → Byte → Nat) (xs : List Byte) (s : State) : Flow :=
  if xs.length ≠ s.stride then .stuck (.scanlineLength xs.length s.stride)
  else (defilterRow predict xs 0 (clearBuffers { s with filt := ft })).andThen finishRow

/-- `NONE` (R186). -/
def execNone (xs : List Byte) (s : State) : Host.Outcome State Fault Refusal := (scanlineStep 0 predNone xs s).outcome

/-- `SUB` (R187). -/
def execSub (xs : List Byte) (s : State) : Host.Outcome State Fault Refusal := (scanlineStep 1 predSub xs s).outcome

/-- `UP` (R188). -/
def execUp (xs : List Byte) (s : State) : Host.Outcome State Fault Refusal := (scanlineStep 2 predUp xs s).outcome

/-- `AVERAGE` (R189). -/
def execAverage (xs : List Byte) (s : State) : Host.Outcome State Fault Refusal := (scanlineStep 3 predAverage xs s).outcome

/-- `PAETH` (R190). -/
def execPaeth (xs : List Byte) (s : State) : Host.Outcome State Fault Refusal := (scanlineStep 4 predPaeth xs s).outcome

/-- A filter type of 5 .. 255: `FILT` is read and `UnknownFilterType(row, FILT)` raised before any byte of the scanline is
reconstructed (R101, R183, R267). -/
def execIllegalFilter (ft : Byte) (_xs : List Byte) (s : State) : Host.Outcome State Fault Refusal :=
  .next (raise (.unknownFilterType s.row ft) { s with filt := ft })

end Sys2Proof.Machine
end

