-- ==== Sys2Proof/Machine/Dispatch.lean ====
section
/-! DEFINITION. One arm per constructor of `Instr`, each one call of its meaning. -/

namespace Sys2Proof.Machine

def exec (i : Instr) (s : State) : Host.Outcome State Fault Refusal :=
  match i with
  | .sig => Sys2Proof.Machine.execSig s
  | .ihdr data crc => Sys2Proof.Machine.execIhdr data crc s
  | .idat data crc => Sys2Proof.Machine.execIdat data crc s
  | .iend data crc => Sys2Proof.Machine.execIend data crc s
  | .other tag data crc => Sys2Proof.Machine.execOther tag data crc s
  | .none xs => Sys2Proof.Machine.execNone xs s
  | .sub xs => Sys2Proof.Machine.execSub xs s
  | .up xs => Sys2Proof.Machine.execUp xs s
  | .average xs => Sys2Proof.Machine.execAverage xs s
  | .paeth xs => Sys2Proof.Machine.execPaeth xs s
  | .illegalFilter ft xs => Sys2Proof.Machine.execIllegalFilter ft xs s
  | .cmdDecode => Sys2Proof.Machine.execCmdDecode s
  | .cmdDefilter cfgWidth cfgHeight rawIn => Sys2Proof.Machine.execCmdDefilter cfgWidth cfgHeight rawIn s

end Sys2Proof.Machine
end

