-- ==== Sys2Proof/Machine/Sequencer.lean ====
section
/-! DEFINITION. The sequencer: the actions that are no records (R224, R225), what the agent does next in each phase (R222), the
CMD port at a step boundary (R220, R290), and where a record is placed for the next step. -/

namespace Sys2Proof.Machine

/-- `step_end_seen` (R224). -/
def stepEndSeen (s : State) : Flow :=
  if s.hdrValid = false then .raised (raise .missingHeader s)
  else if s.capacityExceeded then .raised (raise .allocationFailure s)
  else .ok { s with phase := .decompressing }

/-- `step_decompress` (R225). -/
def stepDecompress (s : State) : Flow :=
  match inflate s.params.inflateUnit s.pay with
  | none => .stuck .infNoAnswer
  | some .err => .raised (raise .decompressError s)
  | some (.ok bytes) =>
    if bytes.length ≠ s.expRaw then .raised (raise (.sizeMismatch s.expRaw bytes.length) s)
    else sdeEnter { s with raw := bytes, pay := [] }

/-- What the next step consists of. -/
inductive Next where
  /-- No step is enabled: the agent waits, or the phase is terminal (R222, R227, R272). -/
  | idle
  /-- A record is executed. -/
  | run (i : Instr)
  /-- The step is this and no record's: a sequencer action, or a record that could not be read. -/
  | seq (f : Flow)
deriving DecidableEq, Repr

/-- The frame at `pos`: `frame_read` says whether there is one and what reading it raises (R123), the decoder which. -/
def fetchFrame (s : State) : Next :=
  match frameRead s with
  | .ok _ =>
    match decode (.frame (s.params.src.drop s.pos)) with
    | .ok i _ => .run i
    | .bad _ => .seq (frameRead s)
  | .raised s' => .seq (.raised s')
  | .stuck f => .seq (.stuck f)

/-- The scanline at `rpos` (R95); one that RAW does not hold whole stops the model. -/
def fetchScanline (s : State) : Next :=
  match decode (.scanline s.stride (s.raw.drop s.rpos)) with
  | .ok i _ => .run i
  | .bad _ => .seq (.stuck (.rawOutOfBounds (s.rpos + s.stride)))

/-- The step table (R222). In `Start` with `CMD_DECODE` recorded the next record is `SIG` (R90, R122); no run comes to a
boundary there, since the command and the signature are one step (R221, log 9). -/
def fetch (s : State) : Next :=
  match s.phase with
  | .start => if s.cmd = 1 then .run .sig else .idle
  | .signatureChecked => fetchFrame s
  | .reading => .seq (.stuck .readingAtBoundary)
  | .headerKnown => fetchFrame s
  | .payloadAccumulating => fetchFrame s
  | .endSeen => .seq (stepEndSeen s)
  | .decompressing => .seq (stepDecompress s)
  | .defiltering => fetchScanline s
  | .done => .idle
  | .failed => .idle

/-- What the host does at this boundary. -/
inductive HostAct where
  | reset (port : List PortAction)
  | command (i : Instr)
  | nothing
deriving DecidableEq, Repr

/-- The CMD port at a boundary: a command counts in `Start` only (R237), codes 0 and 3 are nothing (R220). -/
def hostAct (s : State) : HostAct :=
  match s.cmdPort with
  | [] => .nothing
  | .idle :: _ => .nothing
  | .reset :: port => .reset port
  | .code c :: _ =>
    if s.phase = .start then
      match decode (.cmd c s.params.cfgWidth s.params.cfgHeight s.params.rawIn) with
      | .ok i _ => .command i
      | .bad _ => .nothing
    else .nothing

/-! ### Placing a record for the next step -/

/-- A byte sequence with bytes stored at an offset, what lies before and after them kept. -/
def storeAt (offset : Nat) (bytes s : List Byte) : List Byte :=
  s.take offset ++ List.replicate (offset - s.length) 0 ++ bytes ++ s.drop (offset + bytes.length)

/-- The state in which the next step fetches the given record: a record of SRC stands at `pos`, in a phase that reads one, with
a source that answers; a scanline is the only one of an image of one row, under that image's header; a command is on the port in
`Start` (log 10, log 11). -/
def placeRecord (r : Record) (s : State) : State :=
  match r with
  | .sig bytes =>
    { s with
      phase := .start, cmd := 1, cmdPort := [],
      params := { s.params with src := storeAt s.pos bytes s.params.src, srcAnswers := .inf } }
  | .frame bytes =>
    { s with
      phase := if s.phase.inChunkLoop then s.phase else .signatureChecked, cmdPort := [],
      params := { s.params with src := storeAt s.pos bytes s.params.src, srcAnswers := .inf } }
  | .scanline stride bytes =>
    { commitHeader (hostHeader (BitVec.ofNat 32 (stride / bpp)) 1) s with
      phase := .defiltering, cmdPort := [], raw := bytes, row := 0, pixSize := stride, pix := [] }
  | .cmd code w h raw =>
    { s with
      phase := .start, cmdPort := [.code code],
      params := { s.params with cfgWidth := w, cfgHeight := h, rawIn := raw } }

end Sys2Proof.Machine
end

