-- ==== Sys2Proof/Machine/Step.lean ====
section
/-! DEFINITION. One step of the machine (R20, R222), and the placing of a table word as its next record. -/

namespace Sys2Proof.Machine

/-- The step the phase selects (R222); where none is enabled the state stays (log 6). -/
def advance (s : State) : Host.Outcome State Fault Refusal :=
  match fetch s with
  | .idle => .next s
  | .run i => exec i s
  | .seq f => f.outcome

/-- One step: reset (R290), a command in `Start` (R222), or the step of the phase, at which whatever else the CMD port
presents is ignored (R237). -/
def step (s : State) : Host.Outcome State Fault Refusal :=
  match hostAct s with
  | .reset port => .next (hostReset port s)
  | .command i => exec i s
  | .nothing => advance s.takePort

/-- `s` with the record of a table word where `step` fetches its next record. -/
def State.withFetchWord (s : State) (nbits w : Nat) : State := placeRecord (tableRecord nbits w) s

end Sys2Proof.Machine
end

