-- ==== Sys2Proof/Machine/Ports.lean ====
section
/-! DEFINITION. What the host can observe at a step boundary (R41): the STATUS port (R234) and the OUT port (R233). -/

namespace Sys2Proof.Machine

/-- The header registers and `stride`, as STATUS presents them once `hdr_valid = 1` (R41). -/
structure StatusHeader where
  width : Word
  height : Word
  bitDepth : Byte
  colorType : Byte
  compressionMethod : Byte
  filterMethod : Byte
  interlaceMethod : Byte
  stride : Nat
deriving DecidableEq, Repr

/-- What STATUS presents (R41). -/
structure Status where
  phase : BitVec 4
  sigOk : Bool
  hdrValid : Bool
  done : Bool
  failed : Bool
  cmd : BitVec 2
  errCode : BitVec 5
  errInfo0 : Nat
  errInfo1 : Nat
  errInfo2 : Nat
  chunkIndex : Nat
  pos : Nat
  row : Nat
  header : Option StatusHeader
deriving DecidableEq, Repr

/-- The STATUS port (R41, R234). -/
def State.status (s : State) : Status :=
  { phase := s.phase.code, sigOk := s.sigOk, hdrValid := s.hdrValid, done := s.done, failed := s.failed, cmd := s.cmd,
    errCode := s.errCode, errInfo0 := s.errInfo0, errInfo1 := s.errInfo1, errInfo2 := s.errInfo2,
    chunkIndex := s.chunkIndex, pos := s.pos, row := s.row,
    header :=
      if s.hdrValid then
        some { width := s.width, height := s.height, bitDepth := s.bitDepth, colorType := s.colorType,
               compressionMethod := s.compressionMethod, filterMethod := s.filterMethod,
               interlaceMethod := s.interlaceMethod, stride := s.stride }
      else none }

/-- `PixelBuffer { width, height, stride, bytes }` (R96, R233). -/
structure PixelBuffer where
  width : Word
  height : Word
  stride : Nat
  bytes : List Byte
deriving DecidableEq, Repr

/-- `PIX[0 .. height*stride - 1]`: the written cells by rising address, which in `Done` are all of them (R195). -/
def State.pixBytes (s : State) : List Byte := s.pix.map Prod.snd

/-- The OUT port: the PixelBuffer while `done = 1`, nothing otherwise (R233, R236). -/
def State.out (s : State) : Option PixelBuffer :=
  if s.done then some { width := s.width, height := s.height, stride := s.stride, bytes := s.pixBytes } else none

end Sys2Proof.Machine
end

