-- ==== Sys2Proof/Machine/Reference.lean ====
section
/-! DEFINITION. The spec's own texts that the machine's step says in another way, written down beside it so that the two can be
held together: a frame step read from the stream and dispatched on its tag bytes (R150, R223), a scanline step that reads RAW
byte by byte (R182), the step table (R222), the engine with neighbour buffers (R193) and the forward filter (R197). `step` uses
none of this file. -/

namespace Sys2Proof.Machine

/-- `dispatch(TYPE, DATA)` (R150). -/
def dispatch (type data : List Byte) (s : State) : Flow :=
  if type = tagIHDR.bytes ∧ s.hdrValid = false then doIhdrFirst data s
  else if type = tagIHDR.bytes ∧ s.hdrValid = true then doIhdrLater data s
  else if type = tagIDAT.bytes then doIdat data s
  else if type = tagIEND.bytes then doIend data s
  else doOther data s

/-- `step_frame` (R223): `frame_read; frame_check; frame_commit`. -/
def stepFrame (s : State) : Flow :=
  (frameRead s).andThen fun s =>
    (frameCheck s).andThen fun s => (dispatch s.frameType s.frameData s).andThen countFrame

/-- `RAW[i]` (R63). -/
def rawRead (i : Nat) (s : State) (k : Byte → Flow) : Flow :=
  match s.raw[i]? with
  | some v => k v
  | none => .stuck (.rawOutOfBounds i)

/-- R182's loop with `n` columns left. -/
def scanColumns (ft : Byte) (base : Nat) : Nat → State → Flow
  | 0, s => .ok s
  | n + 1, s =>
    let col := s.stride - (n + 1)
    rawRead (base + 1 + col) s fun x => (defilterByte (pred ft) col x s).andThen (scanColumns ft base n)

/-- `step_scanline` (R182), with the hidden buffers kept beside it (R193). -/
def stepScanline (s : State) : Flow :=
  rawRead s.rpos s fun ft =>
    if 4 < ft.toNat then .raised (raise (.unknownFilterType s.row ft) { s with filt := ft })
    else (scanColumns ft s.rpos s.stride (clearBuffers { s with filt := ft })).andThen finishRow

/-- The step of each phase once a command has been given (R222). -/
def phaseStep (s : State) : Flow :=
  match s.phase with
  | .start => .ok s
  | .signatureChecked => stepFrame s
  | .reading => .stuck .readingAtBoundary
  | .headerKnown => stepFrame s
  | .payloadAccumulating => stepFrame s
  | .endSeen => stepEndSeen s
  | .decompressing => stepDecompress s
  | .defiltering => stepScanline s
  | .done => .ok s
  | .failed => .ok s

/-- One turn of R193's loop: the neighbours come from the hidden buffers. -/
def bufferedByte (predict : Byte → Byte → Byte → Nat) (col : Nat) (x : Byte) (s : State) : Flow :=
  reconstruct predict col x (s.left.getD (col % bpp) 0) (s.line.getD col 0) (s.upleft.getD (col % bpp) 0) s

/-- R193's loop. -/
def bufferedRow (predict : Byte → Byte → Byte → Nat) : List Byte → Nat → State → Flow
  | [], _, s => .ok s
  | x :: xs, col, s => (bufferedByte predict col x s).andThen (bufferedRow predict xs (col + 1))

/-- A scanline step of the engine with neighbour buffers (R193). -/
def bufferedScanlineStep (ft : Byte) (predict : Byte → Byte → Byte → Nat) (xs : List Byte) (s : State) : Flow :=
  if xs.length ≠ s.stride then .stuck (.scanlineLength xs.length s.stride)
  else (bufferedRow predict xs 0 (clearBuffers { s with filt := ft })).andThen finishRow

/-- A neighbour in the image `P`, given as the list of its rows: the byte `up` rows above and `back` columns to the left, or 0
outside the image (R184, R197). -/
def imageNeighbour (rows : List (List Byte)) (row col up back : Nat) : Byte :=
  if up ≤ row ∧ back ≤ col then (rows.getD (row - up) []).getD (col - back) 0 else 0

/-- `x[col] = (P[row][col] - pred(ft[row], a, b, ul)) mod 256` (R197). -/
def forwardByte (rows : List (List Byte)) (ft : Byte) (row col : Nat) : Byte :=
  (rows.getD row []).getD col 0 -
    BitVec.ofNat 8
      (pred ft (imageNeighbour rows row col 0 bpp) (imageNeighbour rows row col 1 0) (imageNeighbour rows row col 1 bpp))

/-- The RAW record of a row: its filter type and its filtered bytes (R94, R197). -/
def forwardRow (rows : List (List Byte)) (ft : Byte) (row : Nat) : List Byte :=
  ft :: (List.range (rows.getD row []).length).map fun col => forwardByte rows ft row col

/-- The forward filter of an image under one filter type per row (R197). It is no function of the hardware. -/
def forwardRaw (rows : List (List Byte)) (fts : List Byte) : List Byte :=
  (List.range rows.length).flatMap fun row => forwardRow rows (fts.getD row 0) row

end Sys2Proof.Machine
end

