-- ==== Sys2Proof/Safety.lean ====
section
/-! DEFINITION. The terms claims are stated in: the invariant every step keeps (R25, R26, R28, R29, R34, R37), when a
scanline can be executed, when the collaborators answer, and the end of a run (R229). -/

namespace Sys2Proof.Machine

/-- Once `hdr_valid = 1` the header registers hold legal values and the derived sizes follow from them (R28, R29). -/
structure State.HeaderLegal (s : State) : Prop where
  width : 0 < s.width.toNat
  height : 0 < s.height.toNat
  bitDepth : s.bitDepth = 8
  colorType : s.colorType = 6
  compressionMethod : s.compressionMethod = 0
  filterMethod : s.filterMethod = 0
  interlaceMethod : s.interlaceMethod = 0
  stride : s.stride = strideOf s.width
  expRaw : s.expRaw = expRawOf s.width s.height

/-- PIX is allocated and exactly its first `n` cells are written, in order (R37). -/
structure State.PixFilled (s : State) (n : Nat) : Prop where
  size : s.pixSize = s.imageSize
  cells : s.pix.map Prod.fst = List.range n

/-- The scanline `row` can be executed: PIX holds the scanlines before it, and nothing after them (R182, R183). -/
structure State.RowReady (s : State) : Prop where
  inImage : s.row < s.height.toNat
  stride : 0 < s.stride
  pix : s.PixFilled (s.row * s.stride)

/-- `LINE` holds the reconstructed previous scanline (R36, R193). -/
def State.LineReady (s : State) : Prop :=
  0 < s.row → s.line.length = s.stride ∧
    ∀ j, j < s.stride → Memory.read s.pix (pixAddr s.stride (s.row - 1) j) = s.line[j]?

/-- The invariant of the machine at a step boundary. -/
structure State.Inv (s : State) : Prop where
  /-- `Reading` is never the value of `phase` at a step boundary (R26). -/
  notReading : s.phase ≠ .reading
  /-- `done = 1` exactly when `phase = Done` (R25). -/
  done : s.done = true ↔ s.phase = .done
  /-- `failed = 1` exactly when `phase = Failed` (R25). -/
  failed : s.failed = true ↔ s.phase = .failed
  /-- `err_code` is 0 when no fault was taken (R30). -/
  noError : s.errCode = 0 ↔ s.phase ≠ .failed
  /-- Codes 17 .. 31 are never written (R251). -/
  errCode : s.errCode.toNat ≤ 16
  /-- `cmd` is 0 until a command is accepted, and 3 never (R27). -/
  cmd : s.cmd = 0 ↔ s.phase = .start
  cmdCode : s.cmd ≠ 3
  /-- `pos` never exceeds `src_len` (R120). -/
  pos : s.pos ≤ s.srcLen
  /-- The cells of PIX are in canonical form. -/
  pixWf : Memory.wf s.pix = true
  header : s.hdrValid = true → s.HeaderLegal
  /-- Nothing is consumed in `Start` (R26, R40). -/
  start : s.phase = .start → s.pos = 0 ∧ s.chunkIndex = 0 ∧ s.sigOk = false ∧ s.hdrValid = false ∧ s.pay = []
  /-- The chunk loop belongs to a `CMD_DECODE` session whose signature matched (R222). -/
  loop : s.phase.inChunkLoop = true → s.cmd = 1 ∧ s.sigOk = true
  /-- No `IHDR` accepted and no `IDAT` seen (R26). -/
  signatureChecked : s.phase = .signatureChecked → s.hdrValid = false ∧ s.pay = []
  /-- The first `IHDR` accepted and no `IDAT` seen (R26). -/
  headerKnown : s.phase = .headerKnown → s.hdrValid = true ∧ s.pay = []
  /-- No scanline is located before a header is accepted (R295). -/
  late : s.phase = .decompressing ∨ s.phase = .defiltering ∨ s.phase = .done → s.hdrValid = true
  /-- RAW is present and long enough, and the rows before `row` are reconstructed (R26, R34, R37). -/
  defiltering : s.phase = .defiltering → s.expRaw ≤ s.rawLen ∧ s.RowReady ∧ s.LineReady
  /-- Every scanline is reconstructed (R26, R195). -/
  finished : s.phase = .done → s.row = s.height.toNat ∧ s.PixFilled s.imageSize
  /-- The chunk parser takes no part in a `CMD_DEFILTER` session (R228). -/
  defilterSession : s.cmd = 2 → s.pos = 0 ∧ s.chunkIndex = 0 ∧ s.sigOk = false ∧ s.pay = []

/-- The three collaborators answer every request of the run (R292, R299). -/
structure Params.Answering (p : Params) : Prop where
  src : p.srcAnswers = .inf
  crc : p.crcUnit ≠ .silent
  inf : p.inflateUnit ≠ .silent

/-- The left neighbour of (`row`, `col`) as these cells hold it (R184). -/
def neighbourA (pix : List Host.Cell) (stride row col : Nat) : Byte :=
  if 4 ≤ col then (Memory.read pix (row * stride + (col - 4))).getD 0 else 0

/-- The neighbour above (R184). -/
def neighbourB (pix : List Host.Cell) (stride row col : Nat) : Byte :=
  if 0 < row then (Memory.read pix ((row - 1) * stride + col)).getD 0 else 0

/-- The neighbour above-left (R184). -/
def neighbourUL (pix : List Host.Cell) (stride row col : Nat) : Byte :=
  if 0 < row ∧ 4 ≤ col then (Memory.read pix ((row - 1) * stride + (col - 4))).getD 0 else 0

/-- `t` differs from `s` at most in the registers that live inside a scanline step (R34, R36), the hidden buffers (R193) and
the cells of PIX. -/
def SameButEngine (s t : State) : Prop :=
  t = { s with
        col := t.col, x := t.x, a := t.a, b := t.b, ul := t.ul, line := t.line, left := t.left, upleft := t.upleft,
        pix := t.pix }

/-- The hidden buffers before byte (`row`, `col`) is processed, by the invariant of R193. -/
structure State.BuffersHold (s : State) (col : Nat) : Prop where
  lineLength : s.line.length = s.stride
  leftLength : s.left.length = 4
  upleftLength : s.upleft.length = 4
  /-- `LINE[j]` holds this scanline's byte for `j < col`. -/
  lineDone : ∀ j, j < col → j < s.stride → s.line[j]? = Memory.read s.pix (s.row * s.stride + j)
  /-- `LINE[j]` holds the previous scanline's byte, or 0, for `j >= col`. -/
  lineAhead : ∀ j, col ≤ j → j < s.stride → s.line[j]? = some (neighbourB s.pix s.stride s.row j)
  /-- `LEFT[k]` holds the left neighbour of the next column of channel `k`. -/
  left : ∀ c, col ≤ c → c < col + 4 → s.left.getD (c % 4) 0 = neighbourA s.pix s.stride s.row c
  /-- `UPLEFT[k]` holds the above-left neighbour of the next column of channel `k`. -/
  upleft : ∀ c, col ≤ c → c < col + 4 → c < s.stride →
    s.upleft.getD (c % 4) 0 = neighbourUL s.pix s.stride s.row c

/-- The state once a frame has been read (R123): the position past it and the frame registers. -/
def afterFrameRead (tag : Tag) (data : List Byte) (crc : Word) (s : State) : State :=
  { s with
    pos := s.pos + (12 + data.length), len := BitVec.ofNat 32 data.length, body := tag.bytes ++ data, crcS := crc }

/-- The state once a frame has been read and its CRC compared (R123, R124). -/
def afterFrameCheck (tag : Tag) (data : List Byte) (crc computed : Word) (s : State) : State :=
  { afterFrameRead tag data crc s with
    crcAcc := crcAccOf s.params.crcUnit (tag.bytes ++ data), crcC := computed }

/-- A frame that `frame_read` and `frame_check` let through (R123, R124): a legal length, room for the body, and the stored
CRC is the one the collaborator answers. -/
structure FrameAccepted (tag : Tag) (data : List Byte) (crc : Word) (s : State) : Prop where
  length : data.length < lengthLimit
  room : Cap.exceededBy s.params.chunkCap data.length = false
  crc : crc32 s.params.crcUnit (tag.bytes ++ data) = some crc

/-- The run is over (R229). -/
def Phase.isOver (p : Phase) : Bool := decide (p = .done ∨ p = .failed)

/-- Every cell of PIX reads in `t` as in `s`. -/
def SamePix (s t : State) : Prop := ∀ i, Memory.read t.pix i = Memory.read s.pix i

/-- Outside `first .. first + n - 1` every cell of PIX reads in `t` as in `s`. -/
def SamePixOutside (s t : State) (first n : Nat) : Prop :=
  ∀ i, i < first ∨ first + n ≤ i → Memory.read t.pix i = Memory.read s.pix i

end Sys2Proof.Machine
end

