-- ==== Sys2Proof/Certificates/Slice0/Obligations.lean ====
section
/-! DEFINITION. What is claimed of the machine. A claim holds for every collaborator of a run unless it says otherwise: `crc32`
and `inflate` are parameters of the state, and the ones that are not the default have no body. Where a claim is about `step`,
`takePort` stands for what the CMD port presented at the boundary having gone; it changes no register of the spec, and the
port's schedule is the model's own (DESIGN CHOICE, log 7). The registers that live inside a step keep their last values
after it (DESIGN CHOICE, log 20), and `crc_acc` and the hidden buffers are kept (log 14). -/

open Sys2Proof Sys2Proof.Machine

/-! ### Vocabulary -/

/-- `i` is the frame of this tag, data and stored CRC. -/
def Sys2Proof.IsFrame (i : Instr) (tag : Tag) (data : List Byte) (crc : Word) : Prop :=
  (i = .ihdr data crc ∧ tag = tagIHDR) ∨ (i = .idat data crc ∧ tag = tagIDAT) ∨ (i = .iend data crc ∧ tag = tagIEND) ∨
    i = .other tag data crc

/-- `i` is the scanline of this recognised filter type and these filtered bytes. -/
def Sys2Proof.IsScanline (i : Instr) (ft : Byte) (xs : List Byte) : Prop :=
  (i = .none xs ∧ ft = 0) ∨ (i = .sub xs ∧ ft = 1) ∨ (i = .up xs ∧ ft = 2) ∨ (i = .average xs ∧ ft = 3) ∨
    (i = .paeth xs ∧ ft = 4)

/-- From every state in which a scanline can be executed, the scanline executes, and then each byte of its row is the filtered
byte plus the prediction from the three neighbours PIX holds, modulo 256. -/
def Sys2Proof.Machine.ReconstructsRow (i : List Byte → Instr) (prediction : Nat → Nat → Nat → Nat) : Prop :=
  ∀ (s : State) (xs : List Byte), s.RowReady → xs.length = s.stride →
    ∃ t, exec (i xs) s = .next t ∧
      ∀ col (h : col < xs.length), Memory.read t.pix (s.row * s.stride + col) =
        some (BitVec.ofNat 8 (xs[col].toNat +
          prediction (neighbourA t.pix s.stride s.row col).toNat (neighbourB t.pix s.stride s.row col).toNat
            (neighbourUL t.pix s.stride s.row col).toNat))

/-- The host asserts no reset at this boundary. -/
def Sys2Proof.Machine.NoReset (s : State) : Prop := ∀ port, hostAct s ≠ .reset port

/-- The seven header registers and the two derived sizes are the same (R28, R29). -/
def Sys2Proof.Machine.SameHeader (s t : State) : Prop :=
  t.width = s.width ∧ t.height = s.height ∧ t.bitDepth = s.bitDepth ∧ t.colorType = s.colorType ∧
    t.compressionMethod = s.compressionMethod ∧ t.filterMethod = s.filterMethod ∧ t.interlaceMethod = s.interlaceMethod ∧
    t.stride = s.stride ∧ t.expRaw = s.expRaw

/-! ### Fields and records -/

/-- R121. The big-endian decoder: the formula, the bits, and the bijection between 4-byte sequences and `uint32`. -/
def Obligations.BigEndianDecoderIsABijection : Prop :=
  (∀ s0 s1 s2 s3 : Byte,
    (be32 [s0, s1, s2, s3]).toNat = s0.toNat * 16777216 + s1.toNat * 65536 + s2.toNat * 256 + s3.toNat ∧
    (be32 [s0, s1, s2, s3]).extractLsb' 24 8 = s0 ∧ (be32 [s0, s1, s2, s3]).extractLsb' 16 8 = s1 ∧
    (be32 [s0, s1, s2, s3]).extractLsb' 8 8 = s2 ∧ (be32 [s0, s1, s2, s3]).extractLsb' 0 8 = s3 ∧
    be32Bytes (be32 [s0, s1, s2, s3]) = [s0, s1, s2, s3]) ∧
  ∀ v : Word, (be32Bytes v).length = 4 ∧ be32 (be32Bytes v) = v

/-- R91, R92, R94, R220. Records written out from the spec decode to what they stand for. -/
def Obligations.SampleRecordsDecode : Prop :=
  decode (.sig [0x89, 0x50, 0x4E, 0x47, 0x0D, 0x0A, 0x1A, 0x0A]) = .ok .sig [] ∧
  decode (.frame [0, 0, 0, 0x0D, 0x49, 0x48, 0x44, 0x52, 0, 0, 0, 2, 0, 0, 0, 2, 8, 6, 0, 0, 0, 0x72, 0xB6, 0x0D, 0x24]) =
    .ok (.ihdr [0, 0, 0, 2, 0, 0, 0, 2, 8, 6, 0, 0, 0] 0x72B60D24) [] ∧
  decode (.frame [0, 0, 0, 2, 0x49, 0x45, 0x4E, 0x44, 1, 2, 0xF2, 0xCB, 0x77, 0x41, 0xAA]) =
    .ok (.iend [1, 2] 0xF2CB7741) [0xAA] ∧
  decode (.frame [0, 0, 0, 0, 0x49, 0x44, 0x41, 0x54, 0x35, 0xAF, 0x06, 0x1E]) = .ok (.idat [] 0x35AF061E) [] ∧
  decode (.scanline 4 [4, 0x10, 0x20, 0x30, 0x40]) = .ok (.paeth [0x10, 0x20, 0x30, 0x40]) [] ∧
  decode (.scanline 4 [0x80, 0x10, 0x20, 0x30, 0x40]) = .ok (.illegalFilter 0x80 [0x10, 0x20, 0x30, 0x40]) [] ∧
  decode (.cmd 1 2 3 [4]) = .ok .cmdDecode [] ∧ decode (.cmd 2 2 3 [4]) = .ok (.cmdDefilter 2 3 [4]) []

/-- R90 to R100, R106, R220. Decoding the record of a well-formed instruction gives it back, with every operand at every value,
and leaves what stands after a stream record untouched. -/
def Obligations.DecodeUndoesEncode : Prop :=
  (∀ i : Instr, i.wf = true → decode (encode i) = .ok i []) ∧
  ∀ (i : Instr) (more : List Byte), i.wf = true → i ≠ .cmdDecode → (∀ w h raw, i ≠ .cmdDefilter w h raw) →
    decode ((encode i).followedBy more) = .ok i more

/-- R90 to R100, R106. What the decoder accepts of a stream is the record of the well-formed instruction it answers, and
nothing of the bytes is dropped. -/
def Obligations.EncodeUndoesDecode : Prop :=
  (∀ bs i rest, decode (.sig bs) = .ok i rest → i.wf = true ∧ Record.sig bs = (encode i).followedBy rest) ∧
  (∀ bs i rest, decode (.frame bs) = .ok i rest → i.wf = true ∧ Record.frame bs = (encode i).followedBy rest) ∧
  ∀ (w : Word) bs i rest, w ≠ 0 → decode (.scanline (4 * w.toNat) bs) = .ok i rest →
    i.wf = true ∧ Record.scanline (4 * w.toNat) bs = (encode i).followedBy rest

/-- R98. The four tag bytes select the chunk kind, and nothing else does. That these bytes spell the three names is general
knowledge, as the spec says (G2): PRESUMED, log 17. -/
def Obligations.TagBytesSelectTheChunkKind : Prop :=
  ∀ (tag : Tag) (data : List Byte) (crc : Word),
    (tag.bytes = [0x49, 0x48, 0x44, 0x52] → frameKind tag data crc = .ihdr data crc) ∧
    (tag.bytes = [0x49, 0x44, 0x41, 0x54] → frameKind tag data crc = .idat data crc) ∧
    (tag.bytes = [0x49, 0x45, 0x4E, 0x44] → frameKind tag data crc = .iend data crc) ∧
    (tag.bytes ≠ [0x49, 0x48, 0x44, 0x52] → tag.bytes ≠ [0x49, 0x44, 0x41, 0x54] → tag.bytes ≠ [0x49, 0x45, 0x4E, 0x44] →
      frameKind tag data crc = .other tag data crc)

/-- R99. The filter-type byte selects the reconstruction; 5 .. 255 raise `UnknownFilterType`. -/
def Obligations.FilterByteSelectsTheReconstruction : Prop :=
  ∀ (ft : Byte) (xs : List Byte),
    (ft.toNat = 0 → filterKind ft xs = .none xs) ∧ (ft.toNat = 1 → filterKind ft xs = .sub xs) ∧
    (ft.toNat = 2 → filterKind ft xs = .up xs) ∧ (ft.toNat = 3 → filterKind ft xs = .average xs) ∧
    (ft.toNat = 4 → filterKind ft xs = .paeth xs) ∧
    (5 ≤ ft.toNat → filterKind ft xs = .illegalFilter ft xs ∧
      ∀ s, exec (filterKind ft xs) s = .next (raise (.unknownFilterType s.row ft) { s with filt := ft }))

/-! ### The step -/

/-- R222. When the bytes at the machine's position decode, or the CMD port presents a command in `Start`, the step is the
decoded instruction's meaning. What the CMD port presents at the boundary is taken off it first (`takePort`), by the command
itself where it is one. The last clause, a boundary between the command and the signature record, is the model's own (DESIGN
CHOICE, log 9). -/
def Obligations.StepRunsTheDecodedRecord : Prop :=
  (∀ (s : State) (i : Instr) (rest : List Byte), hostAct s = .nothing → s.phase.inChunkLoop = true →
    s.params.srcAnswers = .inf → decode (.frame (s.params.src.drop s.pos)) = .ok i rest → step s = exec i s.takePort) ∧
  (∀ (s : State) (i : Instr) (rest : List Byte), hostAct s = .nothing → s.phase = .defiltering →
    decode (.scanline s.stride (s.raw.drop (s.row * (s.stride + 1)))) = .ok i rest → step s = exec i s.takePort) ∧
  (∀ (s : State) (c : BitVec 2) (port : List PortAction) (i : Instr), s.cmdPort = .code c :: port → s.phase = .start →
    decode (.cmd c s.params.cfgWidth s.params.cfgHeight s.params.rawIn) = .ok i [] → step s = exec i s) ∧
  (∀ s : State, hostAct s = .nothing → s.phase = .start → s.cmd = 1 → step s = exec .sig s.takePort)

/-- R222, with R150, R182, R223 to R225 as the spec writes them (`phaseStep`). At a boundary without command or reset the step
is the one the step table gives. -/
def Obligations.StepFollowsTheStepTable : Prop :=
  ∀ s : State, s.Inv → hostAct s = .nothing → step s = (phaseStep s.takePort).outcome

/-- R222. Where the step table gives no step, the state stays; the port's transaction is gone. -/
def Obligations.NoStepIsEnabledWhenWaitingOrOver : Prop :=
  ∀ s : State, hostAct s = .nothing → (s.phase = .start ∧ s.cmd = 0) ∨ s.phase = .done ∨ s.phase = .failed →
    step s = .next s.takePort

/-- R222. The phase moves as the step table says, and in no other way but by reset. -/
def Obligations.PhaseMovesAsTheStepTable : Prop :=
  ∀ s t : State, NoReset s → step s = .next t →
    (s.phase = .start → t.phase = .start ∨ t.phase = .signatureChecked ∨ t.phase = .defiltering ∨ t.phase = .failed) ∧
    (s.phase.inChunkLoop = true → t.phase = s.phase ∨ (s.phase = .signatureChecked ∧ t.phase = .headerKnown) ∨
      t.phase = .payloadAccumulating ∨ t.phase = .endSeen ∨ t.phase = .failed) ∧
    (s.phase = .endSeen → t.phase = .decompressing ∨ t.phase = .failed) ∧
    (s.phase = .decompressing → t.phase = .defiltering ∨ t.phase = .failed) ∧
    (s.phase = .defiltering → t.phase = .defiltering ∨ t.phase = .done ∨ t.phase = .failed) ∧
    (s.phase = .done → t.phase = .done) ∧ (s.phase = .failed → t.phase = .failed)

/-- R237, R220. A command outside `Start` changes nothing and is not remembered; codes 0 and 3 are nothing in any phase. -/
def Obligations.CommandsOutsideStartAreIgnored : Prop :=
  (∀ (s : State) (c : BitVec 2) (port : List PortAction), s.cmdPort = .code c :: port →
    s.phase ≠ .start ∨ c = 0 ∨ c = 3 → step s = step { s with cmdPort := .idle :: port }) ∧
  (∀ s : State, s.phase ≠ .start → exec .cmdDecode s = .next s.takePort) ∧
  ∀ (s : State) (w h : Word) (raw : List Byte), s.phase ≠ .start → exec (.cmdDefilter w h raw) s = .next s.takePort

/-- R290, R40. Reset in any state puts every register for which R40 states a value at that value; the parameters of the run
stay, and so does what is still to come on the CMD port (the model's own, log 7 and log 23). -/
def Obligations.ResetLeavesTheResetValues : Prop :=
  ∀ (s : State) (port : List PortAction), s.cmdPort = .reset :: port →
    ∃ t, step s = .next t ∧ t.phase = .start ∧ t.cmd = 0 ∧ t.sigOk = false ∧ t.hdrValid = false ∧ t.done = false ∧
      t.failed = false ∧ t.pos = 0 ∧ t.chunkIndex = 0 ∧ t.errCode = 0 ∧ t.errInfo0 = 0 ∧ t.errInfo1 = 0 ∧ t.errInfo2 = 0 ∧
      t.pay = [] ∧ t.raw = [] ∧ t.row = 0 ∧ t.pixSize = 0 ∧ t.pix = [] ∧ t.cmdPort = port ∧ t.params = s.params

/-- R40. The state right after reset. -/
def Obligations.ResetStateHasTheResetValues : Prop :=
  State.reset.phase.code = 0 ∧ State.reset.cmd = 0 ∧ State.reset.sigOk = false ∧ State.reset.hdrValid = false ∧
    State.reset.done = false ∧ State.reset.failed = false ∧ State.reset.pos = 0 ∧ State.reset.chunkIndex = 0 ∧
    State.reset.errCode = 0 ∧ State.reset.errInfo0 = 0 ∧ State.reset.errInfo1 = 0 ∧ State.reset.errInfo2 = 0 ∧
    State.reset.pay = [] ∧ State.reset.payLen = 0 ∧ State.reset.raw = [] ∧ State.reset.rawLen = 0 ∧ State.reset.row = 0 ∧
    State.reset.pixSize = 0 ∧ State.reset.pix = []

/-! ### Faults -/

/-- R270. Fault entry writes the code, the three info registers, `failed` and `phase`, and nothing else. -/
def Obligations.FaultEntryWritesOnlyTheFaultRegisters : Prop :=
  ∀ (e : DecodeFault) (s : State),
    raise e s = { s with
      errCode := e.code, errInfo0 := e.info.1, errInfo1 := e.info.2.1, errInfo2 := e.info.2.2, failed := true,
      phase := .failed }

/-- R251. The code and the info registers of each fault. -/
def Obligations.FaultCodesAndInfoRegisters : Prop :=
  ∀ (s : State) (v : Byte) (w h : Word) (m n : Nat),
    let regs := fun e => ((raise e s).errCode.toNat, (raise e s).errInfo0, (raise e s).errInfo1, (raise e s).errInfo2)
    regs .signatureInvalid = (1, 0, 0, 0) ∧ regs .truncatedStream = (2, 0, 0, 0) ∧
    regs (.crcMismatch w h n) = (3, w.toNat, h.toNat, n) ∧ regs (.wrongChunkLength n) = (4, n, 0, 0) ∧
    regs (.unsupportedCompression v) = (5, v.toNat, 0, 0) ∧ regs (.unsupportedFilterMethod v) = (6, v.toNat, 0, 0) ∧
    regs (.unsupportedColorType v) = (7, v.toNat, 0, 0) ∧ regs (.unsupportedBitDepth v) = (8, v.toNat, 0, 0) ∧
    regs (.unsupportedInterlacing v) = (9, v.toNat, 0, 0) ∧ regs (.unsupportedDimensions w h) = (10, w.toNat, h.toNat, 0) ∧
    regs .missingHeader = (11, 0, 0, 0) ∧ regs .decompressError = (12, 0, 0, 0) ∧ regs (.sizeMismatch m n) = (13, m, n, 0) ∧
    regs .allocationFailure = (14, 0, 0, 0) ∧ regs (.truncatedImageData m n) = (15, m, n, 0) ∧
    regs (.unknownFilterType n v) = (16, n, v.toNat, 0)

/-- R268. The class `UnsupportedProfile` is codes 5 to 10: a field of the header is unsupported. -/
def Obligations.UnsupportedProfileIsCodesFiveToTen : Prop :=
  ∀ e : DecodeFault, isUnsupportedProfile e.code = true ↔
    (∃ v, e = .unsupportedCompression v ∨ e = .unsupportedFilterMethod v ∨ e = .unsupportedColorType v ∨
      e = .unsupportedBitDepth v ∨ e = .unsupportedInterlacing v) ∨ ∃ w h, e = .unsupportedDimensions w h

/-- R271. A fault in the chunk loop leaves the effect of every earlier record and none of the faulting one's but on `pos` and
the frame registers. -/
def Obligations.FrameFaultsArePrecise : Prop :=
  ∀ s t : State, hostAct s = .nothing → s.phase.inChunkLoop = true → step s = .next t → t.phase = .failed →
    t.chunkIndex = s.chunkIndex ∧ t.hdrValid = s.hdrValid ∧ SameHeader s t ∧ t.pay = s.pay ∧ t.raw = s.raw ∧
    t.row = s.row ∧ t.pixSize = s.pixSize ∧ t.pix = s.pix ∧ t.cmd = s.cmd ∧ t.sigOk = s.sigOk ∧ t.done = s.done ∧
    s.pos ≤ t.pos

/-! ### The records of SRC -/

/-- R122. The signature record, when the source answers: too few bytes raise `TruncatedStream` and consume nothing, eight other
bytes raise `SignatureInvalid`, the signature sets `sig_ok` and enters `SignatureChecked`. -/
def Obligations.SignatureRecordIsCheckedOnce : Prop :=
  ∀ s : State, s.params.srcAnswers = .inf →
    (s.params.src.length < s.pos + 8 → exec .sig s = .next (raise .truncatedStream s)) ∧
    (∀ bytes rest, s.params.src.drop s.pos = bytes ++ rest → bytes.length = 8 →
      bytes ≠ [0x89, 0x50, 0x4E, 0x47, 0x0D, 0x0A, 0x1A, 0x0A] →
      exec .sig s = .next (raise .signatureInvalid { s with pos := s.pos + 8 })) ∧
    ∀ rest, s.params.src.drop s.pos = [0x89, 0x50, 0x4E, 0x47, 0x0D, 0x0A, 0x1A, 0x0A] ++ rest →
      exec .sig s = .next { s with pos := s.pos + 8, sigOk := true, phase := .signatureChecked }

/-- R120, R123, R253. A frame the stream does not hold whole raises `TruncatedStream`, with `pos` at the field that could not
be read: the length, the body or the stored CRC. -/
def Obligations.ShortFramesRaiseTruncatedStream : Prop :=
  ∀ s : State, hostAct s = .nothing → s.phase.inChunkLoop = true → s.params.srcAnswers = .inf → s.pos ≤ s.srcLen →
    (s.srcLen < s.pos + 4 → step s = .next (raise .truncatedStream s.takePort)) ∧
    ∀ n : Nat, s.pos + 4 ≤ s.srcLen → (be32 ((s.params.src.drop s.pos).take 4)).toNat = n → n < 2147483648 →
      Cap.exceededBy s.params.chunkCap n = false →
      (s.srcLen < s.pos + 8 + n → step s = .next (raise .truncatedStream
        { s.takePort with pos := s.pos + 4, len := BitVec.ofNat 32 n })) ∧
      (s.pos + 8 + n ≤ s.srcLen → s.srcLen < s.pos + 12 + n → step s = .next (raise .truncatedStream
        { s.takePort with
          pos := s.pos + 8 + n, len := BitVec.ofNat 32 n, body := (s.params.src.drop (s.pos + 4)).take (4 + n) }))

/-- R102. A length field of 2^31 or more raises `WrongChunkLength` before any byte of the body is read. -/
def Obligations.OverlongLengthRaisesWrongChunkLength : Prop :=
  ∀ (s : State) (n : Nat), hostAct s = .nothing → s.phase.inChunkLoop = true → s.params.srcAnswers = .inf →
    s.pos + 4 ≤ s.srcLen → (be32 ((s.params.src.drop s.pos).take 4)).toNat = n → 2147483648 ≤ n →
    step s = .next (raise (.wrongChunkLength n) { s.takePort with pos := s.pos + 4, len := BitVec.ofNat 32 n })

/-- R123, R265. A body above `CHUNK_CAP` raises `AllocationFailure` after the length field, whatever the tag. -/
def Obligations.ChunkCapRaisesAllocationFailure : Prop :=
  ∀ (s : State) (i : Instr) (tag : Tag) (data : List Byte) (crc : Word), IsFrame i tag data crc →
    data.length < 2147483648 → Cap.exceededBy s.params.chunkCap data.length = true →
    exec i s = .next (raise .allocationFailure { s with pos := s.pos + 4, len := BitVec.ofNat 32 data.length })

/-- R124, R125. The CRC is compared before the kind of the frame matters. A stored CRC that is not the computed one raises
`CrcMismatch` for every kind of frame, with the stored value as `expected` and the frame's own index; an equal one lets the
dispatch run, and `chunk_index` goes up if that raised nothing. -/
def Obligations.CrcIsCheckedBeforeTheDispatch : Prop :=
  ∀ (s : State) (tag : Tag) (data : List Byte) (crc computed : Word), data.length < 2147483648 →
    Cap.exceededBy s.params.chunkCap data.length = false → crc32 s.params.crcUnit (tag.bytes ++ data) = some computed →
    (computed ≠ crc → ∀ i, IsFrame i tag data crc →
      exec i s = .next (raise (.crcMismatch crc computed s.chunkIndex) (afterFrameCheck tag data crc computed s))) ∧
    (computed = crc →
      exec (frameKind tag data crc) s =
        match dispatch tag.bytes data (afterFrameCheck tag data crc crc s) with
        | .ok t => .next { t with chunkIndex := t.chunkIndex + 1 }
        | .raised t => .next t
        | .stuck f => .fault f)

/-- R153. The seven checks of the first `IHDR`, in their order: the first that fails is the fault. -/
def Obligations.HeaderChecksAreMadeInOrder : Prop :=
  ∀ (s : State) (data : List Byte) (crc : Word), FrameAccepted tagIHDR data crc s → s.hdrValid = false →
    let raised := fun e => exec (.ihdr data crc) s = .next (raise e (afterFrameCheck tagIHDR data crc crc s))
    (data.length ≠ 13 → raised (.wrongChunkLength data.length)) ∧
    ∀ w0 w1 w2 w3 h0 h1 h2 h3 bd ct cm fm im : Byte, data = [w0, w1, w2, w3, h0, h1, h2, h3, bd, ct, cm, fm, im] →
      (cm ≠ 0 → raised (.unsupportedCompression cm)) ∧
      (cm = 0 → fm ≠ 0 → raised (.unsupportedFilterMethod fm)) ∧
      (cm = 0 → fm = 0 → ct ≠ 6 → raised (.unsupportedColorType ct)) ∧
      (cm = 0 → fm = 0 → ct = 6 → bd ≠ 8 → raised (.unsupportedBitDepth bd)) ∧
      (cm = 0 → fm = 0 → ct = 6 → bd = 8 → im ≠ 0 → raised (.unsupportedInterlacing im)) ∧
      (cm = 0 → fm = 0 → ct = 6 → bd = 8 → im = 0 → be32 [w0, w1, w2, w3] = 0 ∨ be32 [h0, h1, h2, h3] = 0 →
        raised (.unsupportedDimensions (be32 [w0, w1, w2, w3]) (be32 [h0, h1, h2, h3])))

/-- R154. The first supported `IHDR` writes the seven registers and the derived sizes, sets `hdr_valid`, enters
`HeaderKnown` from `SignatureChecked` only, and is counted. -/
def Obligations.FirstIhdrCommitsTheHeader : Prop :=
  ∀ (s : State) (w0 w1 w2 w3 h0 h1 h2 h3 : Byte) (crc : Word),
    FrameAccepted tagIHDR [w0, w1, w2, w3, h0, h1, h2, h3, 8, 6, 0, 0, 0] crc s → s.hdrValid = false →
    be32 [w0, w1, w2, w3] ≠ 0 → be32 [h0, h1, h2, h3] ≠ 0 →
    exec (.ihdr [w0, w1, w2, w3, h0, h1, h2, h3, 8, 6, 0, 0, 0] crc) s = .next
      { afterFrameCheck tagIHDR [w0, w1, w2, w3, h0, h1, h2, h3, 8, 6, 0, 0, 0] crc crc s with
        width := be32 [w0, w1, w2, w3], height := be32 [h0, h1, h2, h3], bitDepth := 8, colorType := 6,
        compressionMethod := 0, filterMethod := 0, interlaceMethod := 0, stride := 4 * (be32 [w0, w1, w2, w3]).toNat,
        expRaw := (be32 [h0, h1, h2, h3]).toNat * (4 * (be32 [w0, w1, w2, w3]).toNat + 1), hdrValid := true,
        phase := if s.phase = .signatureChecked then .headerKnown else s.phase, chunkIndex := s.chunkIndex + 1 }

/-- R155. A later `IHDR`, whatever its data, changes nothing but `pos`, `chunk_index` and the frame registers. -/
def Obligations.LaterIhdrIsOnlyCounted : Prop :=
  ∀ (s : State) (data : List Byte) (crc : Word), FrameAccepted tagIHDR data crc s → s.hdrValid = true →
    exec (.ihdr data crc) s = .next { afterFrameCheck tagIHDR data crc crc s with chunkIndex := s.chunkIndex + 1 }

/-- R156. An `IDAT` appends its data to the end of PAY and enters `PayloadAccumulating`; above `PAYLOAD_CAP` it raises
`AllocationFailure` and appends nothing. -/
def Obligations.IdatAppendsItsData : Prop :=
  ∀ (s : State) (data : List Byte) (crc : Word), FrameAccepted tagIDAT data crc s →
    (Cap.exceededBy s.params.payloadCap (s.pay.length + data.length) = false →
      exec (.idat data crc) s = .next
        { afterFrameCheck tagIDAT data crc crc s with
          pay := s.pay ++ data, phase := .payloadAccumulating, chunkIndex := s.chunkIndex + 1 }) ∧
    (Cap.exceededBy s.params.payloadCap (s.pay.length + data.length) = true →
      exec (.idat data crc) s = .next (raise .allocationFailure (afterFrameCheck tagIDAT data crc crc s)))

/-- R157. An `IEND` enters `EndSeen`, its data ignored. -/
def Obligations.IendEntersEndSeen : Prop :=
  ∀ (s : State) (data : List Byte) (crc : Word), FrameAccepted tagIEND data crc s →
    exec (.iend data crc) s = .next
      { afterFrameCheck tagIEND data crc crc s with phase := .endSeen, chunkIndex := s.chunkIndex + 1 }

/-- R158. A frame with any other tag changes nothing but `pos`, `chunk_index` and the frame registers. -/
def Obligations.OtherChunksAreOnlyCounted : Prop :=
  ∀ (s : State) (tag : Tag) (data : List Byte) (crc : Word), FrameAccepted tag data crc s →
    exec (.other tag data crc) s = .next { afterFrameCheck tag data crc crc s with chunkIndex := s.chunkIndex + 1 }

/-- R128, R38. Feeding a body to the accumulator piece by piece gives what feeding it whole gives, and the default `crc32` is
what the accumulator stands for then; `frame_check` of an accepted frame leaves that accumulator. -/
def Obligations.StreamingCrcAgreesWithTheWholeBody : Prop :=
  (∀ pieces : List (List Byte), pieces.foldl crcFeed crcStart = crcFeed crcStart pieces.flatten) ∧
  (∀ body : List Byte, crc32 .standard body = some (crcFinish (crcFeed crcStart body))) ∧
  ∀ (s t : State) (data : List Byte) (crc : Word), s.params.crcUnit = .standard → FrameAccepted tagIEND data crc s →
    exec (.iend data crc) s = .next t → crcFinish t.crcAcc = t.crcC ∧ t.crcC = t.crcS

/-! ### Commands and sequencer actions -/

/-- R221. `CMD_DECODE` in `Start` records the command and executes the signature record in the same step. -/
def Obligations.CmdDecodeStartsTheSession : Prop :=
  (∀ s : State, s.phase = .start → exec .cmdDecode s = exec .sig { s.takePort with cmd := 1 }) ∧
  ∀ (s : State) (rest : List Byte), s.phase = .start → s.params.srcAnswers = .inf →
    s.params.src.drop s.pos = [0x89, 0x50, 0x4E, 0x47, 0x0D, 0x0A, 0x1A, 0x0A] ++ rest →
    exec .cmdDecode s = .next
      { s.takePort with cmd := 1, pos := s.pos + 8, sigOk := true, phase := .signatureChecked }

/-- R228. `CMD_DEFILTER` in `Start`: a zero dimension raises `UnsupportedDimensions`; otherwise the header is committed with
the supported profile; a cap exceeded raises `AllocationFailure`, a short `raw_in` raises `TruncatedImageData`, and otherwise
RAW is `raw_in`, PIX is allocated unwritten and the engine is entered. Nothing else changes. -/
def Obligations.CmdDefilterStartsTheEngine : Prop :=
  ∀ (s : State) (w h : Word) (raw : List Byte), s.phase = .start →
    let committed : State :=
      { s.takePort with
        cmd := 2, width := w, height := h, bitDepth := 8, colorType := 6, compressionMethod := 0, filterMethod := 0,
        interlaceMethod := 0, stride := 4 * w.toNat, expRaw := h.toNat * (4 * w.toNat + 1), hdrValid := true }
    let tooLarge := Cap.exceededBy s.params.rawCap (h.toNat * (4 * w.toNat + 1)) = true ∨
      Cap.exceededBy s.params.pixelCap (h.toNat * (4 * w.toNat)) = true
    (w = 0 ∨ h = 0 →
      exec (.cmdDefilter w h raw) s = .next (raise (.unsupportedDimensions w h) { s.takePort with cmd := 2 })) ∧
    (w ≠ 0 → h ≠ 0 → tooLarge → exec (.cmdDefilter w h raw) s = .next (raise .allocationFailure committed)) ∧
    (w ≠ 0 → h ≠ 0 → ¬ tooLarge → raw.length < h.toNat * (4 * w.toNat + 1) →
      exec (.cmdDefilter w h raw) s = .next
        (raise (.truncatedImageData (h.toNat * (4 * w.toNat + 1)) raw.length) { committed with raw := raw })) ∧
    (w ≠ 0 → h ≠ 0 → ¬ tooLarge → h.toNat * (4 * w.toNat + 1) ≤ raw.length →
      exec (.cmdDefilter w h raw) s = .next
        { committed with raw := raw, pixSize := h.toNat * (4 * w.toNat), pix := [], row := 0, phase := .defiltering })

/-- R224. The step in `EndSeen`: `MissingHeader` first, then the capacities, then `Decompressing`. -/
def Obligations.EndSeenChecksHeaderAndCapacities : Prop :=
  ∀ s : State, hostAct s = .nothing → s.phase = .endSeen →
    let tooLarge := Cap.exceededBy s.params.rawCap s.expRaw = true ∨
      Cap.exceededBy s.params.pixelCap (s.height.toNat * s.stride) = true
    (s.hdrValid = false → step s = .next (raise .missingHeader s.takePort)) ∧
    (s.hdrValid = true → tooLarge → step s = .next (raise .allocationFailure s.takePort)) ∧
    (s.hdrValid = true → ¬ tooLarge → step s = .next { s.takePort with phase := .decompressing })

/-- R225, R181. The step in `Decompressing`: the collaborator's failure is `DecompressError`, a wrong size `SizeMismatch`;
otherwise RAW is its answer, PAY is emptied and the engine is entered. -/
def Obligations.DecompressingCallsInflateOnce : Prop :=
  ∀ s : State, hostAct s = .nothing → s.phase = .decompressing →
    (inflate s.params.inflateUnit s.pay = some .err → step s = .next (raise .decompressError s.takePort)) ∧
    ∀ bytes, inflate s.params.inflateUnit s.pay = some (.ok bytes) →
      (bytes.length ≠ s.expRaw → step s = .next (raise (.sizeMismatch s.expRaw bytes.length) s.takePort)) ∧
      (bytes.length = s.expRaw → step s = .next
        { s.takePort with
          raw := bytes, pay := [], pixSize := s.height.toNat * s.stride, pix := [], row := 0, phase := .defiltering })

/-- R299, U11. A collaborator that never answers leaves the block inside the step, for ever and with no fault code. The model stops
there under a name of its own (DESIGN CHOICE, log 8). -/
def Obligations.SilentCollaboratorsHangTheStep : Prop :=
  (∀ (s : State) (i : Instr) (tag : Tag) (data : List Byte) (crc : Word), IsFrame i tag data crc →
    data.length < 2147483648 → Cap.exceededBy s.params.chunkCap data.length = false → s.params.crcUnit = .silent →
    exec i s = .fault .crcNoAnswer) ∧
  (∀ s : State, hostAct s = .nothing → s.phase = .decompressing → s.params.inflateUnit = .silent →
    step s = .fault .infNoAnswer) ∧
  ∀ s : State, hostAct s = .nothing → s.phase.inChunkLoop = true →
    Cap.exceededBy s.params.srcAnswers (s.pos + 4) = true → step s = .fault .srcNoAnswer

/-! ### The defilter engine -/

/-- R185. The prediction of each filter type is computed exactly and lies in 0 .. 255 (the 9-bit sum of `AVERAGE` and the signed
distances of `PAETH` are not reduced), and only the reconstruction sum, at most 510, is reduced modulo 256. -/
def Obligations.OnlyTheReconstructionSumIsReduced : Prop :=
  ∀ (x a b ul ft : Byte), ft.toNat ≤ 4 →
    let p : Int := (a.toNat : Int) + b.toNat - ul.toNat
    pred 0 a b ul = 0 ∧ pred 1 a b ul = a.toNat ∧ pred 2 a b ul = b.toNat ∧ pred 3 a b ul = (a.toNat + b.toNat) / 2 ∧
    a.toNat + b.toNat ≤ 510 ∧ pred 4 a b ul = (paeth a b ul).toNat ∧ (-255 : Int) ≤ p ∧ p ≤ 510 ∧
    paeth a b ul =
      (if |p - a.toNat| ≤ |p - b.toNat| ∧ |p - a.toNat| ≤ |p - ul.toNat| then a
       else if |p - b.toNat| ≤ |p - ul.toNat| then b else ul) ∧
    |p - a.toNat| ≤ 510 ∧ |p - b.toNat| ≤ 510 ∧ |p - ul.toNat| ≤ 510 ∧
    pred ft a b ul ≤ 255 ∧ x.toNat + pred ft a b ul ≤ 510 ∧
    (recon x (pred ft a b ul)).toNat = (x.toNat + pred ft a b ul) % 256

/-- R191. `paeth` in exact signed integers, with its ties, and the distances in their other form. -/
def Obligations.PaethPicksTheNearestNeighbour : Prop :=
  ∀ a b ul : Byte,
    let p : Int := (a.toNat : Int) + b.toNat - ul.toNat
    let da := |p - a.toNat|
    let db := |p - b.toNat|
    let dc := |p - ul.toNat|
    (-255 : Int) ≤ p ∧ p ≤ 510 ∧ da = |(b.toNat : Int) - ul.toNat| ∧ db = |(a.toNat : Int) - ul.toNat| ∧
    dc = |(a.toNat : Int) + b.toNat - 2 * ul.toNat| ∧ da ≤ 255 ∧ db ≤ 255 ∧ dc ≤ 510 ∧
    (da ≤ db ∧ da ≤ dc → paeth a b ul = a) ∧ (¬ (da ≤ db ∧ da ≤ dc) → db ≤ dc → paeth a b ul = b) ∧
    (¬ (da ≤ db ∧ da ≤ dc) → ¬ db ≤ dc → paeth a b ul = ul)

/-- R186. `NONE`: `recon = x`. -/
def Obligations.NoneCopiesTheRow : Prop := ReconstructsRow Instr.none fun _ _ _ => 0

/-- R187. `SUB`: `recon = (x + a) mod 256`. -/
def Obligations.SubAddsTheLeftNeighbour : Prop := ReconstructsRow Instr.sub fun a _ _ => a

/-- R188. `UP`: `recon = (x + b) mod 256`. -/
def Obligations.UpAddsTheNeighbourAbove : Prop := ReconstructsRow Instr.up fun _ b _ => b

/-- R189. `AVERAGE`: `recon = (x + floor((a + b) / 2)) mod 256`, the 9-bit sum not reduced. -/
def Obligations.AverageAddsTheHalvedSum : Prop := ReconstructsRow Instr.average fun a b _ => (a + b) / 2

/-- R190, R191. `PAETH`: `recon = (x + paeth(a, b, ul)) mod 256`. -/
def Obligations.PaethAddsTheNearestNeighbour : Prop :=
  ReconstructsRow Instr.paeth fun a b ul =>
    let p : Int := (a : Int) + b - ul
    if |p - a| ≤ |p - b| ∧ |p - a| ≤ |p - ul| then a else if |p - b| ≤ |p - ul| then b else ul

/-- R182, R192. What a scanline of a recognised filter type leaves unchanged: every register but `row`, `FILT`, the registers
that live inside the step, the hidden buffers, and `phase` and `done` after the last row; every cell of PIX outside the row, and
every cell that was written. -/
def Obligations.ScanlinesWriteTheirRowOnly : Prop :=
  ∀ (s t : State) (i : Instr) (ft : Byte) (xs : List Byte), IsScanline i ft xs → exec i s = .next t →
    t = { s with
          row := s.row + 1, phase := t.phase, done := t.done, filt := ft, col := t.col, x := t.x, a := t.a, b := t.b,
          ul := t.ul, line := t.line, left := t.left, upleft := t.upleft, pix := t.pix } ∧
    (t.row ≠ s.height.toNat → t.phase = s.phase ∧ t.done = s.done) ∧
    (t.row = s.height.toNat → t.phase = .done ∧ t.done = true) ∧
    SamePixOutside s t (s.row * s.stride) s.stride ∧
    ∀ a v, Memory.read s.pix a = some v → Memory.read t.pix a = some v

/-- R195. The last scanline enters `Done` in the same step, with every cell of PIX written. -/
def Obligations.LastScanlineEntersDone : Prop :=
  ∀ (s : State) (i : Instr) (ft : Byte) (xs : List Byte), IsScanline i ft xs → s.RowReady → xs.length = s.stride →
    s.row + 1 = s.height.toNat →
    ∃ t, exec i s = .next t ∧ t.row = s.height.toNat ∧ t.phase = .done ∧ t.done = true ∧
      ∀ a, a < s.height.toNat * s.stride → ∃ v, Memory.read t.pix a = some v

/-- R101, R183, R267. An illegal filter type raises `UnknownFilterType(row, ft)` with no byte of the scanline reconstructed,
whether the record is executed or met by a step. -/
def Obligations.IllegalFilterTypesRaise : Prop :=
  (∀ (s : State) (ft : Byte) (xs : List Byte),
    exec (.illegalFilter ft xs) s = .next (raise (.unknownFilterType s.row ft) { s with filt := ft })) ∧
  ∀ (s : State) (ft : Byte) (rest : List Byte), hostAct s = .nothing → s.phase = .defiltering →
    s.raw.drop (s.row * (s.stride + 1)) = ft :: rest → s.stride ≤ rest.length → 5 ≤ ft.toNat →
    step s = .next (raise (.unknownFilterType s.row ft) { s.takePort with filt := ft })

/-- R190, R194. In the first scanline `PAETH` acts as `SUB` and `UP` as `NONE`; in the first pixel of a scanline all left
neighbours are 0. -/
def Obligations.EdgesReplaceNeighboursByZero : Prop :=
  ∀ (s : State) (xs : List Byte), s.RowReady → xs.length = s.stride →
    (s.row = 0 → ∃ t u, exec (.paeth xs) s = .next t ∧ exec (.sub xs) s = .next u ∧ t.pix = u.pix) ∧
    (s.row = 0 → ∃ t u, exec (.up xs) s = .next t ∧ exec (.none xs) s = .next u ∧ t.pix = u.pix) ∧
    ∃ t u, exec (.sub xs) s = .next t ∧ exec (.paeth xs) s = .next u ∧
      ∀ col (h : col < xs.length), col < 4 → Memory.read t.pix (s.row * s.stride + col) = some xs[col] ∧
        Memory.read u.pix (s.row * s.stride + col) =
          some (xs[col] + if 0 < s.row then (Memory.read s.pix ((s.row - 1) * s.stride + col)).getD 0 else 0)

/-- R193. The engine with neighbour buffers leaves, for every filter type, exactly the state the engine that reads PIX leaves. -/
def Obligations.BufferedEngineAgrees : Prop :=
  ∀ (s : State) (xs : List Byte), s.RowReady → s.LineReady → xs.length = s.stride →
    (bufferedScanlineStep 0 predNone xs s).outcome = exec (.none xs) s ∧
    (bufferedScanlineStep 1 predSub xs s).outcome = exec (.sub xs) s ∧
    (bufferedScanlineStep 2 predUp xs s).outcome = exec (.up xs) s ∧
    (bufferedScanlineStep 3 predAverage xs s).outcome = exec (.average xs) s ∧
    (bufferedScanlineStep 4 predPaeth xs s).outcome = exec (.paeth xs) s

/-- R196. The bytes of one channel do not depend on the other channels: two scanlines of one filter type that agree on a channel,
below rows that agree on it, are reconstructed alike on it. -/
def Obligations.ChannelsAreIndependent : Prop :=
  ∀ (s s' t t' : State) (i i' : Instr) (ft : Byte) (xs xs' : List Byte) (k : Nat), IsScanline i ft xs → IsScanline i' ft xs' →
    s.RowReady → s'.RowReady → xs.length = s.stride → s'.stride = s.stride → s'.row = s.row → xs'.length = xs.length →
    (∀ c, c < s.stride → c % 4 = k → xs[c]? = xs'[c]?) →
    (∀ c, c < s.stride → c % 4 = k → 0 < s.row →
      Memory.read s.pix ((s.row - 1) * s.stride + c) = Memory.read s'.pix ((s.row - 1) * s.stride + c)) →
    exec i s = .next t → exec i' s' = .next t' →
    ∀ c, c < s.stride → c % 4 = k →
      Memory.read t.pix (s.row * s.stride + c) = Memory.read t'.pix (s.row * s.stride + c)

/-- R197. A session that defilters the forward filter of an image, under any filter types, ends in `Done` with the image on
OUT. -/
def Obligations.DefilterUndoesTheForwardFilter : Prop :=
  ∀ (p : Params) (rows : List (List Byte)) (fts : List Byte), p.rawCap = .inf → p.pixelCap = .inf →
    p.cfgWidth ≠ 0 → p.cfgHeight ≠ 0 → rows.length = p.cfgHeight.toNat → fts.length = rows.length →
    (∀ r ∈ rows, r.length = 4 * p.cfgWidth.toNat) → (∀ ft ∈ fts, ft.toNat ≤ 4) → p.rawIn = forwardRaw rows fts →
    ∃ t : State, Host.Core.run Sys2Proof.core (1 + rows.length) (State.afterReset p [.code 2]) = .next t ∧
      t.phase = .done ∧
      t.out = some { width := p.cfgWidth, height := p.cfgHeight, stride := 4 * p.cfgWidth.toNat, bytes := rows.flatten }

/-! ### The whole machine -/

/-- The invariant holds after reset, under any parameters and whatever the CMD port will present (R40). -/
def Obligations.ResetMeetsTheInvariant : Prop :=
  State.reset.Inv ∧ ∀ (p : Params) (port : List PortAction), (State.afterReset p port).Inv

/-- R25, R26, R28, R29, R34, R37. Every step keeps the invariant. -/
def Obligations.EveryStepKeepsTheInvariant : Prop :=
  ∀ s t : State, s.Inv → step s = .next t → t.Inv

/-- Section 93: "No behaviour of this block is "undefined"". With collaborators that answer, a step from a state that meets the
invariant has a next state: no access goes astray and nothing is refused. -/
def Obligations.EveryStepCompletes : Prop :=
  ∀ s : State, s.Inv → s.params.Answering → ∃ t, step s = .next t

/-- R25. Once set, none of the four flags is cleared except by reset. -/
def Obligations.FlagsAreClearedByResetOnly : Prop :=
  ∀ s t : State, NoReset s → step s = .next t →
    (s.sigOk = true → t.sigOk = true) ∧ (s.hdrValid = true → t.hdrValid = true) ∧ (s.done = true → t.done = true) ∧
    (s.failed = true → t.failed = true)

/-- R22, R23, R157. Without reset `pos` never goes back and moves only in the signature and the chunk loop, and `chunk_index`
goes up by one with each accepted frame and never else. -/
def Obligations.PositionAndChunkIndexOnlyIncrease : Prop :=
  ∀ s t : State, NoReset s → step s = .next t →
    s.pos ≤ t.pos ∧ (s.phase ≠ .start → s.phase.inChunkLoop = false → t.pos = s.pos) ∧
    (t.chunkIndex = s.chunkIndex ∨
      (t.chunkIndex = s.chunkIndex + 1 ∧ s.phase.inChunkLoop = true ∧ t.phase ≠ .failed ∧ s.pos + 12 ≤ t.pos)) ∧
    (s.phase.inChunkLoop = true → t.phase ≠ .failed → t.chunkIndex = s.chunkIndex + 1)

/-- R28. Once accepted, the header never changes but by reset. -/
def Obligations.AcceptedHeaderIsImmutable : Prop :=
  ∀ s t : State, s.Inv → NoReset s → step s = .next t → s.hdrValid = true → t.hdrValid = true ∧ SameHeader s t

/-- R32, R62. PAY only grows at its end, until the decompression step empties it. -/
def Obligations.PayloadIsAppendOnly : Prop :=
  ∀ s t : State, NoReset s → step s = .next t →
    (∃ d, t.pay = s.pay ++ d) ∨ (s.phase = .decompressing ∧ t.phase = .defiltering ∧ t.pay = [])

/-- R33, R37, R64. In `Defiltering` RAW is only read, the size of PIX stays, and a written cell keeps its byte. -/
def Obligations.PixelCellsAreWrittenOnce : Prop :=
  ∀ s t : State, NoReset s → s.phase = .defiltering → step s = .next t →
    t.raw = s.raw ∧ t.pixSize = s.pixSize ∧ ∀ a v, Memory.read s.pix a = some v → Memory.read t.pix a = some v

/-- R39. No step changes the parameters of the run. -/
def Obligations.RunParametersNeverChange : Prop :=
  ∀ s t : State, step s = .next t → t.params = s.params

/-- R233, R236. OUT presents nothing while `done = 0`, in `Failed` and in every phase before `Done`; in `Done` it presents
`height * stride` bytes, byte `i` being `PIX[i]`. -/
def Obligations.OutIsTheFinishedImageOrNothing : Prop :=
  (∀ s : State, s.done = false → s.out = none) ∧ (∀ s : State, s.Inv → s.phase ≠ .done → s.out = none) ∧
  ∀ s : State, s.Inv → s.phase = .done →
    ∃ bytes, s.out = some { width := s.width, height := s.height, stride := 4 * s.width.toNat, bytes := bytes } ∧
      bytes.length = s.height.toNat * (4 * s.width.toNat) ∧
      ∀ i (h : i < bytes.length), Memory.read s.pix i = some bytes[i]

/-- R41, R234. STATUS presents the registers of R41, the header registers and `stride` only once `hdr_valid = 1`. -/
def Obligations.StatusHidesTheHeaderUntilValid : Prop :=
  ∀ s : State, s.status.phase = s.phase.code ∧ s.status.sigOk = s.sigOk ∧ s.status.hdrValid = s.hdrValid ∧
    s.status.done = s.done ∧ s.status.failed = s.failed ∧ s.status.cmd = s.cmd ∧ s.status.errCode = s.errCode ∧
    s.status.errInfo0 = s.errInfo0 ∧ s.status.errInfo1 = s.errInfo1 ∧ s.status.errInfo2 = s.errInfo2 ∧
    s.status.chunkIndex = s.chunkIndex ∧ s.status.pos = s.pos ∧ s.status.row = s.row ∧
    (s.hdrValid = false → s.status.header = none) ∧
    (s.hdrValid = true → s.status.header =
      some { width := s.width, height := s.height, bitDepth := s.bitDepth, colorType := s.colorType,
             compressionMethod := s.compressionMethod, filterMethod := s.filterMethod,
             interlaceMethod := s.interlaceMethod, stride := s.stride })

/-- R238. With collaborators that answer and nothing more on the CMD port, every session that has begun is over after finitely
many steps: at most a twelfth of the stream's length, one for each row, and three. -/
def Obligations.EverySessionEnds : Prop :=
  ∀ s : State, s.Inv → s.params.Answering → s.cmdPort = [] → s.phase ≠ .start →
    ∃ (k : Nat) (t : State), k ≤ s.srcLen / 12 + 4294967296 + 3 ∧ Host.Core.run Sys2Proof.core k s = .next t ∧
      t.phase.isOver = true
end

