-- ==== Sys2Proof/Laws/Decode.lean ====
section
/-! SUPPORT. The big-endian fields both ways, and what each format's decoder answers on the bytes the encoder writes. -/

namespace Sys2Proof

@[simp] theorem length_signature : signature.length = 8 := rfl

@[simp] theorem length_be32Bytes (v : Word) : (be32Bytes v).length = 4 := rfl

@[simp] theorem length_tagBytes (t : Tag) : t.bytes.length = 4 := rfl

/-- Four bytes as a number, most significant first (R121). -/
theorem beNat_four (s0 s1 s2 s3 : Byte) :
    beNat [s0, s1, s2, s3] = s0.toNat * 16777216 + s1.toNat * 65536 + s2.toNat * 256 + s3.toNat := by
  simp only [beNat, List.foldl]
  omega

theorem beNat_four_lt (s0 s1 s2 s3 : Byte) : beNat [s0, s1, s2, s3] < 4294967296 := by
  rw [beNat_four]
  have := s0.isLt; have := s1.isLt; have := s2.isLt; have := s3.isLt
  omega

theorem toNat_be32_four (s0 s1 s2 s3 : Byte) : (be32 [s0, s1, s2, s3]).toNat = beNat [s0, s1, s2, s3] := by
  rw [be32, BitVec.toNat_ofNat, Nat.mod_eq_of_lt (beNat_four_lt s0 s1 s2 s3)]

/-- The four bytes of a value, each as its quotient and remainder. -/
theorem be32Bytes_eq (v : Word) :
    be32Bytes v = [BitVec.ofNat 8 (v.toNat / 16777216), BitVec.ofNat 8 (v.toNat / 65536), BitVec.ofNat 8 (v.toNat / 256),
      BitVec.ofNat 8 v.toNat] := by
  simp only [be32Bytes, List.cons.injEq, and_true]
  refine ⟨?_, ?_, ?_, ?_⟩ <;>
    (apply BitVec.eq_of_toNat_eq
     simp [BitVec.extractLsb', Nat.shiftRight_eq_div_pow])

/-- `be32` undoes `be32^-1` (R106, R121). -/
@[simp] theorem be32_be32Bytes (v : Word) : be32 (be32Bytes v) = v := by
  rw [be32Bytes_eq]
  apply BitVec.eq_of_toNat_eq
  rw [toNat_be32_four, beNat_four]
  have := v.isLt
  simp only [BitVec.toNat_ofNat]
  omega

/-- `be32^-1` undoes `be32` on four bytes. -/
@[simp] theorem be32Bytes_be32 (s0 s1 s2 s3 : Byte) : be32Bytes (be32 [s0, s1, s2, s3]) = [s0, s1, s2, s3] := by
  rw [be32Bytes_eq, toNat_be32_four, beNat_four]
  have h0 := s0.isLt; have h1 := s1.isLt; have h2 := s2.isLt; have h3 := s3.isLt
  simp only [List.cons.injEq, and_true]
  refine ⟨?_, ?_, ?_, ?_⟩ <;> (apply BitVec.eq_of_toNat_eq; simp only [BitVec.toNat_ofNat]; omega)

/-- The length field of a legal length says that length. -/
theorem toNat_lengthField {n : Nat} (h : n < lengthLimit) : (BitVec.ofNat 32 n).toNat = n := by
  rw [BitVec.toNat_ofNat]
  exact Nat.mod_eq_of_lt (by unfold lengthLimit at h; omega)

/-- What the frame decoder reads from a frame and whatever stands after it. -/
theorem decodeFrame_frameBytes (tag : Tag) (data : List Byte) (crc : Word) (more : List Byte)
    (h : data.length < lengthLimit) :
    decodeFrame (frameBytes tag data crc ++ more) = .ok (frameKind tag data crc) more := by
  obtain ⟨l0, l1, l2, l3, hl⟩ : ∃ l0 l1 l2 l3, be32Bytes (BitVec.ofNat 32 data.length) = [l0, l1, l2, l3] := ⟨_, _, _, _, rfl⟩
  obtain ⟨c0, c1, c2, c3, hc⟩ : ∃ c0 c1 c2 c3, be32Bytes crc = [c0, c1, c2, c3] := ⟨_, _, _, _, rfl⟩
  have hn : (be32 [l0, l1, l2, l3]).toNat = data.length := by rw [← hl, be32_be32Bytes, toNat_lengthField h]
  have hcrc : be32 [c0, c1, c2, c3] = crc := by rw [← hc, be32_be32Bytes]
  obtain ⟨t0, t1, t2, t3⟩ := tag
  simp only [frameBytes, Tag.bytes, hl, hc, List.cons_append, List.nil_append, List.append_assoc, decodeFrame, hn]
  rw [if_neg (by omega), if_neg (by simp)]
  simp [hcrc]

/-- A decoded frame is a frame: its fields and the rest, put together, are the bytes that were read. -/
theorem decodeFrame_ok {bs rest : List Byte} {i : Instr} (h : decodeFrame bs = .ok i rest) :
    ∃ tag data crc, i = frameKind tag data crc ∧ data.length < lengthLimit ∧ bs = frameBytes tag data crc ++ rest := by
  unfold decodeFrame at h
  split at h
  · next l0 l1 l2 l3 afterLength =>
    simp only at h
    split at h
    · cases h
    · next hn =>
      split at h
      · next t0 t1 t2 t3 afterTag =>
        split at h
        · cases h
        · next hlen =>
          split at h
          · next c0 c1 c2 c3 rest' hdrop =>
            cases h
            set n := (be32 [l0, l1, l2, l3]).toNat with hndef
            have htake : (afterTag.take n).length = n := by rw [List.length_take]; omega
            refine ⟨⟨t0, t1, t2, t3⟩, afterTag.take n, be32 [c0, c1, c2, c3], rfl, by omega, ?_⟩
            have hback : be32Bytes (BitVec.ofNat 32 n) = [l0, l1, l2, l3] := by
              rw [hndef, BitVec.ofNat_toNat, BitVec.setWidth_eq, be32Bytes_be32]
            have hcut : afterTag = afterTag.take n ++ (c0 :: c1 :: c2 :: c3 :: rest) := by
              conv_lhs => rw [← List.take_append_drop n afterTag, hdrop]
            simp only [frameBytes, htake, hback, Tag.bytes, be32Bytes_be32, List.cons_append, List.nil_append,
              List.append_assoc]
            rw [← hcut]
          · cases h
      · cases h
  · cases h

/-- What the scanline decoder reads from a scanline and whatever stands after it. -/
theorem decodeScanline_cons (ft : Byte) (xs more : List Byte) :
    decodeScanline xs.length (ft :: (xs ++ more)) = .ok (filterKind ft xs) more := by
  simp [decodeScanline]

/-- A decoded scanline is a scanline of the given stride. -/
theorem decodeScanline_ok {stride : Nat} {bs rest : List Byte} {i : Instr} (h : decodeScanline stride bs = .ok i rest) :
    ∃ ft xs, i = filterKind ft xs ∧ xs.length = stride ∧ bs = ft :: (xs ++ rest) := by
  unfold decodeScanline at h
  split at h
  · cases h
  · next ft content =>
    split at h
    · cases h
    · next hlen =>
      cases h
      exact ⟨ft, content.take stride, rfl, by rw [List.length_take]; omega, by rw [List.take_append_drop]⟩

/-- A decoded signature record is the signature. -/
theorem decodeSig_ok {bs rest : List Byte} {i : Instr} (h : decodeSig bs = .ok i rest) :
    i = .sig ∧ bs = signature ++ rest := by
  unfold decodeSig at h
  split at h
  · cases h
  · split at h
    · next hs => cases h; exact ⟨rfl, by rw [← hs, List.take_append_drop]⟩
    · cases h

/-- The signature record is read from the signature and whatever stands after it. -/
theorem decodeSig_signature (more : List Byte) : decodeSig (signature ++ more) = .ok .sig more := by
  have h : (signature ++ more).take 8 = signature := List.take_left' rfl
  have hd : (signature ++ more).drop 8 = more := List.drop_left' rfl
  simp [decodeSig, h, hd]

/-- A tag that is none of the three known ones selects the default row. -/
theorem frameKind_other {tag : Tag} (h : otherTagOk tag = true) (data : List Byte) (crc : Word) :
    frameKind tag data crc = .other tag data crc := by
  simp only [otherTagOk, Bool.and_eq_true, decide_eq_true_eq] at h
  simp [frameKind, h.1.1, h.1.2, h.2]

/-- A filter type above 4 selects the default row. -/
theorem filterKind_illegal {ft : Byte} (h : 4 < ft.toNat) (xs : List Byte) : filterKind ft xs = .illegalFilter ft xs := by
  have hne : ∀ n : Nat, n ≤ 4 → ft ≠ BitVec.ofNat 8 n := fun n hn he => by
    rw [he, BitVec.toNat_ofNat] at h; omega
  simp [filterKind, hne 0 (by omega), hne 1 (by omega), hne 2 (by omega), hne 3 (by omega), hne 4 (by omega)]

end Sys2Proof
end

