-- ==== Sys2Proof/Laws/State.lean ====
section
/-! SUPPORT. What each named update of State does to each field: one lemma per field per update, true by rfl. -/

namespace Sys2Proof.Machine

/-! ### `raise` -/

@[simp] theorem raise_cmd (e : DecodeFault) (s : State) : (raise e s).cmd = s.cmd := rfl
@[simp] theorem raise_phase (e : DecodeFault) (s : State) : (raise e s).phase = .failed := rfl
@[simp] theorem raise_sigOk (e : DecodeFault) (s : State) : (raise e s).sigOk = s.sigOk := rfl
@[simp] theorem raise_hdrValid (e : DecodeFault) (s : State) : (raise e s).hdrValid = s.hdrValid := rfl
@[simp] theorem raise_done (e : DecodeFault) (s : State) : (raise e s).done = s.done := rfl
@[simp] theorem raise_failed (e : DecodeFault) (s : State) : (raise e s).failed = true := rfl
@[simp] theorem raise_pos (e : DecodeFault) (s : State) : (raise e s).pos = s.pos := rfl
@[simp] theorem raise_chunkIndex (e : DecodeFault) (s : State) : (raise e s).chunkIndex = s.chunkIndex := rfl
@[simp] theorem raise_len (e : DecodeFault) (s : State) : (raise e s).len = s.len := rfl
@[simp] theorem raise_body (e : DecodeFault) (s : State) : (raise e s).body = s.body := rfl
@[simp] theorem raise_crcS (e : DecodeFault) (s : State) : (raise e s).crcS = s.crcS := rfl
@[simp] theorem raise_crcC (e : DecodeFault) (s : State) : (raise e s).crcC = s.crcC := rfl
@[simp] theorem raise_width (e : DecodeFault) (s : State) : (raise e s).width = s.width := rfl
@[simp] theorem raise_height (e : DecodeFault) (s : State) : (raise e s).height = s.height := rfl
@[simp] theorem raise_bitDepth (e : DecodeFault) (s : State) : (raise e s).bitDepth = s.bitDepth := rfl
@[simp] theorem raise_colorType (e : DecodeFault) (s : State) : (raise e s).colorType = s.colorType := rfl
@[simp] theorem raise_compressionMethod (e : DecodeFault) (s : State) : (raise e s).compressionMethod = s.compressionMethod := rfl
@[simp] theorem raise_filterMethod (e : DecodeFault) (s : State) : (raise e s).filterMethod = s.filterMethod := rfl
@[simp] theorem raise_interlaceMethod (e : DecodeFault) (s : State) : (raise e s).interlaceMethod = s.interlaceMethod := rfl
@[simp] theorem raise_stride (e : DecodeFault) (s : State) : (raise e s).stride = s.stride := rfl
@[simp] theorem raise_expRaw (e : DecodeFault) (s : State) : (raise e s).expRaw = s.expRaw := rfl
@[simp] theorem raise_errCode (e : DecodeFault) (s : State) : (raise e s).errCode = e.code := rfl
@[simp] theorem raise_errInfo0 (e : DecodeFault) (s : State) : (raise e s).errInfo0 = e.info.1 := rfl
@[simp] theorem raise_errInfo1 (e : DecodeFault) (s : State) : (raise e s).errInfo1 = e.info.2.1 := rfl
@[simp] theorem raise_errInfo2 (e : DecodeFault) (s : State) : (raise e s).errInfo2 = e.info.2.2 := rfl
@[simp] theorem raise_pay (e : DecodeFault) (s : State) : (raise e s).pay = s.pay := rfl
@[simp] theorem raise_raw (e : DecodeFault) (s : State) : (raise e s).raw = s.raw := rfl
@[simp] theorem raise_row (e : DecodeFault) (s : State) : (raise e s).row = s.row := rfl
@[simp] theorem raise_col (e : DecodeFault) (s : State) : (raise e s).col = s.col := rfl
@[simp] theorem raise_filt (e : DecodeFault) (s : State) : (raise e s).filt = s.filt := rfl
@[simp] theorem raise_a (e : DecodeFault) (s : State) : (raise e s).a = s.a := rfl
@[simp] theorem raise_b (e : DecodeFault) (s : State) : (raise e s).b = s.b := rfl
@[simp] theorem raise_ul (e : DecodeFault) (s : State) : (raise e s).ul = s.ul := rfl
@[simp] theorem raise_x (e : DecodeFault) (s : State) : (raise e s).x = s.x := rfl
@[simp] theorem raise_line (e : DecodeFault) (s : State) : (raise e s).line = s.line := rfl
@[simp] theorem raise_left (e : DecodeFault) (s : State) : (raise e s).left = s.left := rfl
@[simp] theorem raise_upleft (e : DecodeFault) (s : State) : (raise e s).upleft = s.upleft := rfl
@[simp] theorem raise_pixSize (e : DecodeFault) (s : State) : (raise e s).pixSize = s.pixSize := rfl
@[simp] theorem raise_pix (e : DecodeFault) (s : State) : (raise e s).pix = s.pix := rfl
@[simp] theorem raise_crcAcc (e : DecodeFault) (s : State) : (raise e s).crcAcc = s.crcAcc := rfl
@[simp] theorem raise_cmdPort (e : DecodeFault) (s : State) : (raise e s).cmdPort = s.cmdPort := rfl
@[simp] theorem raise_params (e : DecodeFault) (s : State) : (raise e s).params = s.params := rfl

/-! ### `takePort` -/

@[simp] theorem takePort_cmd (s : State) : (s.takePort).cmd = s.cmd := rfl
@[simp] theorem takePort_phase (s : State) : (s.takePort).phase = s.phase := rfl
@[simp] theorem takePort_sigOk (s : State) : (s.takePort).sigOk = s.sigOk := rfl
@[simp] theorem takePort_hdrValid (s : State) : (s.takePort).hdrValid = s.hdrValid := rfl
@[simp] theorem takePort_done (s : State) : (s.takePort).done = s.done := rfl
@[simp] theorem takePort_failed (s : State) : (s.takePort).failed = s.failed := rfl
@[simp] theorem takePort_pos (s : State) : (s.takePort).pos = s.pos := rfl
@[simp] theorem takePort_chunkIndex (s : State) : (s.takePort).chunkIndex = s.chunkIndex := rfl
@[simp] theorem takePort_len (s : State) : (s.takePort).len = s.len := rfl
@[simp] theorem takePort_body (s : State) : (s.takePort).body = s.body := rfl
@[simp] theorem takePort_crcS (s : State) : (s.takePort).crcS = s.crcS := rfl
@[simp] theorem takePort_crcC (s : State) : (s.takePort).crcC = s.crcC := rfl
@[simp] theorem takePort_width (s : State) : (s.takePort).width = s.width := rfl
@[simp] theorem takePort_height (s : State) : (s.takePort).height = s.height := rfl
@[simp] theorem takePort_bitDepth (s : State) : (s.takePort).bitDepth = s.bitDepth := rfl
@[simp] theorem takePort_colorType (s : State) : (s.takePort).colorType = s.colorType := rfl
@[simp] theorem takePort_compressionMethod (s : State) : (s.takePort).compressionMethod = s.compressionMethod := rfl
@[simp] theorem takePort_filterMethod (s : State) : (s.takePort).filterMethod = s.filterMethod := rfl
@[simp] theorem takePort_interlaceMethod (s : State) : (s.takePort).interlaceMethod = s.interlaceMethod := rfl
@[simp] theorem takePort_stride (s : State) : (s.takePort).stride = s.stride := rfl
@[simp] theorem takePort_expRaw (s : State) : (s.takePort).expRaw = s.expRaw := rfl
@[simp] theorem takePort_errCode (s : State) : (s.takePort).errCode = s.errCode := rfl
@[simp] theorem takePort_errInfo0 (s : State) : (s.takePort).errInfo0 = s.errInfo0 := rfl
@[simp] theorem takePort_errInfo1 (s : State) : (s.takePort).errInfo1 = s.errInfo1 := rfl
@[simp] theorem takePort_errInfo2 (s : State) : (s.takePort).errInfo2 = s.errInfo2 := rfl
@[simp] theorem takePort_pay (s : State) : (s.takePort).pay = s.pay := rfl
@[simp] theorem takePort_raw (s : State) : (s.takePort).raw = s.raw := rfl
@[simp] theorem takePort_row (s : State) : (s.takePort).row = s.row := rfl
@[simp] theorem takePort_col (s : State) : (s.takePort).col = s.col := rfl
@[simp] theorem takePort_filt (s : State) : (s.takePort).filt = s.filt := rfl
@[simp] theorem takePort_a (s : State) : (s.takePort).a = s.a := rfl
@[simp] theorem takePort_b (s : State) : (s.takePort).b = s.b := rfl
@[simp] theorem takePort_ul (s : State) : (s.takePort).ul = s.ul := rfl
@[simp] theorem takePort_x (s : State) : (s.takePort).x = s.x := rfl
@[simp] theorem takePort_line (s : State) : (s.takePort).line = s.line := rfl
@[simp] theorem takePort_left (s : State) : (s.takePort).left = s.left := rfl
@[simp] theorem takePort_upleft (s : State) : (s.takePort).upleft = s.upleft := rfl
@[simp] theorem takePort_pixSize (s : State) : (s.takePort).pixSize = s.pixSize := rfl
@[simp] theorem takePort_pix (s : State) : (s.takePort).pix = s.pix := rfl
@[simp] theorem takePort_crcAcc (s : State) : (s.takePort).crcAcc = s.crcAcc := rfl
@[simp] theorem takePort_cmdPort (s : State) : (s.takePort).cmdPort = s.cmdPort.tail := rfl
@[simp] theorem takePort_params (s : State) : (s.takePort).params = s.params := rfl

/-! ### `setDone` -/

@[simp] theorem setDone_cmd (s : State) : (s.setDone).cmd = s.cmd := rfl
@[simp] theorem setDone_phase (s : State) : (s.setDone).phase = .done := rfl
@[simp] theorem setDone_sigOk (s : State) : (s.setDone).sigOk = s.sigOk := rfl
@[simp] theorem setDone_hdrValid (s : State) : (s.setDone).hdrValid = s.hdrValid := rfl
@[simp] theorem setDone_done (s : State) : (s.setDone).done = true := rfl
@[simp] theorem setDone_failed (s : State) : (s.setDone).failed = s.failed := rfl
@[simp] theorem setDone_pos (s : State) : (s.setDone).pos = s.pos := rfl
@[simp] theorem setDone_chunkIndex (s : State) : (s.setDone).chunkIndex = s.chunkIndex := rfl
@[simp] theorem setDone_len (s : State) : (s.setDone).len = s.len := rfl
@[simp] theorem setDone_body (s : State) : (s.setDone).body = s.body := rfl
@[simp] theorem setDone_crcS (s : State) : (s.setDone).crcS = s.crcS := rfl
@[simp] theorem setDone_crcC (s : State) : (s.setDone).crcC = s.crcC := rfl
@[simp] theorem setDone_width (s : State) : (s.setDone).width = s.width := rfl
@[simp] theorem setDone_height (s : State) : (s.setDone).height = s.height := rfl
@[simp] theorem setDone_bitDepth (s : State) : (s.setDone).bitDepth = s.bitDepth := rfl
@[simp] theorem setDone_colorType (s : State) : (s.setDone).colorType = s.colorType := rfl
@[simp] theorem setDone_compressionMethod (s : State) : (s.setDone).compressionMethod = s.compressionMethod := rfl
@[simp] theorem setDone_filterMethod (s : State) : (s.setDone).filterMethod = s.filterMethod := rfl
@[simp] theorem setDone_interlaceMethod (s : State) : (s.setDone).interlaceMethod = s.interlaceMethod := rfl
@[simp] theorem setDone_stride (s : State) : (s.setDone).stride = s.stride := rfl
@[simp] theorem setDone_expRaw (s : State) : (s.setDone).expRaw = s.expRaw := rfl
@[simp] theorem setDone_errCode (s : State) : (s.setDone).errCode = s.errCode := rfl
@[simp] theorem setDone_errInfo0 (s : State) : (s.setDone).errInfo0 = s.errInfo0 := rfl
@[simp] theorem setDone_errInfo1 (s : State) : (s.setDone).errInfo1 = s.errInfo1 := rfl
@[simp] theorem setDone_errInfo2 (s : State) : (s.setDone).errInfo2 = s.errInfo2 := rfl
@[simp] theorem setDone_pay (s : State) : (s.setDone).pay = s.pay := rfl
@[simp] theorem setDone_raw (s : State) : (s.setDone).raw = s.raw := rfl
@[simp] theorem setDone_row (s : State) : (s.setDone).row = s.row := rfl
@[simp] theorem setDone_col (s : State) : (s.setDone).col = s.col := rfl
@[simp] theorem setDone_filt (s : State) : (s.setDone).filt = s.filt := rfl
@[simp] theorem setDone_a (s : State) : (s.setDone).a = s.a := rfl
@[simp] theorem setDone_b (s : State) : (s.setDone).b = s.b := rfl
@[simp] theorem setDone_ul (s : State) : (s.setDone).ul = s.ul := rfl
@[simp] theorem setDone_x (s : State) : (s.setDone).x = s.x := rfl
@[simp] theorem setDone_line (s : State) : (s.setDone).line = s.line := rfl
@[simp] theorem setDone_left (s : State) : (s.setDone).left = s.left := rfl
@[simp] theorem setDone_upleft (s : State) : (s.setDone).upleft = s.upleft := rfl
@[simp] theorem setDone_pixSize (s : State) : (s.setDone).pixSize = s.pixSize := rfl
@[simp] theorem setDone_pix (s : State) : (s.setDone).pix = s.pix := rfl
@[simp] theorem setDone_crcAcc (s : State) : (s.setDone).crcAcc = s.crcAcc := rfl
@[simp] theorem setDone_cmdPort (s : State) : (s.setDone).cmdPort = s.cmdPort := rfl
@[simp] theorem setDone_params (s : State) : (s.setDone).params = s.params := rfl

/-! ### `commitHeader` -/

@[simp] theorem commitHeader_cmd (h : HeaderFields) (s : State) : (commitHeader h s).cmd = s.cmd := rfl
@[simp] theorem commitHeader_phase (h : HeaderFields) (s : State) : (commitHeader h s).phase = if s.phase = .signatureChecked then .headerKnown else s.phase := rfl
@[simp] theorem commitHeader_sigOk (h : HeaderFields) (s : State) : (commitHeader h s).sigOk = s.sigOk := rfl
@[simp] theorem commitHeader_hdrValid (h : HeaderFields) (s : State) : (commitHeader h s).hdrValid = true := rfl
@[simp] theorem commitHeader_done (h : HeaderFields) (s : State) : (commitHeader h s).done = s.done := rfl
@[simp] theorem commitHeader_failed (h : HeaderFields) (s : State) : (commitHeader h s).failed = s.failed := rfl
@[simp] theorem commitHeader_pos (h : HeaderFields) (s : State) : (commitHeader h s).pos = s.pos := rfl
@[simp] theorem commitHeader_chunkIndex (h : HeaderFields) (s : State) : (commitHeader h s).chunkIndex = s.chunkIndex := rfl
@[simp] theorem commitHeader_len (h : HeaderFields) (s : State) : (commitHeader h s).len = s.len := rfl
@[simp] theorem commitHeader_body (h : HeaderFields) (s : State) : (commitHeader h s).body = s.body := rfl
@[simp] theorem commitHeader_crcS (h : HeaderFields) (s : State) : (commitHeader h s).crcS = s.crcS := rfl
@[simp] theorem commitHeader_crcC (h : HeaderFields) (s : State) : (commitHeader h s).crcC = s.crcC := rfl
@[simp] theorem commitHeader_width (h : HeaderFields) (s : State) : (commitHeader h s).width = h.width := rfl
@[simp] theorem commitHeader_height (h : HeaderFields) (s : State) : (commitHeader h s).height = h.height := rfl
@[simp] theorem commitHeader_bitDepth (h : HeaderFields) (s : State) : (commitHeader h s).bitDepth = h.bitDepth := rfl
@[simp] theorem commitHeader_colorType (h : HeaderFields) (s : State) : (commitHeader h s).colorType = h.colorType := rfl
@[simp] theorem commitHeader_compressionMethod (h : HeaderFields) (s : State) : (commitHeader h s).compressionMethod = h.compressionMethod := rfl
@[simp] theorem commitHeader_filterMethod (h : HeaderFields) (s : State) : (commitHeader h s).filterMethod = h.filterMethod := rfl
@[simp] theorem commitHeader_interlaceMethod (h : HeaderFields) (s : State) : (commitHeader h s).interlaceMethod = h.interlaceMethod := rfl
@[simp] theorem commitHeader_stride (h : HeaderFields) (s : State) : (commitHeader h s).stride = strideOf h.width := rfl
@[simp] theorem commitHeader_expRaw (h : HeaderFields) (s : State) : (commitHeader h s).expRaw = expRawOf h.width h.height := rfl
@[simp] theorem commitHeader_errCode (h : HeaderFields) (s : State) : (commitHeader h s).errCode = s.errCode := rfl
@[simp] theorem commitHeader_errInfo0 (h : HeaderFields) (s : State) : (commitHeader h s).errInfo0 = s.errInfo0 := rfl
@[simp] theorem commitHeader_errInfo1 (h : HeaderFields) (s : State) : (commitHeader h s).errInfo1 = s.errInfo1 := rfl
@[simp] theorem commitHeader_errInfo2 (h : HeaderFields) (s : State) : (commitHeader h s).errInfo2 = s.errInfo2 := rfl
@[simp] theorem commitHeader_pay (h : HeaderFields) (s : State) : (commitHeader h s).pay = s.pay := rfl
@[simp] theorem commitHeader_raw (h : HeaderFields) (s : State) : (commitHeader h s).raw = s.raw := rfl
@[simp] theorem commitHeader_row (h : HeaderFields) (s : State) : (commitHeader h s).row = s.row := rfl
@[simp] theorem commitHeader_col (h : HeaderFields) (s : State) : (commitHeader h s).col = s.col := rfl
@[simp] theorem commitHeader_filt (h : HeaderFields) (s : State) : (commitHeader h s).filt = s.filt := rfl
@[simp] theorem commitHeader_a (h : HeaderFields) (s : State) : (commitHeader h s).a = s.a := rfl
@[simp] theorem commitHeader_b (h : HeaderFields) (s : State) : (commitHeader h s).b = s.b := rfl
@[simp] theorem commitHeader_ul (h : HeaderFields) (s : State) : (commitHeader h s).ul = s.ul := rfl
@[simp] theorem commitHeader_x (h : HeaderFields) (s : State) : (commitHeader h s).x = s.x := rfl
@[simp] theorem commitHeader_line (h : HeaderFields) (s : State) : (commitHeader h s).line = s.line := rfl
@[simp] theorem commitHeader_left (h : HeaderFields) (s : State) : (commitHeader h s).left = s.left := rfl
@[simp] theorem commitHeader_upleft (h : HeaderFields) (s : State) : (commitHeader h s).upleft = s.upleft := rfl
@[simp] theorem commitHeader_pixSize (h : HeaderFields) (s : State) : (commitHeader h s).pixSize = s.pixSize := rfl
@[simp] theorem commitHeader_pix (h : HeaderFields) (s : State) : (commitHeader h s).pix = s.pix := rfl
@[simp] theorem commitHeader_crcAcc (h : HeaderFields) (s : State) : (commitHeader h s).crcAcc = s.crcAcc := rfl
@[simp] theorem commitHeader_cmdPort (h : HeaderFields) (s : State) : (commitHeader h s).cmdPort = s.cmdPort := rfl
@[simp] theorem commitHeader_params (h : HeaderFields) (s : State) : (commitHeader h s).params = s.params := rfl

/-! ### `clearBuffers` -/

@[simp] theorem clearBuffers_cmd (s : State) : (clearBuffers s).cmd = s.cmd := rfl
@[simp] theorem clearBuffers_phase (s : State) : (clearBuffers s).phase = s.phase := rfl
@[simp] theorem clearBuffers_sigOk (s : State) : (clearBuffers s).sigOk = s.sigOk := rfl
@[simp] theorem clearBuffers_hdrValid (s : State) : (clearBuffers s).hdrValid = s.hdrValid := rfl
@[simp] theorem clearBuffers_done (s : State) : (clearBuffers s).done = s.done := rfl
@[simp] theorem clearBuffers_failed (s : State) : (clearBuffers s).failed = s.failed := rfl
@[simp] theorem clearBuffers_pos (s : State) : (clearBuffers s).pos = s.pos := rfl
@[simp] theorem clearBuffers_chunkIndex (s : State) : (clearBuffers s).chunkIndex = s.chunkIndex := rfl
@[simp] theorem clearBuffers_len (s : State) : (clearBuffers s).len = s.len := rfl
@[simp] theorem clearBuffers_body (s : State) : (clearBuffers s).body = s.body := rfl
@[simp] theorem clearBuffers_crcS (s : State) : (clearBuffers s).crcS = s.crcS := rfl
@[simp] theorem clearBuffers_crcC (s : State) : (clearBuffers s).crcC = s.crcC := rfl
@[simp] theorem clearBuffers_width (s : State) : (clearBuffers s).width = s.width := rfl
@[simp] theorem clearBuffers_height (s : State) : (clearBuffers s).height = s.height := rfl
@[simp] theorem clearBuffers_bitDepth (s : State) : (clearBuffers s).bitDepth = s.bitDepth := rfl
@[simp] theorem clearBuffers_colorType (s : State) : (clearBuffers s).colorType = s.colorType := rfl
@[simp] theorem clearBuffers_compressionMethod (s : State) : (clearBuffers s).compressionMethod = s.compressionMethod := rfl
@[simp] theorem clearBuffers_filterMethod (s : State) : (clearBuffers s).filterMethod = s.filterMethod := rfl
@[simp] theorem clearBuffers_interlaceMethod (s : State) : (clearBuffers s).interlaceMethod = s.interlaceMethod := rfl
@[simp] theorem clearBuffers_stride (s : State) : (clearBuffers s).stride = s.stride := rfl
@[simp] theorem clearBuffers_expRaw (s : State) : (clearBuffers s).expRaw = s.expRaw := rfl
@[simp] theorem clearBuffers_errCode (s : State) : (clearBuffers s).errCode = s.errCode := rfl
@[simp] theorem clearBuffers_errInfo0 (s : State) : (clearBuffers s).errInfo0 = s.errInfo0 := rfl
@[simp] theorem clearBuffers_errInfo1 (s : State) : (clearBuffers s).errInfo1 = s.errInfo1 := rfl
@[simp] theorem clearBuffers_errInfo2 (s : State) : (clearBuffers s).errInfo2 = s.errInfo2 := rfl
@[simp] theorem clearBuffers_pay (s : State) : (clearBuffers s).pay = s.pay := rfl
@[simp] theorem clearBuffers_raw (s : State) : (clearBuffers s).raw = s.raw := rfl
@[simp] theorem clearBuffers_row (s : State) : (clearBuffers s).row = s.row := rfl
@[simp] theorem clearBuffers_col (s : State) : (clearBuffers s).col = s.col := rfl
@[simp] theorem clearBuffers_filt (s : State) : (clearBuffers s).filt = s.filt := rfl
@[simp] theorem clearBuffers_a (s : State) : (clearBuffers s).a = s.a := rfl
@[simp] theorem clearBuffers_b (s : State) : (clearBuffers s).b = s.b := rfl
@[simp] theorem clearBuffers_ul (s : State) : (clearBuffers s).ul = s.ul := rfl
@[simp] theorem clearBuffers_x (s : State) : (clearBuffers s).x = s.x := rfl
@[simp] theorem clearBuffers_line (s : State) : (clearBuffers s).line = if s.row = 0 then List.replicate s.stride 0 else s.line := rfl
@[simp] theorem clearBuffers_left (s : State) : (clearBuffers s).left = [0, 0, 0, 0] := rfl
@[simp] theorem clearBuffers_upleft (s : State) : (clearBuffers s).upleft = [0, 0, 0, 0] := rfl
@[simp] theorem clearBuffers_pixSize (s : State) : (clearBuffers s).pixSize = s.pixSize := rfl
@[simp] theorem clearBuffers_pix (s : State) : (clearBuffers s).pix = s.pix := rfl
@[simp] theorem clearBuffers_crcAcc (s : State) : (clearBuffers s).crcAcc = s.crcAcc := rfl
@[simp] theorem clearBuffers_cmdPort (s : State) : (clearBuffers s).cmdPort = s.cmdPort := rfl
@[simp] theorem clearBuffers_params (s : State) : (clearBuffers s).params = s.params := rfl

/-! ### `shiftBuffers` -/

@[simp] theorem shiftBuffers_cmd (col : Nat) (v w : Byte) (s : State) : (shiftBuffers col v w s).cmd = s.cmd := rfl
@[simp] theorem shiftBuffers_phase (col : Nat) (v w : Byte) (s : State) : (shiftBuffers col v w s).phase = s.phase := rfl
@[simp] theorem shiftBuffers_sigOk (col : Nat) (v w : Byte) (s : State) : (shiftBuffers col v w s).sigOk = s.sigOk := rfl
@[simp] theorem shiftBuffers_hdrValid (col : Nat) (v w : Byte) (s : State) : (shiftBuffers col v w s).hdrValid = s.hdrValid := rfl
@[simp] theorem shiftBuffers_done (col : Nat) (v w : Byte) (s : State) : (shiftBuffers col v w s).done = s.done := rfl
@[simp] theorem shiftBuffers_failed (col : Nat) (v w : Byte) (s : State) : (shiftBuffers col v w s).failed = s.failed := rfl
@[simp] theorem shiftBuffers_pos (col : Nat) (v w : Byte) (s : State) : (shiftBuffers col v w s).pos = s.pos := rfl
@[simp] theorem shiftBuffers_chunkIndex (col : Nat) (v w : Byte) (s : State) : (shiftBuffers col v w s).chunkIndex = s.chunkIndex := rfl
@[simp] theorem shiftBuffers_len (col : Nat) (v w : Byte) (s : State) : (shiftBuffers col v w s).len = s.len := rfl
@[simp] theorem shiftBuffers_body (col : Nat) (v w : Byte) (s : State) : (shiftBuffers col v w s).body = s.body := rfl
@[simp] theorem shiftBuffers_crcS (col : Nat) (v w : Byte) (s : State) : (shiftBuffers col v w s).crcS = s.crcS := rfl
@[simp] theorem shiftBuffers_crcC (col : Nat) (v w : Byte) (s : State) : (shiftBuffers col v w s).crcC = s.crcC := rfl
@[simp] theorem shiftBuffers_width (col : Nat) (v w : Byte) (s : State) : (shiftBuffers col v w s).width = s.width := rfl
@[simp] theorem shiftBuffers_height (col : Nat) (v w : Byte) (s : State) : (shiftBuffers col v w s).height = s.height := rfl
@[simp] theorem shiftBuffers_bitDepth (col : Nat) (v w : Byte) (s : State) : (shiftBuffers col v w s).bitDepth = s.bitDepth := rfl
@[simp] theorem shiftBuffers_colorType (col : Nat) (v w : Byte) (s : State) : (shiftBuffers col v w s).colorType = s.colorType := rfl
@[simp] theorem shiftBuffers_compressionMethod (col : Nat) (v w : Byte) (s : State) : (shiftBuffers col v w s).compressionMethod = s.compressionMethod := rfl
@[simp] theorem shiftBuffers_filterMethod (col : Nat) (v w : Byte) (s : State) : (shiftBuffers col v w s).filterMethod = s.filterMethod := rfl
@[simp] theorem shiftBuffers_interlaceMethod (col : Nat) (v w : Byte) (s : State) : (shiftBuffers col v w s).interlaceMethod = s.interlaceMethod := rfl
@[simp] theorem shiftBuffers_stride (col : Nat) (v w : Byte) (s : State) : (shiftBuffers col v w s).stride = s.stride := rfl
@[simp] theorem shiftBuffers_expRaw (col : Nat) (v w : Byte) (s : State) : (shiftBuffers col v w s).expRaw = s.expRaw := rfl
@[simp] theorem shiftBuffers_errCode (col : Nat) (v w : Byte) (s : State) : (shiftBuffers col v w s).errCode = s.errCode := rfl
@[simp] theorem shiftBuffers_errInfo0 (col : Nat) (v w : Byte) (s : State) : (shiftBuffers col v w s).errInfo0 = s.errInfo0 := rfl
@[simp] theorem shiftBuffers_errInfo1 (col : Nat) (v w : Byte) (s : State) : (shiftBuffers col v w s).errInfo1 = s.errInfo1 := rfl
@[simp] theorem shiftBuffers_errInfo2 (col : Nat) (v w : Byte) (s : State) : (shiftBuffers col v w s).errInfo2 = s.errInfo2 := rfl
@[simp] theorem shiftBuffers_pay (col : Nat) (v w : Byte) (s : State) : (shiftBuffers col v w s).pay = s.pay := rfl
@[simp] theorem shiftBuffers_raw (col : Nat) (v w : Byte) (s : State) : (shiftBuffers col v w s).raw = s.raw := rfl
@[simp] theorem shiftBuffers_row (col : Nat) (v w : Byte) (s : State) : (shiftBuffers col v w s).row = s.row := rfl
@[simp] theorem shiftBuffers_col (col : Nat) (v w : Byte) (s : State) : (shiftBuffers col v w s).col = s.col := rfl
@[simp] theorem shiftBuffers_filt (col : Nat) (v w : Byte) (s : State) : (shiftBuffers col v w s).filt = s.filt := rfl
@[simp] theorem shiftBuffers_a (col : Nat) (v w : Byte) (s : State) : (shiftBuffers col v w s).a = s.a := rfl
@[simp] theorem shiftBuffers_b (col : Nat) (v w : Byte) (s : State) : (shiftBuffers col v w s).b = s.b := rfl
@[simp] theorem shiftBuffers_ul (col : Nat) (v w : Byte) (s : State) : (shiftBuffers col v w s).ul = s.ul := rfl
@[simp] theorem shiftBuffers_x (col : Nat) (v w : Byte) (s : State) : (shiftBuffers col v w s).x = s.x := rfl
@[simp] theorem shiftBuffers_line (col : Nat) (v w : Byte) (s : State) : (shiftBuffers col v w s).line = s.line.set col w := rfl
@[simp] theorem shiftBuffers_left (col : Nat) (v w : Byte) (s : State) : (shiftBuffers col v w s).left = s.left.set (col % bpp) w := rfl
@[simp] theorem shiftBuffers_upleft (col : Nat) (v w : Byte) (s : State) : (shiftBuffers col v w s).upleft = s.upleft.set (col % bpp) v := rfl
@[simp] theorem shiftBuffers_pixSize (col : Nat) (v w : Byte) (s : State) : (shiftBuffers col v w s).pixSize = s.pixSize := rfl
@[simp] theorem shiftBuffers_pix (col : Nat) (v w : Byte) (s : State) : (shiftBuffers col v w s).pix = s.pix := rfl
@[simp] theorem shiftBuffers_crcAcc (col : Nat) (v w : Byte) (s : State) : (shiftBuffers col v w s).crcAcc = s.crcAcc := rfl
@[simp] theorem shiftBuffers_cmdPort (col : Nat) (v w : Byte) (s : State) : (shiftBuffers col v w s).cmdPort = s.cmdPort := rfl
@[simp] theorem shiftBuffers_params (col : Nat) (v w : Byte) (s : State) : (shiftBuffers col v w s).params = s.params := rfl

end Sys2Proof.Machine
end

