-- ==== Sys2Proof/Laws/Ops.lean ====
section
/-! SUPPORT. What each shared operation can do, said once: the sequencing of a step, the stream read, the appends, the cells
of PIX. -/

namespace Sys2Proof.Machine

/-! ### Sequencing -/

@[simp] theorem andThen_ok (s : State) (k : State → Flow) : (Flow.ok s).andThen k = k s := rfl
@[simp] theorem andThen_raised (s : State) (k : State → Flow) : (Flow.raised s).andThen k = .raised s := rfl
@[simp] theorem andThen_stuck (f : Fault) (k : State → Flow) : (Flow.stuck f).andThen k = .stuck f := rfl
@[simp] theorem outcome_ok (s : State) : (Flow.ok s).outcome = .next s := rfl
@[simp] theorem outcome_raised (s : State) : (Flow.raised s).outcome = .next s := rfl
@[simp] theorem outcome_stuck (f : Fault) : (Flow.stuck f).outcome = .fault f := rfl

/-- A step's flow never refuses. -/
theorem outcome_ne_refused (m : Flow) (r : Refusal) : m.outcome ≠ .refused r := by
  cases m <;> simp

/-- A flow answers a next state exactly when it went on or raised with that state. -/
theorem outcome_eq_next_iff (m : Flow) (t : State) : m.outcome = .next t ↔ m = .ok t ∨ m = .raised t := by
  cases m <;> simp

theorem andThen_eq_ok_iff (m : Flow) (k : State → Flow) (t : State) :
    m.andThen k = .ok t ↔ ∃ s, m = .ok s ∧ k s = .ok t := by
  cases m <;> simp

theorem andThen_eq_raised_iff (m : Flow) (k : State → Flow) (t : State) :
    m.andThen k = .raised t ↔ m = .raised t ∨ ∃ s, m = .ok s ∧ k s = .raised t := by
  cases m <;> simp

theorem andThen_assoc (m : Flow) (k l : State → Flow) :
    (m.andThen k).andThen l = m.andThen fun s => (k s).andThen l := by
  cases m <;> rfl

/-! ### Caps -/

@[simp] theorem exceededBy_inf (n : Nat) : Cap.exceededBy .inf n = false := rfl
@[simp] theorem exceededBy_upTo (m n : Nat) : Cap.exceededBy (.upTo m) n = decide (m < n) := rfl

/-! ### The stream -/

/-- `SrcRead` hangs, or raises with nothing consumed, or delivers the next `n` bytes. -/
theorem srcRead_cases (n : Nat) (s : State) (k : List Byte → State → Flow) :
    (Cap.exceededBy s.params.srcAnswers (s.pos + n) = true ∧ srcRead n s k = .stuck .srcNoAnswer) ∨
    (Cap.exceededBy s.params.srcAnswers (s.pos + n) = false ∧ s.srcLen < s.pos + n ∧
      srcRead n s k = .raised (raise .truncatedStream s)) ∨
    (Cap.exceededBy s.params.srcAnswers (s.pos + n) = false ∧ s.pos + n ≤ s.srcLen ∧
      srcRead n s k = k ((s.params.src.drop s.pos).take n) { s with pos := s.pos + n }) := by
  unfold srcRead
  by_cases h1 : Cap.exceededBy s.params.srcAnswers (s.pos + n) = true
  · simp [h1]
  · by_cases h2 : s.pos + n ≤ s.srcLen
    · simp [h1, h2]
    · simp [h1, h2]; omega

/-- With bytes enough and a source that answers, `SrcRead` delivers them. -/
theorem srcRead_ok {n : Nat} {s : State} (k : List Byte → State → Flow)
    (ha : Cap.exceededBy s.params.srcAnswers (s.pos + n) = false) (h : s.pos + n ≤ s.srcLen) :
    srcRead n s k = k ((s.params.src.drop s.pos).take n) { s with pos := s.pos + n } := by
  simp [srcRead, ha, h]

/-- With too few bytes and a source that answers, `SrcRead` raises and consumes nothing. -/
theorem srcRead_short {n : Nat} {s : State} (k : List Byte → State → Flow)
    (ha : Cap.exceededBy s.params.srcAnswers (s.pos + n) = false) (h : s.srcLen < s.pos + n) :
    srcRead n s k = .raised (raise .truncatedStream s) := by
  simp [srcRead, ha, Nat.not_le.mpr h]

/-- `PayAppend` raises with PAY as it was, or appends at the end. -/
theorem payAppend_cases (d : List Byte) (s : State) :
    (Cap.exceededBy s.params.payloadCap (s.payLen + d.length) = true ∧
      payAppend d s = .raised (raise .allocationFailure s)) ∨
    (Cap.exceededBy s.params.payloadCap (s.payLen + d.length) = false ∧ payAppend d s = .ok { s with pay := s.pay ++ d }) := by
  unfold payAppend
  split <;> simp_all

/-- `sde_enter` raises with nothing allocated, or allocates an unwritten pixel buffer and enters `Defiltering`. -/
theorem sdeEnter_cases (s : State) :
    (s.rawLen < s.expRaw ∧ sdeEnter s = .raised (raise (.truncatedImageData s.expRaw s.rawLen) s)) ∨
    (s.expRaw ≤ s.rawLen ∧ sdeEnter s = .ok { s with pixSize := s.imageSize, pix := [], row := 0, phase := .defiltering }) := by
  unfold sdeEnter
  split <;> simp_all

/-! ### Cells -/

@[simp] theorem Memory.read_nil (i : Nat) : Memory.read [] i = none := rfl

theorem Memory.read_cons (k : Nat) (v : Byte) (m : List Host.Cell) (i : Nat) :
    Memory.read ((k, v) :: m) i = if k = i then some v else Memory.read m i := rfl

/-- A read of the address just written gives the byte written. -/
@[simp] theorem Memory.read_write_same (i : Nat) (v : Byte) (m : List Host.Cell) :
    Memory.read (Memory.write i v m) i = some v := by
  induction m with
  | nil => simp [Memory.write, Memory.read]
  | cons c m ih =>
    obtain ⟨k, w⟩ := c
    simp only [Memory.write]
    split
    · simp [Memory.read]
    · split
      · simp [Memory.read]
      · rw [Memory.read_cons, if_neg (by omega), ih]

/-- A write leaves every other address alone. -/
theorem Memory.read_write_other {i j : Nat} (h : j ≠ i) (v : Byte) (m : List Host.Cell) :
    Memory.read (Memory.write i v m) j = Memory.read m j := by
  induction m with
  | nil => simp [Memory.write, Memory.read, Ne.symm h]
  | cons c m ih =>
    obtain ⟨k, w⟩ := c
    simp only [Memory.write]
    split
    · simp [Memory.read, Ne.symm h]
    · split
      · next hk => subst hk; simp [Memory.read, Ne.symm h]
      · simp only [Memory.read_cons, ih]

theorem Memory.wf_cons_iff (c : Host.Cell) (m : List Host.Cell) :
    Memory.wf (c :: m) = true ↔ (∀ d ∈ m.head?, c.1 < d.1) ∧ Memory.wf m = true := by
  obtain ⟨k, v⟩ := c
  match m with
  | [] => simp [Memory.wf]
  | (j, w) :: m => simp [Memory.wf]

theorem Memory.head_write (i : Nat) (v : Byte) (m : List Host.Cell) :
    ∀ d ∈ (Memory.write i v m).head?, d.1 = i ∨ ∃ e ∈ m.head?, d.1 = e.1 := by
  match m with
  | [] => simp [Memory.write]
  | (k, w) :: m =>
    simp only [Memory.write]
    split
    · simp
    · split
      · simp
      · simp

/-- Writing keeps the canonical form. -/
theorem Memory.wf_write (i : Nat) (v : Byte) {m : List Host.Cell} (h : Memory.wf m = true) :
    Memory.wf (Memory.write i v m) = true := by
  induction m with
  | nil => rfl
  | cons c m ih =>
    obtain ⟨k, w⟩ := c
    have hc := (Memory.wf_cons_iff (k, w) m).mp h
    simp only [Memory.write]
    split
    · next hlt => exact (Memory.wf_cons_iff _ _).mpr ⟨by simpa using hlt, h⟩
    · split
      · next he => subst he; exact (Memory.wf_cons_iff _ _).mpr hc
      · refine (Memory.wf_cons_iff _ _).mpr ⟨fun d hd => ?_, ih hc.2⟩
        rcases Memory.head_write i v m d hd with he | ⟨e, hm, he⟩
        · rw [he]; show k < i; omega
        · rw [he]; exact hc.1 e hm

/-- An address above every listed one is written at the end of the list. -/
theorem Memory.write_above {i : Nat} (v : Byte) {m : List Host.Cell} (h : ∀ c ∈ m, c.1 < i) :
    Memory.write i v m = m ++ [(i, v)] := by
  induction m with
  | nil => rfl
  | cons c m ih =>
    obtain ⟨k, w⟩ := c
    have hk : k < i := h (k, w) (by simp)
    simp only [Memory.write]
    rw [if_neg (by omega), if_neg (by omega), ih (fun c hc => h c (by simp [hc]))]
    rfl

/-- An address that is not listed reads as nothing. -/
theorem Memory.read_eq_none {i : Nat} {m : List Host.Cell} (h : i ∉ m.map Prod.fst) : Memory.read m i = none := by
  induction m with
  | nil => rfl
  | cons c m ih =>
    obtain ⟨k, w⟩ := c
    simp only [List.map_cons, List.mem_cons, not_or] at h
    rw [Memory.read_cons, if_neg (Ne.symm h.1), ih h.2]

/-- An address that is listed reads as something. -/
theorem Memory.read_isSome {i : Nat} {m : List Host.Cell} (h : i ∈ m.map Prod.fst) : ∃ v, Memory.read m i = some v := by
  induction m with
  | nil => simp at h
  | cons c m ih =>
    obtain ⟨k, w⟩ := c
    rw [Memory.read_cons]
    by_cases hk : k = i
    · exact ⟨w, by simp [hk]⟩
    · rw [if_neg hk]
      exact ih (by simpa [Ne.symm hk] using h)

/-- With the first `n` cells written, an address reads as something exactly below `n`. -/
theorem Memory.read_of_range {n : Nat} {m : List Host.Cell} (h : m.map Prod.fst = List.range n) (i : Nat) :
    (i < n → ∃ v, Memory.read m i = some v) ∧ (n ≤ i → Memory.read m i = none) :=
  ⟨fun hi => Memory.read_isSome (by rw [h]; simpa using hi), fun hi => Memory.read_eq_none (by rw [h]; simpa using hi)⟩

/-- With the first `n` cells written, writing the next one appends it, and then the first `n + 1` are written. -/
theorem Memory.write_next {n : Nat} (v : Byte) {m : List Host.Cell} (h : m.map Prod.fst = List.range n) :
    Memory.write n v m = m ++ [(n, v)] ∧ (Memory.write n v m).map Prod.fst = List.range (n + 1) := by
  have ha : ∀ c ∈ m, c.1 < n := fun c hc => by
    have : c.1 ∈ m.map Prod.fst := List.mem_map_of_mem hc
    rw [h] at this
    simpa using this
  have hw := Memory.write_above v ha
  exact ⟨hw, by rw [hw, List.map_append, h, List.range_succ]; rfl⟩

/-- A list of cells whose addresses are the first `n` is in canonical form. -/
theorem Memory.wf_of_range {n : Nat} {m : List Host.Cell} (h : m.map Prod.fst = List.range n) : Memory.wf m = true := by
  induction n generalizing m with
  | zero => rw [List.map_eq_nil_iff.mp h]; rfl
  | succ n ih =>
    have hne : m ≠ [] := by rintro rfl; simp at h
    obtain ⟨l, c, rfl⟩ : ∃ l c, m = l ++ [c] := ⟨m.dropLast, m.getLast hne, (List.dropLast_append_getLast hne).symm⟩
    rw [List.map_append, List.range_succ] at h
    have h2 := List.append_inj' h rfl
    have hl := h2.1
    obtain ⟨k, v⟩ := c
    have hk : k = n := by simpa using h2.2
    subst hk
    rw [← (Memory.write_next v hl).1]
    exact Memory.wf_write _ _ (ih hl)

/-- With consecutive addresses written from `start` on, the address `start + i` reads as the `i`-th listed byte. -/
theorem Memory.read_range' {n start : Nat} {m : List Host.Cell} (h : m.map Prod.fst = List.range' start n) (i : Nat)
    (hi : i < n) : Memory.read m (start + i) = (m.map Prod.snd)[i]? := by
  induction n generalizing start m i with
  | zero => omega
  | succ n ih =>
    match m with
    | [] => simp at h
    | (k, v) :: m =>
      rw [List.map_cons, List.range'_succ] at h
      simp only [List.cons.injEq] at h
      obtain ⟨rfl, h⟩ := h
      match i with
      | 0 => simp [Memory.read]
      | i + 1 =>
        rw [Memory.read_cons, if_neg (by omega), show k + (i + 1) = k + 1 + i by omega, ih h i (by omega)]
        rfl

/-- With the first `n` cells written, address `i` reads as the `i`-th listed byte. -/
theorem Memory.read_getElem {n : Nat} {m : List Host.Cell} (h : m.map Prod.fst = List.range n) {i : Nat} (hi : i < n) :
    Memory.read m i = (m.map Prod.snd)[i]? := by
  rw [List.range_eq_range'] at h
  simpa using Memory.read_range' h i hi

/-- Two lists of cells with the first `n` written that read alike are the same list. -/
theorem Memory.ext_of_range {n : Nat} {m m' : List Host.Cell} (h : m.map Prod.fst = List.range n)
    (h' : m'.map Prod.fst = List.range n) (hr : ∀ i, i < n → Memory.read m i = Memory.read m' i) : m = m' := by
  have hl : m.length = n := by simpa using congrArg List.length h
  have hl' : m'.length = n := by simpa using congrArg List.length h'
  refine List.ext_getElem (by omega) fun i h1 h2 => Prod.ext ?_ ?_
  · have e : (m.map Prod.fst)[i]? = (m'.map Prod.fst)[i]? := by rw [h, h']
    simpa [h1, h2] using e
  · have e : (m.map Prod.snd)[i]? = (m'.map Prod.snd)[i]? := by
      rw [← Memory.read_getElem h (by omega), ← Memory.read_getElem h' (by omega), hr i (by omega)]
    simpa [h1, h2] using e

/-- Reading a cell that exists and holds a byte. -/
theorem pixRead_ok {i : Nat} {s : State} {v : Byte} (k : Byte → Flow) (hi : i < s.pixSize)
    (hv : Memory.read s.pix i = some v) : pixRead i s k = k v := by
  simp [pixRead, hi, hv]

/-- Writing a cell that exists and holds nothing. -/
theorem pixWrite_ok {i : Nat} {s : State} (v : Byte) (hi : i < s.pixSize) (hv : Memory.read s.pix i = none) :
    pixWrite i v s = .ok { s with pix := Memory.write i v s.pix } := by
  simp [pixWrite, hi, hv]

/-- A write that goes on wrote an unwritten cell of PIX; it never raises. -/
theorem pixWrite_cases (i : Nat) (v : Byte) (s : State) :
    (∃ f, pixWrite i v s = .stuck f) ∨
    (i < s.pixSize ∧ Memory.read s.pix i = none ∧ pixWrite i v s = .ok { s with pix := Memory.write i v s.pix }) := by
  unfold pixWrite
  split
  · next hi => split
               · exact .inl ⟨_, rfl⟩
               · next hv => exact .inr ⟨hi, hv, rfl⟩
  · exact .inl ⟨_, rfl⟩

/-- A read gives the machine a byte that the cell holds, or stops it. -/
theorem pixRead_cases (i : Nat) (s : State) (k : Byte → Flow) :
    (∃ f, pixRead i s k = .stuck f) ∨ ∃ v, i < s.pixSize ∧ Memory.read s.pix i = some v ∧ pixRead i s k = k v := by
  unfold pixRead
  split
  · next hi => split
               · next v hv => exact .inr ⟨v, hi, hv, rfl⟩
               · exact .inl ⟨_, rfl⟩
  · exact .inl ⟨_, rfl⟩

end Sys2Proof.Machine
end

