-- ==== Sys2Proof/Laws/Frames.lean ====
section
/-! SUPPORT. What reading, checking and counting a frame can do, and that a frame read from the stream (`frameRead`) and the
same frame given by its decoded fields (`frameTake`) leave the same state. -/

namespace Sys2Proof.Machine

/-- Reading a decoded frame: its length is illegal, or its body has no room, or its registers are written. -/
theorem frameTake_cases (tag : Tag) (data : List Byte) (crc : Word) (s : State) :
    (lengthLimit ≤ data.length ∧
      frameTake tag data crc s =
        .raised (raise (.wrongChunkLength data.length) { s with pos := s.pos + 4, len := BitVec.ofNat 32 data.length })) ∨
    (data.length < lengthLimit ∧ Cap.exceededBy s.params.chunkCap data.length = true ∧
      frameTake tag data crc s =
        .raised (raise .allocationFailure { s with pos := s.pos + 4, len := BitVec.ofNat 32 data.length })) ∨
    (data.length < lengthLimit ∧ Cap.exceededBy s.params.chunkCap data.length = false ∧
      frameTake tag data crc s = .ok (afterFrameRead tag data crc s)) := by
  unfold frameTake
  by_cases h1 : lengthLimit ≤ data.length
  · exact .inl ⟨h1, by simp [h1]⟩
  · by_cases h2 : Cap.exceededBy s.params.chunkCap data.length = true
    · exact .inr (.inl ⟨by omega, h2, by simp [h1, h2]⟩)
    · refine .inr (.inr ⟨by omega, by simpa using h2, ?_⟩)
      have hp : s.pos + 4 + (4 + data.length) + 4 = s.pos + (12 + data.length) := by omega
      simp [h1, h2, afterFrameRead, hp]

/-- The CRC comparison: the collaborator hangs, or the CRCs differ, or the frame passes. -/
theorem frameCheck_cases (s : State) :
    (crc32 s.params.crcUnit s.body = none ∧ frameCheck s = .stuck .crcNoAnswer) ∨
    ∃ computed, crc32 s.params.crcUnit s.body = some computed ∧
      ((computed ≠ s.crcS ∧
          frameCheck s =
            .raised (raise (.crcMismatch s.crcS computed s.chunkIndex)
              { s with crcAcc := crcAccOf s.params.crcUnit s.body, crcC := computed })) ∨
        (computed = s.crcS ∧
          frameCheck s = .ok { s with crcAcc := crcAccOf s.params.crcUnit s.body, crcC := computed })) := by
  unfold frameCheck
  split
  · next h => exact .inl ⟨h, rfl⟩
  · next computed h =>
    refine .inr ⟨computed, h, ?_⟩
    by_cases hc : computed = s.crcS
    · exact .inr ⟨hc, by simp [hc]⟩
    · exact .inl ⟨hc, by simp [hc]⟩

/-- An accepted frame has the effect of its kind and is counted if that raised nothing (R125). -/
theorem frameStep_accepted {tag : Tag} {data : List Byte} {crc : Word} {s : State} (effect : List Byte → State → Flow)
    (h : FrameAccepted tag data crc s) :
    frameStep tag data crc effect s = (effect data (afterFrameCheck tag data crc crc s)).andThen countFrame := by
  have ht : frameTake tag data crc s = .ok (afterFrameRead tag data crc s) := by
    rcases frameTake_cases tag data crc s with ⟨h1, -⟩ | ⟨-, h2, -⟩ | ⟨-, -, h3⟩
    · exact absurd h.length (by omega)
    · rw [h.room] at h2; cases h2
    · exact h3
  have hc : frameCheck (afterFrameRead tag data crc s) = .ok (afterFrameCheck tag data crc crc s) := by
    have hcrc : crc32 (afterFrameRead tag data crc s).params.crcUnit (afterFrameRead tag data crc s).body = some crc := h.crc
    have hs : (afterFrameRead tag data crc s).crcS = crc := rfl
    simp only [frameCheck, hcrc, hs, ne_eq, not_true_eq_false, if_false]
    rfl
  simp only [frameStep, ht, andThen_ok, hc]

/-- A frame whose stored CRC is not the computed one raises `CrcMismatch` whatever its kind (R124). -/
theorem frameStep_mismatch {tag : Tag} {data : List Byte} {crc computed : Word} {s : State}
    (effect : List Byte → State → Flow) (hl : data.length < lengthLimit)
    (hr : Cap.exceededBy s.params.chunkCap data.length = false)
    (hc : crc32 s.params.crcUnit (tag.bytes ++ data) = some computed) (hne : computed ≠ crc) :
    frameStep tag data crc effect s =
      .raised (raise (.crcMismatch crc computed s.chunkIndex) (afterFrameCheck tag data crc computed s)) := by
  have ht : frameTake tag data crc s = .ok (afterFrameRead tag data crc s) := by
    rcases frameTake_cases tag data crc s with ⟨h1, -⟩ | ⟨-, h2, -⟩ | ⟨-, -, h3⟩
    · omega
    · rw [hr] at h2; cases h2
    · exact h3
  have hcheck : frameCheck (afterFrameRead tag data crc s) =
      .raised (raise (.crcMismatch crc computed s.chunkIndex) (afterFrameCheck tag data crc computed s)) := by
    have hcrc : crc32 (afterFrameRead tag data crc s).params.crcUnit (afterFrameRead tag data crc s).body = some computed := hc
    have hs : (afterFrameRead tag data crc s).crcS = crc := rfl
    simp only [frameCheck, hcrc, hs, ne_eq, hne, not_false_eq_true, if_true]
    rfl
  simp only [frameStep, ht, andThen_ok, hcheck, andThen_raised]

/-- Everything a frame step can do: the model stops for want of a CRC; or it raises in `frame_read`, at the CRC comparison or
in its effect; or its effect goes on and the frame is counted. -/
theorem frameStep_cases (tag : Tag) (data : List Byte) (crc : Word) (effect : List Byte → State → Flow) (s : State) :
    (∃ f, frameStep tag data crc effect s = .stuck f) ∨
    (∃ e, frameStep tag data crc effect s =
        .raised (raise e { s with pos := s.pos + 4, len := BitVec.ofNat 32 data.length })) ∨
    (∃ e computed, frameStep tag data crc effect s = .raised (raise e (afterFrameCheck tag data crc computed s))) ∨
    (FrameAccepted tag data crc s ∧
      frameStep tag data crc effect s = (effect data (afterFrameCheck tag data crc crc s)).andThen countFrame) := by
  by_cases hl : data.length < lengthLimit
  · by_cases hr : Cap.exceededBy s.params.chunkCap data.length = false
    · rcases hc : crc32 s.params.crcUnit (tag.bytes ++ data) with _ | computed
      · refine .inl ⟨.crcNoAnswer, ?_⟩
        have hcrc : crc32 (afterFrameRead tag data crc s).params.crcUnit (afterFrameRead tag data crc s).body = none := hc
        rcases frameTake_cases tag data crc s with ⟨h1, -⟩ | ⟨-, h2, -⟩ | ⟨-, -, h3⟩
        · omega
        · rw [hr] at h2; cases h2
        · simp [frameStep, h3, frameCheck, hcrc]
      · by_cases he : computed = crc
        · subst he
          have ha : FrameAccepted tag data computed s := ⟨hl, hr, hc⟩
          exact .inr (.inr (.inr ⟨ha, frameStep_accepted effect ha⟩))
        · exact .inr (.inr (.inl ⟨_, _, frameStep_mismatch effect hl hr hc he⟩))
    · rcases frameTake_cases tag data crc s with ⟨h1, -⟩ | ⟨-, -, h3⟩ | ⟨-, h2, -⟩
      · omega
      · exact .inr (.inl ⟨_, by rw [frameStep, h3]; rfl⟩)
      · exact absurd h2 hr
  · rcases frameTake_cases tag data crc s with ⟨-, h3⟩ | ⟨h1, -⟩ | ⟨h1, -⟩
    · exact .inr (.inl ⟨_, by rw [frameStep, h3]; rfl⟩)
    · omega
    · omega

/-! ### The stream and the decoded fields -/

theorem length_frameBytes (tag : Tag) (data : List Byte) (crc : Word) :
    (frameBytes tag data crc).length = 12 + data.length := by
  simp only [frameBytes, List.length_append, length_be32Bytes, length_tagBytes]; omega

/-- The three reads of `frame_read` find the fields of a frame that stands at `pos`. -/
theorem frame_fields {src rest : List Byte} {pos : Nat} {tag : Tag} {data : List Byte} {crc : Word}
    (h : src.drop pos = frameBytes tag data crc ++ rest) :
    (src.drop pos).take 4 = be32Bytes (BitVec.ofNat 32 data.length) ∧
    (src.drop (pos + 4)).take (4 + data.length) = tag.bytes ++ data ∧
    (src.drop (pos + 4 + (4 + data.length))).take 4 = be32Bytes crc ∧
    pos + (12 + data.length) ≤ src.length := by
  have e1 : src.drop pos = be32Bytes (BitVec.ofNat 32 data.length) ++ ((tag.bytes ++ data) ++ (be32Bytes crc ++ rest)) := by
    rw [h]; simp [frameBytes, List.append_assoc]
  have e2 : src.drop (pos + 4) = (tag.bytes ++ data) ++ (be32Bytes crc ++ rest) := by
    rw [← List.drop_drop, e1]; exact List.drop_left' rfl
  have e3 : src.drop (pos + 4 + (4 + data.length)) = be32Bytes crc ++ rest := by
    rw [← List.drop_drop, e2]; exact List.drop_left' (by simp)
  refine ⟨by rw [e1]; exact List.take_left' rfl, by rw [e2]; exact List.take_left' (by simp), by
    rw [e3]; exact List.take_left' rfl, ?_⟩
  have hlen := congrArg List.length h
  rw [List.length_drop, List.length_append, length_frameBytes] at hlen
  omega

/-- A frame read from the stream leaves what the same frame, decoded, leaves. -/
theorem frameRead_eq_frameTake {s : State} {rest : List Byte} {tag : Tag} {data : List Byte} {crc : Word}
    (ha : s.params.srcAnswers = .inf) (hl : data.length < lengthLimit)
    (h : s.params.src.drop s.pos = frameBytes tag data crc ++ rest) :
    frameRead s = frameTake tag data crc s := by
  obtain ⟨f1, f2, f3, f4⟩ := frame_fields h
  have hlen : s.pos + (12 + data.length) ≤ s.srcLen := f4
  have hl' : ¬ lengthLimit ≤ data.length := by omega
  rw [frameRead, srcRead_ok _ (by rw [ha]; rfl) (by omega), f1]
  simp only [toNat_lengthField hl, frameTake, hl', if_false, be32_be32Bytes]
  by_cases hc : Cap.exceededBy s.params.chunkCap data.length = true
  · simp only [hc, if_true]
  · simp only [hc, Bool.false_eq_true, if_false]
    rw [srcRead_ok _ (by show Cap.exceededBy s.params.srcAnswers _ = _; rw [ha]; rfl)
      (by show s.pos + 4 + (4 + data.length) ≤ s.srcLen; omega)]
    rw [srcRead_ok _ (by show Cap.exceededBy s.params.srcAnswers _ = _; rw [ha]; rfl)
      (by show s.pos + 4 + (4 + data.length) + 4 ≤ s.srcLen; omega)]
    simp only [f2, f3, be32_be32Bytes]

/-- What `frame_read` accepts is a frame standing at `pos`, and it leaves what the decoded frame leaves. -/
theorem frameRead_ok {s t : State} (h : frameRead s = .ok t) :
    ∃ tag data crc rest, data.length < lengthLimit ∧
      s.params.src.drop s.pos = frameBytes tag data crc ++ rest ∧ frameTake tag data crc s = .ok t := by
  have hdrop : ∀ (k n : Nat), k + n ≤ s.params.src.length → ((s.params.src.drop k).take n).length = n := fun k n hk => by
    rw [List.length_take, List.length_drop]; omega
  unfold frameRead at h
  rcases srcRead_cases 4 s _ with ⟨-, h1⟩ | ⟨-, -, h1⟩ | ⟨-, hp1, h1⟩
  · rw [h1] at h; cases h
  · rw [h1] at h; cases h
  rw [h1] at h
  have hp1' : s.pos + 4 ≤ s.params.src.length := hp1
  obtain ⟨l0, l1, l2, l3, hlf⟩ : ∃ l0 l1 l2 l3, (s.params.src.drop s.pos).take 4 = [l0, l1, l2, l3] := by
    have := hdrop s.pos 4 hp1'
    match hh : (s.params.src.drop s.pos).take 4 with
    | [x0, x1, x2, x3] => exact ⟨x0, x1, x2, x3, rfl⟩
    | [] | [_] | [_, _] | [_, _, _] | _ :: _ :: _ :: _ :: _ :: _ => rw [hh] at this; simp at this
  rw [hlf] at h
  set n := (be32 [l0, l1, l2, l3]).toNat with hn
  simp only at h
  split at h
  · cases h
  next hlim =>
  split at h
  · cases h
  next hcap =>
  rcases srcRead_cases (4 + n) { s with pos := s.pos + 4, len := be32 [l0, l1, l2, l3] } _ with
    ⟨-, h2⟩ | ⟨-, -, h2⟩ | ⟨-, hp2, h2⟩
  · rw [h2] at h; cases h
  · rw [h2] at h; cases h
  rw [h2] at h
  have hp2' : s.pos + 4 + (4 + n) ≤ s.params.src.length := hp2
  simp only at h
  rcases srcRead_cases 4
    { s with pos := s.pos + 4 + (4 + n), len := be32 [l0, l1, l2, l3],
             body := (s.params.src.drop (s.pos + 4)).take (4 + n) } _ with ⟨-, h3⟩ | ⟨-, -, h3⟩ | ⟨-, hp3, h3⟩
  · rw [h3] at h; cases h
  · rw [h3] at h; cases h
  rw [h3] at h
  have hp3' : s.pos + 4 + (4 + n) + 4 ≤ s.params.src.length := hp3
  obtain ⟨c0, c1, c2, c3, hcf⟩ :
      ∃ c0 c1 c2 c3, (s.params.src.drop (s.pos + 4 + (4 + n))).take 4 = [c0, c1, c2, c3] := by
    have := hdrop (s.pos + 4 + (4 + n)) 4 hp3'
    match hh : (s.params.src.drop (s.pos + 4 + (4 + n))).take 4 with
    | [x0, x1, x2, x3] => exact ⟨x0, x1, x2, x3, rfl⟩
    | [] | [_] | [_, _] | [_, _, _] | _ :: _ :: _ :: _ :: _ :: _ => rw [hh] at this; simp at this
  have hbody := hdrop (s.pos + 4) (4 + n) hp2'
  obtain ⟨t0, t1, t2, t3, data, hb⟩ :
      ∃ t0 t1 t2 t3 data, (s.params.src.drop (s.pos + 4)).take (4 + n) = t0 :: t1 :: t2 :: t3 :: data := by
    match hh : (s.params.src.drop (s.pos + 4)).take (4 + n) with
    | x0 :: x1 :: x2 :: x3 :: d => exact ⟨x0, x1, x2, x3, d, rfl⟩
    | [] | [_] | [_, _] | [_, _, _] => rw [hh] at hbody; simp at hbody; omega
  have hdata : data.length = n := by rw [hb] at hbody; simp at hbody; omega
  have hln : BitVec.ofNat 32 n = be32 [l0, l1, l2, l3] := by rw [hn, BitVec.ofNat_toNat, BitVec.setWidth_eq]
  refine ⟨⟨t0, t1, t2, t3⟩, data, be32 [c0, c1, c2, c3], s.params.src.drop (s.pos + 4 + (4 + n) + 4), by omega, ?_, ?_⟩
  · rw [frameBytes, hdata, hln, be32Bytes_be32, be32Bytes_be32, ← hlf, ← hcf]
    have hb' : Tag.bytes ⟨t0, t1, t2, t3⟩ ++ data = (s.params.src.drop (s.pos + 4)).take (4 + n) := by
      rw [hb]; rfl
    rw [List.append_assoc, List.append_assoc, List.append_assoc, ← List.append_assoc (Tag.bytes _), hb']
    rw [← List.drop_drop (i := 4) (j := s.pos + 4 + (4 + n)), List.take_append_drop]
    rw [← List.drop_drop (i := 4 + n) (j := s.pos + 4), List.take_append_drop]
    rw [← List.drop_drop (i := 4) (j := s.pos), List.take_append_drop]
  · rw [hcf, hb] at h
    have hcap' : Cap.exceededBy s.params.chunkCap n = false := by simpa using hcap
    have hlim' : ¬ lengthLimit ≤ n := hlim
    simp only [frameTake, hdata, hlim', if_false, hcap', Bool.false_eq_true, hln]
    exact h

end Sys2Proof.Machine
end

