-- ==== Sys2Proof/Laws/Scanlines.lean ====
section
/-! SUPPORT. What a byte, a row and a scanline step of the defilter engine do from a state whose earlier scanlines are
reconstructed, with the frame, and what they can do from any state. -/

namespace Sys2Proof.Machine

/-! ### Frame bookkeeping -/

theorem SameButEngine.refl (s : State) : SameButEngine s s := rfl

theorem SameButEngine.trans {s t u : State} (h1 : SameButEngine s t) (h2 : SameButEngine t u) : SameButEngine s u := by
  unfold SameButEngine at *
  rw [h2, h1]

theorem SameButEngine.row {s t : State} (h : SameButEngine s t) : t.row = s.row := by rw [h]
theorem SameButEngine.stride {s t : State} (h : SameButEngine s t) : t.stride = s.stride := by rw [h]
theorem SameButEngine.height {s t : State} (h : SameButEngine s t) : t.height = s.height := by rw [h]
theorem SameButEngine.pixSize {s t : State} (h : SameButEngine s t) : t.pixSize = s.pixSize := by rw [h]

/-! ### One byte -/

/-- The state after the byte (`row`, `col`) is reconstructed from `x` and its neighbours. -/
def afterByte (predict : Byte → Byte → Byte → Nat) (col : Nat) (x a b ul : Byte) (s : State) : State :=
  shiftBuffers col b (recon x (predict a b ul))
    { s with
      col := col, x := x, a := a, b := b, ul := ul,
      pix := Memory.write (s.row * s.stride + col) (recon x (predict a b ul)) s.pix }

theorem afterByte_same (predict : Byte → Byte → Byte → Nat) (col : Nat) (x a b ul : Byte) (s : State) :
    SameButEngine s (afterByte predict col x a b ul s) := rfl

/-- Writing a byte back stops the model, or leaves `afterByte`. -/
theorem reconstruct_cases (predict : Byte → Byte → Byte → Nat) (col : Nat) (x a b ul : Byte) (s : State) :
    (∃ f, reconstruct predict col x a b ul s = .stuck f) ∨
    (s.row * s.stride + col < s.pixSize ∧ Memory.read s.pix (s.row * s.stride + col) = none ∧
      reconstruct predict col x a b ul s = .ok (afterByte predict col x a b ul s)) := by
  unfold reconstruct
  rcases pixWrite_cases (pixAddr s.stride s.row col) (recon x (predict a b ul))
    { s with col := col, x := x, a := a, b := b, ul := ul } with ⟨f, hf⟩ | ⟨hi, hv, hw⟩
  · exact .inl ⟨f, by simp only [hf, andThen_stuck]⟩
  · exact .inr ⟨hi, hv, by simp only [hw, andThen_ok]; rfl⟩

theorem readLeft_cases (col : Nat) (s : State) (k : Byte → Flow) :
    (∃ f, readLeft col s k = .stuck f) ∨ readLeft col s k = k (neighbourA s.pix s.stride s.row col) := by
  unfold readLeft neighbourA
  by_cases h : 4 ≤ col
  · rw [if_pos (show bpp ≤ col from h), if_pos h]
    rcases pixRead_cases (pixAddr s.stride s.row (col - bpp)) s k with ⟨f, hf⟩ | ⟨v, -, hv, hk⟩
    · exact .inl ⟨f, hf⟩
    · refine .inr (hk.trans ?_)
      rw [show Memory.read s.pix (s.row * s.stride + (col - 4)) = some v from hv]; rfl
  · rw [if_neg (show ¬ bpp ≤ col from h), if_neg h]; exact .inr rfl

theorem readAbove_cases (col : Nat) (s : State) (k : Byte → Flow) :
    (∃ f, readAbove col s k = .stuck f) ∨ readAbove col s k = k (neighbourB s.pix s.stride s.row col) := by
  unfold readAbove neighbourB
  by_cases h : 0 < s.row
  · rw [if_pos (show 1 ≤ s.row from h), if_pos h]
    rcases pixRead_cases (pixAddr s.stride (s.row - 1) col) s k with ⟨f, hf⟩ | ⟨v, -, hv, hk⟩
    · exact .inl ⟨f, hf⟩
    · refine .inr (hk.trans ?_)
      rw [show Memory.read s.pix ((s.row - 1) * s.stride + col) = some v from hv]; rfl
  · rw [if_neg (show ¬ 1 ≤ s.row from h), if_neg h]; exact .inr rfl

theorem readAboveLeft_cases (col : Nat) (s : State) (k : Byte → Flow) :
    (∃ f, readAboveLeft col s k = .stuck f) ∨ readAboveLeft col s k = k (neighbourUL s.pix s.stride s.row col) := by
  unfold readAboveLeft neighbourUL
  by_cases h : 0 < s.row ∧ 4 ≤ col
  · rw [if_pos (show 1 ≤ s.row ∧ bpp ≤ col from h), if_pos h]
    rcases pixRead_cases (pixAddr s.stride (s.row - 1) (col - bpp)) s k with ⟨f, hf⟩ | ⟨v, -, hv, hk⟩
    · exact .inl ⟨f, hf⟩
    · refine .inr (hk.trans ?_)
      rw [show Memory.read s.pix ((s.row - 1) * s.stride + (col - 4)) = some v from hv]; rfl
  · rw [if_neg (show ¬ (1 ≤ s.row ∧ bpp ≤ col) from h), if_neg h]; exact .inr rfl

/-- Everything one turn of the loop can do, from any state: stop the model, or write one unwritten cell. It never raises. -/
theorem defilterByte_cases (predict : Byte → Byte → Byte → Nat) (col : Nat) (x : Byte) (s : State) :
    (∃ f, defilterByte predict col x s = .stuck f) ∨
    (Memory.read s.pix (s.row * s.stride + col) = none ∧
      defilterByte predict col x s = .ok (afterByte predict col x (neighbourA s.pix s.stride s.row col)
        (neighbourB s.pix s.stride s.row col) (neighbourUL s.pix s.stride s.row col) s)) := by
  unfold defilterByte
  rcases readLeft_cases col s _ with ⟨f, hf⟩ | h1
  · exact .inl ⟨f, hf⟩
  rcases readAbove_cases col s _ with ⟨f, hf⟩ | h2
  · exact .inl ⟨f, h1.trans hf⟩
  rcases readAboveLeft_cases col s _ with ⟨f, hf⟩ | h3
  · exact .inl ⟨f, h1.trans (h2.trans hf)⟩
  rcases reconstruct_cases predict col x (neighbourA s.pix s.stride s.row col) (neighbourB s.pix s.stride s.row col)
    (neighbourUL s.pix s.stride s.row col) s with ⟨f, hf⟩ | ⟨-, hv, hr⟩
  · exact .inl ⟨f, h1.trans (h2.trans (h3.trans hf))⟩
  · exact .inr ⟨hv, h1.trans (h2.trans (h3.trans hr))⟩

/-- PIX is ready for byte (`row`, `col`): everything before it is written and nothing from it on. -/
structure ByteReady (s : State) (col : Nat) : Prop where
  size : (s.row + 1) * s.stride ≤ s.pixSize
  cells : s.pix.map Prod.fst = List.range (s.row * s.stride + col)

/-- From a ready state a turn of the loop goes on. -/
theorem defilterByte_ok (predict : Byte → Byte → Byte → Nat) {col : Nat} (x : Byte) {s : State} (h : ByteReady s col)
    (hc : col < s.stride) :
    defilterByte predict col x s = .ok (afterByte predict col x (neighbourA s.pix s.stride s.row col)
      (neighbourB s.pix s.stride s.row col) (neighbourUL s.pix s.stride s.row col) s) := by
  have hsize : s.row * s.stride + s.stride ≤ s.pixSize := by have := h.size; rw [Nat.add_mul, one_mul] at this; exact this
  have hread : ∀ i, i < s.row * s.stride + col → ∃ v, i < s.pixSize ∧ Memory.read s.pix i = some v := fun i hi => by
    obtain ⟨v, hv⟩ := (Memory.read_of_range h.cells i).1 hi
    exact ⟨v, by omega, hv⟩
  have hprev : 0 < s.row → (s.row - 1) * s.stride + s.stride = s.row * s.stride := fun hr => by
    obtain ⟨r, hr'⟩ : ∃ r, s.row = r + 1 := ⟨s.row - 1, by omega⟩
    rw [hr', Nat.add_sub_cancel, Nat.add_mul, one_mul]
  have h1 : ∀ k, readLeft col s k = k (neighbourA s.pix s.stride s.row col) := fun k => by
    unfold readLeft neighbourA
    by_cases h4 : 4 ≤ col
    · rw [if_pos (show bpp ≤ col from h4), if_pos h4]
      obtain ⟨v, hi, hv⟩ := hread (s.row * s.stride + (col - 4)) (by omega)
      rw [hv]
      exact pixRead_ok k hi hv
    · rw [if_neg (show ¬ bpp ≤ col from h4), if_neg h4]
  have h2 : ∀ k, readAbove col s k = k (neighbourB s.pix s.stride s.row col) := fun k => by
    unfold readAbove neighbourB
    by_cases hr : 0 < s.row
    · rw [if_pos (show 1 ≤ s.row from hr), if_pos hr]
      obtain ⟨v, hi, hv⟩ := hread ((s.row - 1) * s.stride + col) (by have := hprev hr; omega)
      rw [hv]
      exact pixRead_ok k hi hv
    · rw [if_neg (show ¬ 1 ≤ s.row from hr), if_neg hr]
  have h3 : ∀ k, readAboveLeft col s k = k (neighbourUL s.pix s.stride s.row col) := fun k => by
    unfold readAboveLeft neighbourUL
    by_cases hr : 0 < s.row ∧ 4 ≤ col
    · rw [if_pos (show 1 ≤ s.row ∧ bpp ≤ col from hr), if_pos hr]
      obtain ⟨v, hi, hv⟩ := hread ((s.row - 1) * s.stride + (col - 4)) (by have := hprev hr.1; omega)
      rw [hv]
      exact pixRead_ok k hi hv
    · rw [if_neg (show ¬ (1 ≤ s.row ∧ bpp ≤ col) from hr), if_neg hr]
  unfold defilterByte
  rw [h1, h2, h3]
  rcases reconstruct_cases predict col x (neighbourA s.pix s.stride s.row col) (neighbourB s.pix s.stride s.row col)
    (neighbourUL s.pix s.stride s.row col) s with ⟨f, hf⟩ | ⟨-, -, hr⟩
  · exfalso
    have hw := pixWrite_ok (i := pixAddr s.stride s.row col)
      (s := { s with col := col, x := x, a := neighbourA s.pix s.stride s.row col,
                     b := neighbourB s.pix s.stride s.row col, ul := neighbourUL s.pix s.stride s.row col })
      (recon x (predict (neighbourA s.pix s.stride s.row col) (neighbourB s.pix s.stride s.row col)
        (neighbourUL s.pix s.stride s.row col)))
      (show s.row * s.stride + col < s.pixSize by omega) ((Memory.read_of_range h.cells _).2 (le_refl _))
    simp only [reconstruct, hw, andThen_ok] at hf
    cases hf
  · exact hr

/-- After a byte PIX is ready for the next one. -/
theorem afterByte_ready (predict : Byte → Byte → Byte → Nat) {col : Nat} (x a b ul : Byte) {s : State}
    (h : ByteReady s col) : ByteReady (afterByte predict col x a b ul s) (col + 1) :=
  ⟨h.size, by
    show (Memory.write _ _ s.pix).map Prod.fst = List.range (s.row * s.stride + (col + 1))
    rw [(Memory.write_next _ h.cells).2, Nat.add_assoc]⟩

/-! ### One row -/

/-- A loop over the rest of a row, from a ready state: it goes on, changes nothing but the engine's registers and the cells of
the row, and the cells of the row hold the reconstruction of R182, with the neighbours that PIX then holds. -/
theorem defilterRow_ok (predict : Byte → Byte → Byte → Nat) (xs : List Byte) {col : Nat} {s : State} (h : ByteReady s col)
    (hc : col + xs.length = s.stride) :
    ∃ t, defilterRow predict xs col s = .ok t ∧ SameButEngine s t ∧
      t.pix.map Prod.fst = List.range (s.row * s.stride + s.stride) ∧
      (∀ i, i < s.row * s.stride + col → Memory.read t.pix i = Memory.read s.pix i) ∧
      ∀ k (hk : k < xs.length), Memory.read t.pix (s.row * s.stride + (col + k)) =
        some (recon xs[k] (predict (neighbourA t.pix s.stride s.row (col + k)) (neighbourB t.pix s.stride s.row (col + k))
          (neighbourUL t.pix s.stride s.row (col + k)))) := by
  induction xs generalizing col s with
  | nil =>
    refine ⟨s, rfl, SameButEngine.refl s, ?_, fun _ _ => rfl, fun k hk => absurd hk (by simp)⟩
    rw [h.cells]; simp only [List.length_nil] at hc; rw [← hc]; simp
  | cons x xs ih =>
    have hcol : col < s.stride := by simp only [List.length_cons] at hc; omega
    set s1 := afterByte predict col x (neighbourA s.pix s.stride s.row col) (neighbourB s.pix s.stride s.row col)
      (neighbourUL s.pix s.stride s.row col) s with hs1
    have hb : defilterByte predict col x s = .ok s1 := defilterByte_ok predict x h hcol
    have hready : ByteReady s1 (col + 1) := afterByte_ready predict x _ _ _ h
    obtain ⟨t, ht, hsame, hcells, hold, hrow⟩ := ih hready (by
      show col + 1 + xs.length = s.stride
      simp only [List.length_cons] at hc; omega)
    have hread1 : ∀ i, i ≠ s.row * s.stride + col → Memory.read s1.pix i = Memory.read s.pix i := fun i hi =>
      Memory.read_write_other hi _ _
    have hkeep : ∀ i, i < s.row * s.stride + col → Memory.read t.pix i = Memory.read s.pix i := fun i hi => by
      rw [hold i (show i < s.row * s.stride + (col + 1) by omega), hread1 i (by omega)]
    have hprev : 0 < s.row → (s.row - 1) * s.stride + s.stride = s.row * s.stride := fun hr => by
      obtain ⟨r, hr'⟩ : ∃ r, s.row = r + 1 := ⟨s.row - 1, by omega⟩
      rw [hr', Nat.add_sub_cancel, Nat.add_mul, one_mul]
    refine ⟨t, by simp only [defilterRow, hb, andThen_ok, ht], (afterByte_same _ _ _ _ _ _ _).trans hsame, hcells, hkeep,
      fun k hk => ?_⟩
    match k with
    | 0 =>
      have hA : neighbourA t.pix s.stride s.row col = neighbourA s.pix s.stride s.row col := by
        unfold neighbourA; split
        · rw [hkeep _ (by omega)]
        · rfl
      have hB : neighbourB t.pix s.stride s.row col = neighbourB s.pix s.stride s.row col := by
        unfold neighbourB; split
        · next hr => rw [hkeep _ (by have := hprev hr; omega)]
        · rfl
      have hUL : neighbourUL t.pix s.stride s.row col = neighbourUL s.pix s.stride s.row col := by
        unfold neighbourUL; split
        · next hr => rw [hkeep _ (by have := hprev hr.1; omega)]
        · rfl
      simp only [Nat.add_zero, List.getElem_cons_zero, hA, hB, hUL]
      rw [hold _ (show s.row * s.stride + col < s.row * s.stride + (col + 1) by omega)]
      exact Memory.read_write_same _ _ _
    | k + 1 =>
      have := hrow k (by simpa using hk)
      have e : col + (k + 1) = col + 1 + k := by omega
      rw [e, List.getElem_cons_succ]
      exact this

/-- Everything a loop can do, from any state: stop the model, or write cells that were unwritten and nothing else of PIX. It
never raises. -/
theorem defilterRow_cases (predict : Byte → Byte → Byte → Nat) (xs : List Byte) (col : Nat) (s : State) :
    (∃ f, defilterRow predict xs col s = .stuck f) ∨
    ∃ t, defilterRow predict xs col s = .ok t ∧ SameButEngine s t ∧
      (∀ i v, Memory.read s.pix i = some v → Memory.read t.pix i = some v) ∧
      (∀ i, i < s.row * s.stride + col ∨ s.row * s.stride + col + xs.length ≤ i →
        Memory.read t.pix i = Memory.read s.pix i) ∧
      (Memory.wf s.pix = true → Memory.wf t.pix = true) := by
  induction xs generalizing col s with
  | nil => exact .inr ⟨s, rfl, SameButEngine.refl s, fun _ _ h => h, fun _ _ => rfl, id⟩
  | cons x xs ih =>
    rcases defilterByte_cases predict col x s with ⟨f, hf⟩ | ⟨hv, hb⟩
    · exact .inl ⟨f, by simp only [defilterRow, hf, andThen_stuck]⟩
    set s1 := afterByte predict col x (neighbourA s.pix s.stride s.row col) (neighbourB s.pix s.stride s.row col)
      (neighbourUL s.pix s.stride s.row col) s with hs1
    have hread1 : ∀ i, i ≠ s.row * s.stride + col → Memory.read s1.pix i = Memory.read s.pix i := fun i hi =>
      Memory.read_write_other hi _ _
    rcases ih (col + 1) s1 with ⟨f, hf⟩ | ⟨t, ht, hsame, hkeep, hout, hwf⟩
    · exact .inl ⟨f, by simp only [defilterRow, hb, andThen_ok, hf]⟩
    · refine .inr ⟨t, by simp only [defilterRow, hb, andThen_ok, ht], (afterByte_same _ _ _ _ _ _ _).trans hsame,
        fun i v hi => ?_, fun i hi => ?_, fun h => hwf (Memory.wf_write _ _ h)⟩
      · refine hkeep i v ?_
        rw [hread1 i (by rintro rfl; rw [hv] at hi; cases hi), hi]
      · simp only [List.length_cons] at hi
        rw [hout i (show i < s.row * s.stride + (col + 1) ∨ s.row * s.stride + (col + 1) + xs.length ≤ i by omega),
          hread1 i (by omega)]

/-! ### One scanline -/

theorem finishRow_cases (s : State) :
    (s.row + 1 = s.height.toNat ∧ finishRow s = .ok { s with row := s.row + 1, phase := .done, done := true }) ∨
    (s.row + 1 ≠ s.height.toNat ∧ finishRow s = .ok { s with row := s.row + 1 }) := by
  unfold finishRow
  by_cases h : s.row + 1 = s.height.toNat
  · exact .inl ⟨h, by simp only [h, if_true]; rfl⟩
  · exact .inr ⟨h, by simp only [h, if_false]⟩

/-- The phase and the flag after a scanline step. -/
def afterRowPhase (s : State) : Phase := if s.row + 1 = s.height.toNat then .done else s.phase

def afterRowDone (s : State) : Bool := if s.row + 1 = s.height.toNat then true else s.done

theorem finishRow_eq (s : State) :
    finishRow s = .ok { s with row := s.row + 1, phase := afterRowPhase s, done := afterRowDone s } := by
  rcases finishRow_cases s with ⟨h, hf⟩ | ⟨h, hf⟩
  · rw [hf]; simp [afterRowPhase, afterRowDone, h]
  · rw [hf]; simp [afterRowPhase, afterRowDone, h]

/-- `t` is what a scanline step of filter type `ft` may leave of `s`: the next row, the phase and `done` as R195 says, `FILT`,
the engine's registers and the cells of PIX; nothing else. -/
def AfterScanline (ft : Byte) (s t : State) : Prop :=
  t = { s with
        row := s.row + 1, phase := afterRowPhase s, done := afterRowDone s, filt := ft, col := t.col, x := t.x, a := t.a,
        b := t.b, ul := t.ul, line := t.line, left := t.left, upleft := t.upleft, pix := t.pix }

theorem afterScanline_of_same {ft : Byte} {s u : State} (h : SameButEngine (clearBuffers { s with filt := ft }) u) :
    AfterScanline ft s { u with row := u.row + 1, phase := afterRowPhase u, done := afterRowDone u } := by
  unfold AfterScanline
  rw [h]
  rfl

/-- A scanline step from a ready state. -/
theorem scanlineStep_ok (ft : Byte) (predict : Byte → Byte → Byte → Nat) {xs : List Byte} {s : State} (h : s.RowReady)
    (hx : xs.length = s.stride) :
    ∃ t, scanlineStep ft predict xs s = .ok t ∧ AfterScanline ft s t ∧
      t.pix.map Prod.fst = List.range ((s.row + 1) * s.stride) ∧
      (∀ i, i < s.row * s.stride → Memory.read t.pix i = Memory.read s.pix i) ∧
      ∀ k (hk : k < xs.length), Memory.read t.pix (s.row * s.stride + k) =
        some (recon xs[k] (predict (neighbourA t.pix s.stride s.row k) (neighbourB t.pix s.stride s.row k)
          (neighbourUL t.pix s.stride s.row k))) := by
  have hready : ByteReady (clearBuffers { s with filt := ft }) 0 := by
    refine ⟨?_, h.pix.cells⟩
    show (s.row + 1) * s.stride ≤ s.pixSize
    rw [h.pix.size]
    exact Nat.mul_le_mul_right _ h.inImage
  obtain ⟨u, hu, hsame, hcells, hold, hrow⟩ := defilterRow_ok predict xs hready (by
    show 0 + xs.length = s.stride
    omega)
  refine ⟨{ u with row := u.row + 1, phase := afterRowPhase u, done := afterRowDone u }, ?_, afterScanline_of_same hsame,
    ?_, fun i hi => ?_, fun k hk => ?_⟩
  · simp only [scanlineStep, hx, ne_eq, not_true_eq_false, if_false, hu, andThen_ok, finishRow_eq]
  · show u.pix.map Prod.fst = _
    rw [hcells, Nat.add_mul, one_mul]; rfl
  · exact hold i hi
  · have := hrow k hk
    simpa using this

/-- Everything a scanline step can do, from any state: stop the model, or leave `AfterScanline`, with the written cells kept
and nothing written outside the row. It never raises. -/
theorem scanlineStep_cases (ft : Byte) (predict : Byte → Byte → Byte → Nat) (xs : List Byte) (s : State) :
    (∃ f, scanlineStep ft predict xs s = .stuck f) ∨
    (xs.length = s.stride ∧ ∃ t, scanlineStep ft predict xs s = .ok t ∧ AfterScanline ft s t ∧
      (∀ i v, Memory.read s.pix i = some v → Memory.read t.pix i = some v) ∧
      (∀ i, i < s.row * s.stride ∨ s.row * s.stride + s.stride ≤ i → Memory.read t.pix i = Memory.read s.pix i) ∧
      (Memory.wf s.pix = true → Memory.wf t.pix = true)) := by
  by_cases hx : xs.length = s.stride
  · rcases defilterRow_cases predict xs 0 (clearBuffers { s with filt := ft }) with ⟨f, hf⟩ | ⟨u, hu, hsame, hkeep, hout, hwf⟩
    · exact .inl ⟨f, by simp only [scanlineStep, hx, ne_eq, not_true_eq_false, if_false, hf, andThen_stuck]⟩
    · refine .inr ⟨hx, { u with row := u.row + 1, phase := afterRowPhase u, done := afterRowDone u }, ?_,
        afterScanline_of_same hsame, hkeep, fun i hi => hout i ?_, hwf⟩
      · simp only [scanlineStep, hx, ne_eq, not_true_eq_false, if_false, hu, andThen_ok, finishRow_eq]
      · show i < s.row * s.stride + 0 ∨ s.row * s.stride + 0 + xs.length ≤ i
        omega
  · exact .inl ⟨.scanlineLength xs.length s.stride, by simp only [scanlineStep, ne_eq, hx, not_false_eq_true, if_true]⟩

/-! ### The hidden buffers -/

theorem getD_set_same (l : List Byte) (k : Nat) (v d : Byte) (h : k < l.length) : (l.set k v).getD k d = v := by
  simp [List.getD, h]

theorem getD_set_other (l : List Byte) {k j : Nat} (v d : Byte) (h : k ≠ j) : (l.set k v).getD j d = l.getD j d := by
  simp [List.getD, h]

/-- The invariant of R193 goes from a byte to the next. -/
theorem afterByte_buffers (predict : Byte → Byte → Byte → Nat) {col : Nat} (x : Byte) {s : State} (h : ByteReady s col)
    (hc : col < s.stride) (hb : s.BuffersHold col) :
    (afterByte predict col x (neighbourA s.pix s.stride s.row col) (neighbourB s.pix s.stride s.row col)
      (neighbourUL s.pix s.stride s.row col) s).BuffersHold (col + 1) := by
  set v := recon x (predict (neighbourA s.pix s.stride s.row col) (neighbourB s.pix s.stride s.row col)
      (neighbourUL s.pix s.stride s.row col)) with hv
  set t := afterByte predict col x (neighbourA s.pix s.stride s.row col) (neighbourB s.pix s.stride s.row col)
      (neighbourUL s.pix s.stride s.row col) s with ht
  have hpix : t.pix = Memory.write (s.row * s.stride + col) v s.pix := rfl
  have hline : t.line = s.line.set col v := rfl
  have hleft : t.left = s.left.set (col % 4) v := rfl
  have hup : t.upleft = s.upleft.set (col % 4) (neighbourB s.pix s.stride s.row col) := rfl
  have hprev : 0 < s.row → (s.row - 1) * s.stride + s.stride = s.row * s.stride := fun hr => by
    obtain ⟨r, hr'⟩ : ∃ r, s.row = r + 1 := ⟨s.row - 1, by omega⟩
    rw [hr', Nat.add_sub_cancel, Nat.add_mul, one_mul]
  have hother : ∀ i, i ≠ s.row * s.stride + col → Memory.read t.pix i = Memory.read s.pix i := fun i hi => by
    rw [hpix]; exact Memory.read_write_other hi _ _
  have hB : ∀ j, j < s.stride → neighbourB t.pix s.stride s.row j = neighbourB s.pix s.stride s.row j := fun j hj => by
    unfold neighbourB
    split
    · next hr => rw [hother _ (by have := hprev hr; omega)]
    · rfl
  have hUL : ∀ j, j < s.stride → neighbourUL t.pix s.stride s.row j = neighbourUL s.pix s.stride s.row j := fun j hj => by
    unfold neighbourUL
    split
    · next hr => rw [hother _ (by have := hprev hr.1; omega)]
    · rfl
  refine ⟨by rw [hline, List.length_set]; exact hb.lineLength, by rw [hleft, List.length_set]; exact hb.leftLength,
    by rw [hup, List.length_set]; exact hb.upleftLength, fun j hj hjs => ?_, fun j hj hjs => ?_, fun c h1 h2 => ?_,
    fun c h1 h2 h3 => ?_⟩
  · show t.line[j]? = Memory.read t.pix (s.row * s.stride + j)
    replace hjs : j < s.stride := hjs
    by_cases hjc : j = col
    · subst hjc
      rw [hpix, Memory.read_write_same, hline, List.getElem?_set_self (by rw [hb.lineLength]; exact hc)]
    · rw [hother _ (by omega), hline, List.getElem?_set_ne (by omega)]
      exact hb.lineDone j (by omega) hjs
  · show t.line[j]? = some (neighbourB t.pix s.stride s.row j)
    replace hjs : j < s.stride := hjs
    rw [hB j hjs, hline, List.getElem?_set_ne (by omega)]
    exact hb.lineAhead j (by omega) hjs
  · show t.left.getD (c % 4) 0 = neighbourA t.pix s.stride s.row c
    rw [hleft]
    by_cases hcc : c = col + 4
    · subst hcc
      rw [Nat.add_mod_right, getD_set_same _ _ _ _ (by rw [hb.leftLength]; omega)]
      unfold neighbourA
      rw [if_pos (by omega), Nat.add_sub_cancel, hpix, Memory.read_write_same]
      rfl
    · rw [getD_set_other _ _ _ (by omega), hb.left c (by omega) (by omega)]
      unfold neighbourA
      split
      · rw [hother _ (by omega)]
      · rfl
  · show t.upleft.getD (c % 4) 0 = neighbourUL t.pix s.stride s.row c
    replace h3 : c < s.stride := h3
    rw [hup, hUL c h3]
    by_cases hcc : c = col + 4
    · subst hcc
      rw [Nat.add_mod_right, getD_set_same _ _ _ _ (by rw [hb.upleftLength]; omega)]
      unfold neighbourB neighbourUL
      by_cases hr : 0 < s.row
      · rw [if_pos hr, if_pos ⟨hr, by omega⟩, Nat.add_sub_cancel]
      · rw [if_neg hr, if_neg (by tauto)]
    · rw [getD_set_other _ _ _ (by omega)]
      exact hb.upleft c (by omega) (by omega) h3

/-- The hidden buffers at the start of a scanline meet R193's invariant. -/
theorem clearBuffers_buffers {s : State} (hl : s.LineReady) : (clearBuffers s).BuffersHold 0 := by
  refine ⟨?_, rfl, rfl, fun j hj => absurd hj (by omega), fun j _ hj => ?_, fun c _ h2 => ?_, fun c _ h2 _ => ?_⟩
  · show (if s.row = 0 then List.replicate s.stride 0 else s.line).length = s.stride
    split
    · simp
    · next h => exact (hl (by omega)).1
  · show (if s.row = 0 then List.replicate s.stride 0 else s.line)[j]? = some (neighbourB s.pix s.stride s.row j)
    replace hj : j < s.stride := hj
    unfold neighbourB
    split
    · next h => rw [if_neg (by omega)]; simp [hj]
    · next h =>
      have hr : 0 < s.row := by omega
      have hlr := hl hr
      have := hlr.2 j hj
      rw [if_pos hr]
      unfold pixAddr at this
      rw [this, List.getElem?_eq_getElem (by rw [hlr.1]; exact hj)]
      rfl
  · have h0 : ∀ k, ([0, 0, 0, 0] : List Byte).getD k 0 = 0 := fun k => by
      match k with | 0 | 1 | 2 | 3 => rfl | k + 4 => rfl
    show ([0, 0, 0, 0] : List Byte).getD (c % 4) 0 = neighbourA s.pix s.stride s.row c
    rw [h0]; unfold neighbourA; rw [if_neg (by omega)]
  · have h0 : ∀ k, ([0, 0, 0, 0] : List Byte).getD k 0 = 0 := fun k => by
      match k with | 0 | 1 | 2 | 3 => rfl | k + 4 => rfl
    show ([0, 0, 0, 0] : List Byte).getD (c % 4) 0 = neighbourUL s.pix s.stride s.row c
    rw [h0]; unfold neighbourUL; rw [if_neg (by omega)]

end Sys2Proof.Machine
end

