-- ==== Sys2Proof/Laws/Step.lean ====
section
/-! SUPPORT. What a step can do, said once: the step of the chunk loop and of the engine in the spec's own words, and the
inversion of `step` (`step_inversion`), with every guard. -/

namespace Sys2Proof.Machine

/-! ### Frames: the kind a tag selects -/

/-- The effect of the kind a tag selects (R98, R150). -/
def effectOf (tag : Tag) : List Byte → State → Flow :=
  if tag = tagIHDR then doIhdr else if tag = tagIDAT then doIdat else if tag = tagIEND then doIend else doOther

theorem exec_frameKind (tag : Tag) (data : List Byte) (crc : Word) (s : State) :
    exec (frameKind tag data crc) s = (frameStep tag data crc (effectOf tag) s).outcome := by
  unfold frameKind effectOf
  split
  · next h => subst h; rfl
  split
  · next h => subst h; rfl
  split
  · next h => subst h; rfl
  · rfl

theorem tagBytes_inj {t u : Tag} (h : t.bytes = u.bytes) : t = u := by
  obtain ⟨a, b, c, d⟩ := t; obtain ⟨a', b', c', d'⟩ := u
  simpa [Tag.bytes] using h

/-- R150's dispatch on the tag bytes has the effect of the kind. -/
theorem dispatch_eq (tag : Tag) (data : List Byte) (s : State) : dispatch tag.bytes data s = effectOf tag data s := by
  unfold dispatch effectOf doIhdr
  by_cases h1 : tag = tagIHDR
  · subst h1; cases hv : s.hdrValid <;> simp [hv]
  · have h1' : tag.bytes ≠ tagIHDR.bytes := fun h => h1 (tagBytes_inj h)
    by_cases h2 : tag = tagIDAT
    · subst h2; simp [h1']; simp [tagIHDR, tagIDAT]
    · have h2' : tag.bytes ≠ tagIDAT.bytes := fun h => h2 (tagBytes_inj h)
      by_cases h3 : tag = tagIEND
      · subst h3; simp [h1', h2']; simp [tagIHDR, tagIDAT, tagIEND]
      · have h3' : tag.bytes ≠ tagIEND.bytes := fun h => h3 (tagBytes_inj h)
        simp [h1', h2', h3', h1, h2, h3]

theorem doIhdr_cases (data : List Byte) (s : State) :
    (∃ e, doIhdr data s = .raised (raise e s)) ∨ (s.hdrValid = true ∧ doIhdr data s = .ok s) ∨
    (s.hdrValid = false ∧ data.length = 13 ∧ headerFault (headerFields data) = none ∧
      doIhdr data s = .ok (commitHeader (headerFields data) s)) := by
  unfold doIhdr
  by_cases hv : s.hdrValid = true
  · exact .inr (.inl ⟨hv, by simp [hv, doIhdrLater]⟩)
  · have hv' : s.hdrValid = false := by simpa using hv
    unfold doIhdrFirst
    by_cases h13 : data.length = 13
    · rcases hf : headerFault (headerFields data) with _ | e
      · exact .inr (.inr ⟨hv', h13, rfl, by simp [hv', h13]⟩)
      · exact .inl ⟨e, by simp [hv', h13]⟩
    · exact .inl ⟨_, by simp [hv', h13]; rfl⟩

/-- Everything the effect of a frame can do: raise and change nothing else; change nothing; commit a legal header, of which
there was none; append the data; end the chunk loop. -/
theorem effectOf_cases (tag : Tag) (data : List Byte) (s : State) :
    (∃ e, effectOf tag data s = .raised (raise e s)) ∨ effectOf tag data s = .ok s ∨
    (s.hdrValid = false ∧ headerFault (headerFields data) = none ∧
      effectOf tag data s = .ok (commitHeader (headerFields data) s)) ∨
    effectOf tag data s = .ok { s with pay := s.pay ++ data, phase := .payloadAccumulating } ∨
    effectOf tag data s = .ok { s with phase := .endSeen } := by
  unfold effectOf
  split
  · rcases doIhdr_cases data s with h | ⟨-, h⟩ | ⟨hv, -, hf, h⟩
    · exact .inl h
    · exact .inr (.inl h)
    · exact .inr (.inr (.inl ⟨hv, hf, h⟩))
  split
  · rcases payAppend_cases data s with ⟨-, h⟩ | ⟨-, h⟩
    · exact .inl ⟨.allocationFailure, by simp only [doIdat, h, andThen_raised]⟩
    · exact .inr (.inr (.inr (.inl (by simp only [doIdat, h, andThen_ok]))))
  split
  · exact .inr (.inr (.inr (.inr rfl)))
  · exact .inr (.inl rfl)

/-- A header without fault has the legal values (R28, R153). -/
theorem headerFault_none {h : HeaderFields} (hf : headerFault h = none) :
    h.compressionMethod = 0 ∧ h.filterMethod = 0 ∧ h.colorType = 6 ∧ h.bitDepth = 8 ∧ h.interlaceMethod = 0 ∧
      h.width ≠ 0 ∧ h.height ≠ 0 := by
  unfold headerFault at hf
  split at hf
  · cases hf
  split at hf
  · cases hf
  split at hf
  · cases hf
  split at hf
  · cases hf
  split at hf
  · cases hf
  split at hf
  · cases hf
  simp_all

/-! ### The chunk-loop step -/

/-- `u` differs from `s` at most in the position and the frame registers. -/
def SameButFrame (s u : State) : Prop :=
  u = { s with pos := u.pos, len := u.len, body := u.body, crcS := u.crcS, crcC := u.crcC, crcAcc := u.crcAcc }

theorem frameTake_ok {tag : Tag} {data : List Byte} {crc : Word} {s t : State} (h : frameTake tag data crc s = .ok t) :
    t = afterFrameRead tag data crc s := by
  rcases frameTake_cases tag data crc s with ⟨-, h1⟩ | ⟨-, -, h1⟩ | ⟨-, -, h1⟩ <;> rw [h1] at h <;> cases h; rfl

/-- `frame_read` raises with the position past the fields it read. -/
theorem frameRead_raised {s t : State} (hp : s.pos ≤ s.srcLen) (h : frameRead s = .raised t) :
    ∃ e u, t = raise e u ∧ SameButFrame s u ∧ s.pos ≤ u.pos ∧ u.pos ≤ s.srcLen := by
  unfold frameRead at h
  rcases srcRead_cases 4 s _ with ⟨-, h1⟩ | ⟨-, -, h1⟩ | ⟨-, hp1, h1⟩
  · rw [h1] at h; cases h
  · rw [h1] at h; cases h; exact ⟨_, s, rfl, rfl, le_refl _, hp⟩
  rw [h1] at h
  simp only at h
  split at h
  · cases h; exact ⟨_, _, rfl, rfl, Nat.le_add_right _ _, hp1⟩
  split at h
  · cases h; exact ⟨_, _, rfl, rfl, Nat.le_add_right _ _, hp1⟩
  rcases srcRead_cases (4 + (be32 ((s.params.src.drop s.pos).take 4)).toNat)
      { s with pos := s.pos + 4, len := be32 ((s.params.src.drop s.pos).take 4) } _ with
    ⟨-, h2⟩ | ⟨-, -, h2⟩ | ⟨-, hp2, h2⟩
  · rw [h2] at h; cases h
  · rw [h2] at h; cases h; exact ⟨_, _, rfl, rfl, Nat.le_add_right _ _, hp1⟩
  rw [h2] at h
  simp only at h
  replace hp2 : s.pos + 4 + (4 + (be32 ((s.params.src.drop s.pos).take 4)).toNat) ≤ s.srcLen := hp2
  rcases srcRead_cases 4
    { s with pos := s.pos + 4 + (4 + (be32 ((s.params.src.drop s.pos).take 4)).toNat),
             len := be32 ((s.params.src.drop s.pos).take 4),
             body := (s.params.src.drop (s.pos + 4)).take (4 + (be32 ((s.params.src.drop s.pos).take 4)).toNat) } _ with
    ⟨-, h3⟩ | ⟨-, -, h3⟩ | ⟨-, -, h3⟩
  · rw [h3] at h; cases h
  · rw [h3] at h; cases h
    exact ⟨_, _, rfl, rfl, by show s.pos ≤ s.pos + 4 + _; omega, hp2⟩
  · rw [h3] at h; cases h

theorem frameCheck_ok {s t : State} (h : frameCheck s = .ok t) :
    crc32 s.params.crcUnit s.body = some s.crcS ∧
      t = { s with crcAcc := crcAccOf s.params.crcUnit s.body, crcC := s.crcS } := by
  rcases frameCheck_cases s with ⟨-, h1⟩ | ⟨c, hc, ⟨-, h1⟩ | ⟨he, h1⟩⟩ <;> rw [h1] at h <;> cases h
  exact ⟨by rw [hc, he], by rw [he]⟩

theorem frameCheck_raised {s t : State} (h : frameCheck s = .raised t) :
    ∃ e u, t = raise e u ∧ u = { s with crcAcc := u.crcAcc, crcC := u.crcC } := by
  rcases frameCheck_cases s with ⟨-, h1⟩ | ⟨c, -, ⟨-, h1⟩ | ⟨-, h1⟩⟩ <;> rw [h1] at h <;> cases h
  exact ⟨_, _, rfl, rfl⟩

/-- The step of the chunk loop, which runs decoded frames, is R223's, which reads the stream and compares tag bytes. -/
theorem advance_frame {s : State} (h : s.phase.inChunkLoop = true) : advance s = (stepFrame s).outcome := by
  have hf : fetch s = fetchFrame s := by
    unfold fetch; cases hp : s.phase <;> simp [hp, Phase.inChunkLoop] at h ⊢
  unfold advance
  rw [hf]
  unfold fetchFrame stepFrame
  rcases hr : frameRead s with t | t | f
  · obtain ⟨tag, data, crc, rest, hl, hd, ht⟩ := frameRead_ok hr
    have hdec : decode (.frame (s.params.src.drop s.pos)) = .ok (frameKind tag data crc) rest := by
      rw [hd]; exact decodeFrame_frameBytes _ _ _ _ hl
    simp only [hdec, exec_frameKind, frameStep, ht, andThen_ok]
    rcases hc : frameCheck t with u | u | f
    · have hb : u.body = tag.bytes ++ data := by rw [(frameCheck_ok hc).2, frameTake_ok ht]; rfl
      have h1 : u.frameType = tag.bytes := by unfold State.frameType; rw [hb]; exact List.take_left' rfl
      have h2 : u.frameData = data := by unfold State.frameData; rw [hb]; exact List.drop_left' rfl
      simp only [andThen_ok, h1, h2, dispatch_eq]
    · rfl
    · rfl
  · rfl
  · rfl

/-- A frame step that raises leaves everything but the position and the frame registers. -/
theorem stepFrame_raised {s t : State} (hp : s.pos ≤ s.srcLen) (h : stepFrame s = .raised t) :
    ∃ e u, t = raise e u ∧ SameButFrame s u ∧ s.pos ≤ u.pos ∧ u.pos ≤ s.srcLen := by
  unfold stepFrame at h
  rcases hr : frameRead s with a | a | f
  · rw [hr] at h
    obtain ⟨tag, data, crc, rest, hl, hd, ht⟩ := frameRead_ok hr
    have ha := frameTake_ok ht
    have hle : s.pos + (12 + data.length) ≤ s.srcLen := (frame_fields hd).2.2.2
    simp only [andThen_ok] at h
    rcases hc : frameCheck a with b | b | f
    · rw [hc] at h
      have hb := (frameCheck_ok hc).2
      have hbody : b.body = tag.bytes ++ data := by rw [hb, ha]; rfl
      have h1 : b.frameType = tag.bytes := by unfold State.frameType; rw [hbody]; exact List.take_left' rfl
      simp only [andThen_ok, h1, dispatch_eq] at h
      have hres : ∃ e, t = raise e b := by
        rcases effectOf_cases tag b.frameData b with ⟨e, h2⟩ | h2 | ⟨-, -, h2⟩ | h2 | h2 <;> rw [h2] at h <;> cases h
        exact ⟨e, rfl⟩
      obtain ⟨e, rfl⟩ := hres
      refine ⟨e, b, rfl, by rw [hb, ha]; rfl, ?_, ?_⟩ <;> (rw [hb, ha]; simp only [afterFrameRead]; omega)
    · rw [hc] at h; cases h
      obtain ⟨e, u, rfl, hu⟩ := frameCheck_raised hc
      refine ⟨e, u, rfl, by rw [hu, ha]; rfl, ?_, ?_⟩ <;> (rw [hu, ha]; simp only [afterFrameRead]; omega)
    · rw [hc] at h; cases h
  · rw [hr] at h; cases h
    exact frameRead_raised hp hr
  · rw [hr] at h; cases h

/-- A frame step that goes on accepted the frame at `pos`, and its effect went on. -/
theorem stepFrame_ok {s t : State} (h : stepFrame s = .ok t) :
    ∃ tag data crc u, FrameAccepted tag data crc s ∧ s.pos + (12 + data.length) ≤ s.srcLen ∧
      effectOf tag data (afterFrameCheck tag data crc crc s) = .ok u ∧ t = { u with chunkIndex := u.chunkIndex + 1 } := by
  unfold stepFrame at h
  rcases hr : frameRead s with a | a | f <;> rw [hr] at h
  · obtain ⟨tag, data, crc, rest, hl, hd, ht⟩ := frameRead_ok hr
    have ha := frameTake_ok ht
    have hle : s.pos + (12 + data.length) ≤ s.srcLen := (frame_fields hd).2.2.2
    have hroom : Cap.exceededBy s.params.chunkCap data.length = false := by
      rcases frameTake_cases tag data crc s with ⟨-, h1⟩ | ⟨-, -, h1⟩ | ⟨-, h1, -⟩
      · rw [h1] at ht; cases ht
      · rw [h1] at ht; cases ht
      · exact h1
    simp only [andThen_ok] at h
    rcases hc : frameCheck a with b | b | f <;> rw [hc] at h
    · obtain ⟨hcrc, hb⟩ := frameCheck_ok hc
      subst ha
      have hbe : b = afterFrameCheck tag data crc crc s := hb
      have hbody : b.body = tag.bytes ++ data := by rw [hb]; rfl
      have h1 : b.frameType = tag.bytes := by unfold State.frameType; rw [hbody]; exact List.take_left' rfl
      have h2 : b.frameData = data := by unfold State.frameData; rw [hbody]; exact List.drop_left' rfl
      simp only [andThen_ok, h1, h2, dispatch_eq] at h
      rcases (andThen_eq_ok_iff _ _ _).mp h with ⟨u, hu, hcount⟩
      refine ⟨tag, data, crc, u, ⟨hl, hroom, hcrc⟩, hle, by rw [← hbe]; exact hu, ?_⟩
      cases hcount; rfl
    · cases h
    · cases h
  · cases h
  · cases h

/-! ### The engine's step -/

theorem exec_filterKind {ft : Byte} (h : ¬ 4 < ft.toNat) (xs : List Byte) (s : State) :
    exec (filterKind ft xs) s = (scanlineStep ft (pred ft) xs s).outcome := by
  have : ft.toNat = 0 ∨ ft.toNat = 1 ∨ ft.toNat = 2 ∨ ft.toNat = 3 ∨ ft.toNat = 4 := by omega
  rcases this with h | h | h | h | h
  · have e : ft = 0 := BitVec.eq_of_toNat_eq h
    subst e; rfl
  · have e : ft = 1 := BitVec.eq_of_toNat_eq h
    subst e; rfl
  · have e : ft = 2 := BitVec.eq_of_toNat_eq h
    subst e; rfl
  · have e : ft = 3 := BitVec.eq_of_toNat_eq h
    subst e; rfl
  · have e : ft = 4 := BitVec.eq_of_toNat_eq h
    subst e; rfl

/-- R182's loop, which reads RAW byte by byte, is the loop over the decoded bytes. -/
theorem scanColumns_eq (ft : Byte) (base : Nat) (xs : List Byte) (s : State) (col : Nat) (hc : col + xs.length = s.stride)
    (hraw : ∀ k, (h : k < xs.length) → s.raw[base + 1 + col + k]? = some xs[k]) :
    scanColumns ft base xs.length s = defilterRow (pred ft) xs col s := by
  induction xs generalizing s col with
  | nil => rfl
  | cons x xs ih =>
    simp only [List.length_cons, scanColumns, defilterRow]
    simp only [List.length_cons] at hc
    have e : s.stride - (xs.length + 1) = col := by omega
    rw [e, rawRead]
    have h0 := hraw 0 (by simp)
    simp only [Nat.add_zero, List.getElem_cons_zero] at h0
    rw [h0]
    simp only
    rcases defilterByte_cases (pred ft) col x s with ⟨f, hf⟩ | ⟨-, hf⟩
    · rw [hf]; rfl
    · rw [hf]
      simp only [andThen_ok]
      refine ih _ (col + 1) (by show col + 1 + xs.length = s.stride; omega) fun k hk => ?_
      have := hraw (k + 1) (by simpa using hk)
      have e2 : base + 1 + (col + 1) + k = base + 1 + col + (k + 1) := by omega
      show s.raw[base + 1 + (col + 1) + k]? = _
      rw [e2, this]; simp

/-- A RAW that is long enough holds the next scanline whole. -/
theorem raw_holds {s : State} (h : s.expRaw ≤ s.rawLen) (hr : s.RowReady) (he : s.expRaw = s.height.toNat * (s.stride + 1)) :
    ∃ ft xs rest, s.raw.drop s.rpos = ft :: (xs ++ rest) ∧ xs.length = s.stride ∧ s.raw[s.rpos]? = some ft ∧
      ∀ k, (h : k < xs.length) → s.raw[s.rpos + 1 + 0 + k]? = some xs[k] := by
  have h1 : s.rpos + (s.stride + 1) ≤ s.raw.length := by
    have h2 : (s.row + 1) * (s.stride + 1) ≤ s.height.toNat * (s.stride + 1) := Nat.mul_le_mul_right _ hr.inImage
    have h3 : (s.row + 1) * (s.stride + 1) = s.rpos + (s.stride + 1) := by unfold State.rpos; rw [Nat.add_mul, one_mul]
    have h4 : s.expRaw ≤ s.raw.length := h
    omega
  obtain ⟨ft, content, hc⟩ : ∃ ft content, s.raw.drop s.rpos = ft :: content := by
    rcases hd : s.raw.drop s.rpos with _ | ⟨a, b⟩
    · have := congrArg List.length hd; simp at this; omega
    · exact ⟨_, _, rfl⟩
  have hlen : content.length + 1 = s.raw.length - s.rpos := by
    have := congrArg List.length hc; simp at this; omega
  have hg : ∀ k, s.raw[s.rpos + k]? = (ft :: content)[k]? := fun k => by rw [← hc, List.getElem?_drop]
  refine ⟨ft, content.take s.stride, content.drop s.stride, by rw [hc, List.take_append_drop], by rw [List.length_take]; omega,
    by simpa using hg 0, fun k hk => ?_⟩
  have := hg (k + 1)
  have e : s.rpos + 1 + 0 + k = s.rpos + (k + 1) := by omega
  rw [List.length_take] at hk
  rw [e, this]; simp

/-- The step of the engine, which runs a decoded scanline, is R182's, which reads RAW itself. -/
theorem advance_scanline {s : State} (hp : s.phase = .defiltering) (h : s.expRaw ≤ s.rawLen) (hr : s.RowReady)
    (he : s.expRaw = s.height.toNat * (s.stride + 1)) : advance s = (stepScanline s).outcome := by
  obtain ⟨ft, xs, rest, hd, hl, h0, hk⟩ := raw_holds h hr he
  have hf : fetch s = .run (filterKind ft xs) := by
    unfold fetch fetchScanline
    have : decode (.scanline s.stride (s.raw.drop s.rpos)) = .ok (filterKind ft xs) rest := by
      rw [hd, ← hl]; exact decodeScanline_cons ft xs rest
    simp only [hp, this]
  unfold advance stepScanline
  rw [hf, rawRead, h0]
  simp only
  by_cases h4 : 4 < ft.toNat
  · rw [filterKind_illegal h4, if_pos h4]; rfl
  · rw [if_neg h4, exec_filterKind h4]
    have := scanColumns_eq ft s.rpos xs (clearBuffers { s with filt := ft }) 0 (by show 0 + xs.length = s.stride; omega) hk
    rw [hl] at this
    rw [this]
    simp only [scanlineStep, hl, ne_eq, not_true_eq_false, if_false]

/-! ### One step -/

theorem step_nothing {s : State} (h : hostAct s = .nothing) : step s = advance s.takePort := by
  unfold step; rw [h]

/-- The header a `CMD_DEFILTER` commits, with the command recorded (R228). -/
def afterCommit (w h : Word) (s : State) : State := commitHeader (hostHeader w h) { s with cmd := 2 }

/-- What a step without reset may leave of `s`, the state with the CMD port taken: one constructor per way, with its guards. -/
inductive StepTo (s : State) : State → Prop where
  | idle (h : s.phase = .start ∨ s.phase = .done ∨ s.phase = .failed) : StepTo s s
  | sigShort (h : s.phase = .start) (hp : s.srcLen < s.pos + 8) : StepTo s (raise .truncatedStream { s with cmd := 1 })
  | sigBad (h : s.phase = .start) (hp : s.pos + 8 ≤ s.srcLen) :
    StepTo s (raise .signatureInvalid { s with cmd := 1, pos := s.pos + 8 })
  | sigGood (h : s.phase = .start) (hp : s.pos + 8 ≤ s.srcLen) :
    StepTo s { s with cmd := 1, pos := s.pos + 8, sigOk := true, phase := .signatureChecked }
  | dimensions (w v : Word) (h : s.phase = .start) : StepTo s (raise (.unsupportedDimensions w v) { s with cmd := 2 })
  | noRoom (w v : Word) (h : s.phase = .start) (hw : w ≠ 0) (hv : v ≠ 0) :
    StepTo s (raise .allocationFailure (afterCommit w v s))
  | shortRaw (w v : Word) (raw : List Byte) (h : s.phase = .start) (hw : w ≠ 0) (hv : v ≠ 0) :
    StepTo s (raise (.truncatedImageData (expRawOf w v) raw.length) { afterCommit w v s with raw := raw })
  | defilter (w v : Word) (raw : List Byte) (h : s.phase = .start) (hw : w ≠ 0) (hv : v ≠ 0)
      (hr : expRawOf w v ≤ raw.length) :
    StepTo s
      { afterCommit w v s with
        raw := raw, pixSize := v.toNat * strideOf w, pix := [], row := 0, phase := .defiltering }
  | frameRaised (e : DecodeFault) (u : State) (h : s.phase.inChunkLoop = true) (hu : SameButFrame s u)
      (hp : s.pos ≤ u.pos ∧ (s.pos ≤ s.srcLen → u.pos ≤ s.srcLen)) : StepTo s (raise e u)
  | frameIgnored (tag : Tag) (data : List Byte) (crc : Word) (h : s.phase.inChunkLoop = true)
      (hf : FrameAccepted tag data crc s) (hp : s.pos + (12 + data.length) ≤ s.srcLen) :
    StepTo s { afterFrameCheck tag data crc crc s with chunkIndex := s.chunkIndex + 1 }
  | header (tag : Tag) (data : List Byte) (crc : Word) (h : s.phase.inChunkLoop = true)
      (hf : FrameAccepted tag data crc s) (hp : s.pos + (12 + data.length) ≤ s.srcLen) (hv : s.hdrValid = false)
      (hh : headerFault (headerFields data) = none) :
    StepTo s
      { commitHeader (headerFields data) (afterFrameCheck tag data crc crc s) with chunkIndex := s.chunkIndex + 1 }
  | payload (tag : Tag) (data : List Byte) (crc : Word) (h : s.phase.inChunkLoop = true)
      (hf : FrameAccepted tag data crc s) (hp : s.pos + (12 + data.length) ≤ s.srcLen) :
    StepTo s
      { afterFrameCheck tag data crc crc s with
        pay := s.pay ++ data, phase := .payloadAccumulating, chunkIndex := s.chunkIndex + 1 }
  | loopEnd (tag : Tag) (data : List Byte) (crc : Word) (h : s.phase.inChunkLoop = true)
      (hf : FrameAccepted tag data crc s) (hp : s.pos + (12 + data.length) ≤ s.srcLen) :
    StepTo s { afterFrameCheck tag data crc crc s with phase := .endSeen, chunkIndex := s.chunkIndex + 1 }
  | raisedAsIs (e : DecodeFault) (h : s.phase = .endSeen ∨ s.phase = .decompressing) : StepTo s (raise e s)
  | decompressing (h : s.phase = .endSeen) (hv : s.hdrValid = true) : StepTo s { s with phase := .decompressing }
  | inflated (bytes : List Byte) (h : s.phase = .decompressing) (hb : bytes.length = s.expRaw) :
    StepTo s
      { s with
        raw := bytes, pay := [], pixSize := s.imageSize, pix := [], row := 0, phase := .defiltering }
  | badFilter (ft : Byte) (h : s.phase = .defiltering) (hf : 4 < ft.toNat) :
    StepTo s (raise (.unknownFilterType s.row ft) { s with filt := ft })
  | scanline (ft : Byte) (xs : List Byte) (t : State) (h : s.phase = .defiltering) (hf : ¬ 4 < ft.toNat)
      (hx : xs.length = s.stride) (ht : scanlineStep ft (pred ft) xs s = .ok t) : StepTo s t

theorem stepSig_cases {s t : State} (hp : s.phase = .start) (h : (stepSig { s with cmd := 1 }).outcome = .next t) :
    StepTo s t := by
  unfold stepSig at h
  rcases srcRead_cases 8 { s with cmd := 1 } _ with ⟨-, h1⟩ | ⟨-, hl, h1⟩ | ⟨-, hl, h1⟩
  · rw [h1] at h; cases h
  · rw [h1] at h; cases h; exact .sigShort hp hl
  · rw [h1] at h
    simp only at h
    split at h
    · cases h; exact .sigBad hp hl
    · cases h; exact .sigGood hp hl

theorem stepStartDefilter_cases {w v : Word} {raw : List Byte} {s t : State} (hp : s.phase = .start)
    (h : (stepStartDefilter w v raw s).outcome = .next t) : StepTo s t := by
  unfold stepStartDefilter dimensionFault at h
  by_cases hd : w = 0 ∨ v = 0
  · simp only [hd, if_true] at h; cases h; exact .dimensions w v hp
  · have hd' : w ≠ 0 ∧ v ≠ 0 := by tauto
    simp only [hd, if_false] at h
    split at h
    · cases h; exact .noRoom w v hp hd'.1 hd'.2
    · rcases sdeEnter_cases { afterCommit w v s with raw := raw } with ⟨-, h1⟩ | ⟨hl, h1⟩
      · unfold afterCommit at h1; rw [h1] at h; cases h; exact .shortRaw w v raw hp hd'.1 hd'.2
      · unfold afterCommit at h1; rw [h1] at h; cases h; exact .defilter w v raw hp hd'.1 hd'.2 hl

theorem stepFrame_cases {s t : State} (hp : s.phase.inChunkLoop = true) (h : (stepFrame s).outcome = .next t) :
    StepTo s t := by
  rcases (outcome_eq_next_iff _ _).mp h with h | h
  · obtain ⟨tag, data, crc, u, hf, hle, hu, rfl⟩ := stepFrame_ok h
    rcases effectOf_cases tag data (afterFrameCheck tag data crc crc s) with ⟨e, h1⟩ | h1 | ⟨hv, hh, h1⟩ | h1 | h1 <;>
      rw [h1] at hu <;> cases hu
    · exact .frameIgnored tag data crc hp hf hle
    · exact .header tag data crc hp hf hle hv hh
    · exact .payload tag data crc hp hf hle
    · exact .loopEnd tag data crc hp hf hle
  · by_cases hpos : s.pos ≤ s.srcLen
    · obtain ⟨e, u, rfl, hu, h1, h2⟩ := stepFrame_raised hpos h
      exact .frameRaised e u hp hu ⟨h1, fun _ => h2⟩
    · have hr : frameRead s = .stuck .srcNoAnswer ∨ frameRead s = .raised (raise .truncatedStream s) := by
        unfold frameRead
        rcases srcRead_cases 4 s _ with ⟨-, h1⟩ | ⟨-, -, h1⟩ | ⟨-, hp1, -⟩
        · exact .inl h1
        · exact .inr h1
        · omega
      unfold stepFrame at h
      rcases hr with hr | hr <;> rw [hr] at h <;> cases h
      exact .frameRaised _ s hp rfl ⟨le_refl _, id⟩

theorem stepEndSeen_cases {s t : State} (hp : s.phase = .endSeen) (h : (stepEndSeen s).outcome = .next t) : StepTo s t := by
  unfold stepEndSeen at h
  split at h
  · cases h; exact .raisedAsIs _ (.inl hp)
  split at h
  · cases h; exact .raisedAsIs _ (.inl hp)
  · next hv _ => cases h; exact .decompressing hp (by simpa using hv)

theorem stepDecompress_cases {s t : State} (hp : s.phase = .decompressing) (h : (stepDecompress s).outcome = .next t) :
    StepTo s t := by
  unfold stepDecompress at h
  split at h
  · cases h
  · cases h; exact .raisedAsIs _ (.inr hp)
  · next bytes _ =>
    by_cases hb : bytes.length = s.expRaw
    · rcases sdeEnter_cases { s with raw := bytes, pay := [] } with ⟨hl, -⟩ | ⟨-, h1⟩
      · exact absurd (show bytes.length < s.expRaw from hl) (by omega)
      · simp only [hb, ne_eq, not_true_eq_false, if_false, h1] at h
        cases h; exact .inflated bytes hp hb
    · simp only [hb, ne_eq, not_false_eq_true, if_true] at h
      cases h; exact .raisedAsIs _ (.inr hp)

theorem advance_scanline_cases {s t : State} (hp : s.phase = .defiltering) (h : advance s = .next t) : StepTo s t := by
  unfold advance fetch fetchScanline at h
  simp only [hp] at h
  rcases hd : decode (.scanline s.stride (s.raw.drop s.rpos)) with ⟨i, rest⟩ | e
  · rw [hd] at h
    simp only at h
    obtain ⟨ft, xs, rfl, hx, -⟩ := decodeScanline_ok hd
    by_cases h4 : 4 < ft.toNat
    · rw [filterKind_illegal h4] at h; cases h; exact .badFilter ft hp h4
    · rw [exec_filterKind h4] at h
      rcases (outcome_eq_next_iff _ _).mp h with h | h
      · exact .scanline ft xs t hp h4 hx h
      · rcases scanlineStep_cases ft (pred ft) xs s with ⟨f, h1⟩ | ⟨-, u, h1, -⟩ <;> rw [h1] at h <;> cases h
  · rw [hd] at h; cases h

/-- Everything a step can do: reset, or one of the ways of `StepTo` from the state with the CMD port taken. -/
theorem step_inversion {s t : State} (h : step s = .next t) :
    (∃ port, hostAct s = .reset port ∧ t = hostReset port s) ∨ ((∀ port, hostAct s ≠ .reset port) ∧ StepTo s.takePort t) := by
  rcases ha : hostAct s with port | i | _
  · refine .inl ⟨port, rfl, ?_⟩
    unfold step at h; rw [ha] at h; cases h; rfl
  · refine .inr ⟨fun _ => by simp, ?_⟩
    unfold step at h; rw [ha] at h
    unfold hostAct at ha
    split at ha
    · cases ha
    · cases ha
    · cases ha
    · split at ha
      · next hp =>
        split at ha
        · next hd =>
          cases ha
          unfold decode decodeCmd at hd
          simp only at hd
          split at hd
          · cases hd
            simp only [exec, execCmdDecode, hp, if_true] at h
            exact stepSig_cases (s := s.takePort) hp h
          split at hd
          · cases hd
            simp only [exec, execCmdDefilter, hp, if_true] at h
            exact stepStartDefilter_cases (s := s.takePort) hp h
          · cases hd
        · cases ha
      · cases ha
  · refine .inr ⟨fun _ => by simp, ?_⟩
    rw [step_nothing ha] at h
    generalize s.takePort = s at h
    cases hp : s.phase with
    | start =>
      unfold advance fetch at h
      simp only [hp] at h
      split at h
      · next i hi => split at hi <;> cases hi; cases h; exact .idle (.inl hp)
      · next i hi =>
        split at hi
        · next hc =>
          cases hi
          refine stepSig_cases hp ?_
          have e : ({ s with cmd := 1 } : State) = s := by rw [← hc]
          rw [e]; exact h
        · cases hi
      · next f hf => split at hf <;> cases hf
    | signatureChecked => have hl : s.phase.inChunkLoop = true := by rw [hp]; rfl
                          rw [advance_frame hl] at h; exact stepFrame_cases hl h
    | reading => unfold advance fetch at h; simp only [hp] at h; cases h
    | headerKnown => have hl : s.phase.inChunkLoop = true := by rw [hp]; rfl
                     rw [advance_frame hl] at h; exact stepFrame_cases hl h
    | payloadAccumulating => have hl : s.phase.inChunkLoop = true := by rw [hp]; rfl
                             rw [advance_frame hl] at h; exact stepFrame_cases hl h
    | endSeen => unfold advance fetch at h; simp only [hp] at h; exact stepEndSeen_cases hp h
    | decompressing => unfold advance fetch at h; simp only [hp] at h; exact stepDecompress_cases hp h
    | defiltering => exact advance_scanline_cases hp h
    | done => unfold advance fetch at h; simp only [hp] at h; cases h; exact .idle (.inr (.inl hp))
    | failed => unfold advance fetch at h; simp only [hp] at h; cases h; exact .idle (.inr (.inr hp))

end Sys2Proof.Machine
end

