-- ==== Sys2Proof/Laws/Invariant.lean ====
section
/-! SUPPORT. How the parts of the invariant are kept: by a fault, by the CMD port, by an accepted frame; what the hidden
buffers hold after a row; and that the two engines' loops agree. -/

namespace Sys2Proof.Machine

/-! ### The memory of the reset state -/

theorem wf_reset : Memory.wf State.reset.pix = true := rfl

theorem wf_afterReset (p : Params) (port : List PortAction) : Memory.wf (State.afterReset p port).pix = true := rfl

theorem pixWrite_wf {i : Nat} {v : Byte} {s t : State} (h : Memory.wf s.pix = true) (ht : pixWrite i v s = .ok t) :
    Memory.wf t.pix = true := by
  rcases pixWrite_cases i v s with ⟨f, hf⟩ | ⟨-, -, hw⟩
  · rw [hf] at ht; cases ht
  · rw [hw] at ht; cases ht; exact Memory.wf_write i v h

theorem sdeEnter_wf {s t : State} (h : Memory.wf s.pix = true) (ht : (sdeEnter s).outcome = .next t) :
    Memory.wf t.pix = true := by
  rcases sdeEnter_cases s with ⟨-, hf⟩ | ⟨-, hf⟩ <;> rw [hf] at ht <;> cases ht
  · exact h
  · rfl

/-! ### The header -/

/-- The header stays legal where its registers stay. -/
theorem State.HeaderLegal.congr {s t : State} (h : s.HeaderLegal) (hw : t.width = s.width) (hh : t.height = s.height)
    (hb : t.bitDepth = s.bitDepth) (hc : t.colorType = s.colorType) (hm : t.compressionMethod = s.compressionMethod)
    (hf : t.filterMethod = s.filterMethod) (hi : t.interlaceMethod = s.interlaceMethod) (hs : t.stride = s.stride)
    (he : t.expRaw = s.expRaw) : t.HeaderLegal :=
  ⟨by rw [hw]; exact h.width, by rw [hh]; exact h.height, by rw [hb]; exact h.bitDepth, by rw [hc]; exact h.colorType,
    by rw [hm]; exact h.compressionMethod, by rw [hf]; exact h.filterMethod, by rw [hi]; exact h.interlaceMethod,
    by rw [hs, hw]; exact h.stride, by rw [he, hw, hh]; exact h.expRaw⟩

theorem toNat_pos {w : Word} (h : w ≠ 0) : 0 < w.toNat :=
  Nat.pos_of_ne_zero fun h0 => h (BitVec.eq_of_toNat_eq (by simpa using h0))

theorem headerLegal_afterCommit {w v : Word} {s : State} (hw : w ≠ 0) (hv : v ≠ 0) : (afterCommit w v s).HeaderLegal :=
  ⟨toNat_pos hw, toNat_pos hv, rfl, rfl, rfl, rfl, rfl, rfl, rfl⟩

theorem expRaw_eq {s : State} (h : s.HeaderLegal) : s.expRaw = s.height.toNat * (s.stride + 1) := by
  rw [h.expRaw, h.stride]; rfl

/-! ### The invariant -/

/-- A fault keeps the invariant, from a state that meets the part of it that `Failed` does not settle. -/
theorem inv_raise {e : DecodeFault} {u : State} (hd : u.done = false) (hc : u.cmd ≠ 0) (hc3 : u.cmd ≠ 3)
    (hp : u.pos ≤ u.srcLen) (hw : Memory.wf u.pix = true) (hh : u.hdrValid = true → u.HeaderLegal)
    (h2 : u.cmd = 2 → u.pos = 0 ∧ u.chunkIndex = 0 ∧ u.sigOk = false ∧ u.pay = []) : (raise e u).Inv := by
  refine ⟨by simp, by simp [hd], by simp, ?_, ?_, iff_of_false hc (by simp), hc3, hp, hw,
    fun h => (hh h).congr rfl rfl rfl rfl rfl rfl rfl rfl rfl, by simp, by simp [Phase.inChunkLoop], by simp, by simp,
    by simp, by simp, by simp, h2⟩
  · simp; cases e <;> simp [DecodeFault.code]
  · simp; cases e <;> simp [DecodeFault.code]

/-- Taking the CMD port keeps the invariant. -/
theorem inv_takePort {s : State} (h : s.Inv) : s.takePort.Inv := by
  obtain ⟨h1, h2, h3, h4, h5, h6, h7, h8, h9, h10, h11, h12, h13, h14, h15, h16, h17, h18⟩ := h
  refine ⟨h1, h2, h3, h4, h5, h6, h7, h8, h9, fun hv => ?_, h11, h12, h13, h14, h15, fun hp => ?_, fun hp => ?_, h18⟩
  · exact (h10 hv).congr rfl rfl rfl rfl rfl rfl rfl rfl rfl
  · obtain ⟨a, b, c⟩ := h16 hp; exact ⟨a, ⟨b.1, b.2, ⟨b.3.1, b.3.2⟩⟩, c⟩
  · obtain ⟨a, b⟩ := h17 hp; exact ⟨a, ⟨b.1, b.2⟩⟩

theorem done_eq_false {s : State} (hI : s.Inv) (h : s.phase ≠ .done) : s.done = false := by
  have := hI.done; simpa [h] using this

theorem failed_eq_false {s : State} (hI : s.Inv) (h : s.phase ≠ .failed) : s.failed = false := by
  have := hI.failed; simpa [h] using this

/-! ### Rows and the hidden buffers -/

theorem clearBuffers_ready {s : State} (ft : Byte) (h : s.RowReady) : ByteReady (clearBuffers { s with filt := ft }) 0 := by
  refine ⟨?_, h.pix.cells⟩
  show (s.row + 1) * s.stride ≤ s.pixSize
  rw [h.pix.size]
  exact Nat.mul_le_mul_right _ h.inImage

/-- R193's invariant at the end of a row. -/
theorem defilterRow_buffers (predict : Byte → Byte → Byte → Nat) (xs : List Byte) (col : Nat) (s t : State)
    (h : ByteReady s col) (hb : s.BuffersHold col) (hc : col + xs.length = s.stride)
    (ht : defilterRow predict xs col s = .ok t) : t.BuffersHold s.stride := by
  induction xs generalizing col s with
  | nil =>
    simp only [defilterRow] at ht; cases ht
    simp only [List.length_nil, Nat.add_zero] at hc
    rw [← hc]; exact hb
  | cons x xs ih =>
    simp only [List.length_cons] at hc
    simp only [defilterRow, defilterByte_ok predict x h (by omega : col < s.stride), andThen_ok] at ht
    exact ih (col + 1) (s := afterByte predict col x _ _ _ s) (h := afterByte_ready predict x _ _ _ h)
      (hb := afterByte_buffers predict x h (by omega) hb) (hc := by show col + 1 + xs.length = s.stride; omega) (ht := ht)

/-- One turn of R193's loop is one turn of R182's, where the buffers hold what R193 says. -/
theorem bufferedByte_eq (predict : Byte → Byte → Byte → Nat) {col : Nat} (x : Byte) {s : State} (h : ByteReady s col)
    (hc : col < s.stride) (hb : s.BuffersHold col) : bufferedByte predict col x s = defilterByte predict col x s := by
  have hd := defilterByte_ok predict x h hc
  have e1 : s.left.getD (col % bpp) 0 = neighbourA s.pix s.stride s.row col := hb.left col (le_refl _) (by omega)
  have e2 : s.line.getD col 0 = neighbourB s.pix s.stride s.row col := by
    have := hb.lineAhead col (le_refl _) hc
    rw [List.getD_eq_getElem?_getD, this]; rfl
  have e3 : s.upleft.getD (col % bpp) 0 = neighbourUL s.pix s.stride s.row col := hb.upleft col (le_refl _) (by omega) hc
  rw [hd]
  unfold bufferedByte
  rw [e1, e2, e3]
  rcases reconstruct_cases predict col x (neighbourA s.pix s.stride s.row col) (neighbourB s.pix s.stride s.row col)
    (neighbourUL s.pix s.stride s.row col) s with ⟨f, hf⟩ | ⟨-, -, h2⟩
  · exfalso
    have hsz : s.row * s.stride + col < s.pixSize := by
      have := h.size; rw [Nat.add_mul, one_mul] at this; omega
    have hw := pixWrite_ok (i := pixAddr s.stride s.row col)
      (s := { s with col := col, x := x, a := neighbourA s.pix s.stride s.row col,
                     b := neighbourB s.pix s.stride s.row col, ul := neighbourUL s.pix s.stride s.row col })
      (recon x (predict (neighbourA s.pix s.stride s.row col) (neighbourB s.pix s.stride s.row col)
        (neighbourUL s.pix s.stride s.row col))) hsz ((Memory.read_of_range h.cells _).2 (le_refl _))
    unfold reconstruct at hf
    simp only [hw, andThen_ok] at hf
    cases hf
  · exact h2

/-- What subtracting a prediction modulo 256 takes away, the reconstruction adds again. -/
theorem recon_sub (v : Byte) (n : Nat) : recon (v - BitVec.ofNat 8 n) n = v := by
  unfold recon
  rw [BitVec.ofNat_add, BitVec.ofNat_toNat, BitVec.setWidth_eq]
  exact BitVec.sub_add_cancel _ _

end Sys2Proof.Machine
end

