-- ==== Sys2Proof/Laws/PerInstr.lean ====
section
/-! SUPPORT. Facts of every instruction as syntax: the length of its record (R90, R100). -/

namespace Sys2Proof.Laws

/-- How many bytes of its stream a record takes (R90, R100): 8 for the signature, 12 and the data for a frame, the filtered
bytes and one for a scanline, none for a command. -/
def recordLength : Instr → Nat
  | .sig => 8
  | .ihdr data _ => 12 + data.length
  | .idat data _ => 12 + data.length
  | .iend data _ => 12 + data.length
  | .other _ data _ => 12 + data.length
  | .none xs => xs.length + 1
  | .sub xs => xs.length + 1
  | .up xs => xs.length + 1
  | .average xs => xs.length + 1
  | .paeth xs => xs.length + 1
  | .illegalFilter _ xs => xs.length + 1
  | .cmdDecode => 0
  | .cmdDefilter _ _ _ => 0

/-- The encoder writes as many bytes as the record takes. -/
def EncodedLength.Statement (i : Instr) : Prop := (encode i).bytes.length = recordLength i

theorem EncodedLength.sig : EncodedLength.Statement .sig := rfl
theorem EncodedLength.ihdr (data : List Byte) (crc : Word) : EncodedLength.Statement (.ihdr data crc) :=
  Machine.length_frameBytes tagIHDR data crc
theorem EncodedLength.idat (data : List Byte) (crc : Word) : EncodedLength.Statement (.idat data crc) :=
  Machine.length_frameBytes tagIDAT data crc
theorem EncodedLength.iend (data : List Byte) (crc : Word) : EncodedLength.Statement (.iend data crc) :=
  Machine.length_frameBytes tagIEND data crc
theorem EncodedLength.other (tag : Tag) (data : List Byte) (crc : Word) : EncodedLength.Statement (.other tag data crc) :=
  Machine.length_frameBytes tag data crc
theorem EncodedLength.none (xs : List Byte) : EncodedLength.Statement (.none xs) := rfl
theorem EncodedLength.sub (xs : List Byte) : EncodedLength.Statement (.sub xs) := rfl
theorem EncodedLength.up (xs : List Byte) : EncodedLength.Statement (.up xs) := rfl
theorem EncodedLength.average (xs : List Byte) : EncodedLength.Statement (.average xs) := rfl
theorem EncodedLength.paeth (xs : List Byte) : EncodedLength.Statement (.paeth xs) := rfl
theorem EncodedLength.illegalFilter (ft : Byte) (xs : List Byte) : EncodedLength.Statement (.illegalFilter ft xs) := rfl
theorem EncodedLength.cmdDecode : EncodedLength.Statement .cmdDecode := rfl
theorem EncodedLength.cmdDefilter (cfgWidth cfgHeight : Word) (rawIn : List Byte) :
    EncodedLength.Statement (.cmdDefilter cfgWidth cfgHeight rawIn) := rfl

end Sys2Proof.Laws
end

