-- ==== Sys2Proof/Tests/Slice0.lean ====
section
/-! SUPPORT. Tests: ill-formed terms that the check refuses, words written out from the spec's encodings, the spec's worked
examples (95_test_vectors.md, named V<n>, S<n>, P<n>) on single steps, and a witness for the hypotheses of each claim. -/

namespace Sys2Proof.Tests

open Sys2Proof Sys2Proof.Machine

/-! ### Small states -/

/-- The next state, if there is one. -/
def next? (o : Host.Outcome State Fault Refusal) : Option State :=
  match o with
  | .next s => some s
  | .fault _ => none
  | .refused _ => none

/-- A field of the next state. -/
def after {α : Type} (o : Host.Outcome State Fault Refusal) (f : State → α) : Option α := (next? o).map f

/-- Just after reset, this stream on SRC and these actions on the CMD port. -/
def fresh (src : List Byte) (port : List PortAction) : State := State.afterReset { Params.reset with src := src } port

/-- In the chunk loop, these bytes of SRC next. -/
def inLoop (src : List Byte) : State :=
  { fresh (signature ++ src) [] with cmd := 1, sigOk := true, phase := .signatureChecked, pos := 8 }

/-- The cells of these bytes from an address on. -/
def cells : Nat → List Byte → List Host.Cell
  | _, [] => []
  | i, v :: vs => (i, v) :: cells (i + 1) vs

/-- In a `CMD_DEFILTER` session with these scanlines reconstructed and this RAW. -/
def engine (w h : Word) (rows : List (List Byte)) (raw : List Byte) : State :=
  { commitHeader (hostHeader w h) State.reset with
    cmd := 2, phase := .defiltering, raw := raw, row := rows.length, pixSize := h.toNat * strideOf w,
    pix := cells 0 rows.flatten, line := rows.getLastD [] }

/-- The bytes of PIX after a step. -/
def pixAfter (o : Host.Outcome State Fault Refusal) : Option (List Byte) := after o State.pixBytes

/-- The `IHDR 2 2` frame of 95_test_vectors.md section 3. -/
def frameIhdr22 : List Byte :=
  [0, 0, 0, 0x0D, 0x49, 0x48, 0x44, 0x52, 0, 0, 0, 2, 0, 0, 0, 2, 8, 6, 0, 0, 0, 0x72, 0xB6, 0x0D, 0x24]

/-- The `IEND` frame of section 3. -/
def frameIend : List Byte := [0, 0, 0, 0, 0x49, 0x45, 0x4E, 0x44, 0xAE, 0x42, 0x60, 0x82]

/-- The data of P1's `IDAT`. -/
def payP1 : List Byte :=
  [0x78, 0x01, 0x01, 0x12, 0x00, 0xED, 0xFF, 0x00, 0x11, 0x22, 0x33, 0x44, 0x55, 0x66, 0x77, 0x88, 0x00, 0x99, 0xAA, 0xBB,
   0xCC, 0xDD, 0xEE, 0xFF, 0x00, 0x37, 0x96, 0x07, 0xF9]

/-- P1's decompressed stream. -/
def rawP1 : List Byte :=
  [0x00, 0x11, 0x22, 0x33, 0x44, 0x55, 0x66, 0x77, 0x88, 0x00, 0x99, 0xAA, 0xBB, 0xCC, 0xDD, 0xEE, 0xFF, 0x00]

/-- P1 after step 4, with this answer of `inflate`. -/
def endSeenP1 (answer : Inflated) : State :=
  { commitHeader (hostHeader 2 2) (inLoop []) with
    phase := .endSeen, pay := payP1, params := { (inLoop []).params with inflateUnit := .answering [(payP1, answer)] 0 } }

/-- P1 after step 5. -/
def decompressingP1 (answer : Inflated) : State := { endSeenP1 answer with phase := .decompressing }

/-! ### Well-formedness: one ill-formed term for each check -/

/-- What `dataOk` says of a block of zeros. -/
theorem dataOk_zeros (n : Nat) : dataOk (List.replicate n 0) = decide (n < lengthLimit) := by
  simp only [dataOk, List.length_replicate]

/-- What `rowOk` says of a block of zeros. -/
theorem rowOk_zeros (n : Nat) :
    rowOk (List.replicate n 0) = (decide (n % 4 = 0) && decide (4 ≤ n) && decide (n ≤ 4 * 4294967295)) := by
  simp only [rowOk, List.length_replicate]

/-- A length of 2^31 (R102). -/
theorem test_wf_refuses_overlong_data : dataOk (List.replicate lengthLimit 0) = false :=
  (dataOk_zeros lengthLimit).trans (by decide)

/-- The largest legal length (R92). -/
theorem test_wf_admits_longest_data : dataOk (List.replicate (lengthLimit - 1) 0) = true :=
  (dataOk_zeros (lengthLimit - 1)).trans (by decide)

/-- Each frame is checked for its length (R92). -/
theorem test_wf_refuses_overlong_frames (crc : Word) :
    (Instr.ihdr (List.replicate lengthLimit 0) crc).wf = false ∧ (Instr.idat (List.replicate lengthLimit 0) crc).wf = false ∧
    (Instr.iend (List.replicate lengthLimit 0) crc).wf = false ∧
    (Instr.other ⟨1, 2, 3, 4⟩ (List.replicate lengthLimit 0) crc).wf = false := by
  simp only [Instr.wf, test_wf_refuses_overlong_data, Bool.and_false, and_self]

/-- An `OTHER` frame with a known tag (R98). -/
theorem test_wf_refuses_known_tags :
    (Instr.other tagIHDR [] 0).wf = false ∧ (Instr.other tagIDAT [] 0).wf = false ∧ (Instr.other tagIEND [] 0).wf = false := by
  decide

/-- Filtered bytes that are no whole number of pixels, or no pixel at all (R94, R28). -/
theorem test_wf_refuses_broken_rows :
    (Instr.none []).wf = false ∧ (Instr.sub [1, 2, 3]).wf = false ∧ (Instr.up [1, 2, 3, 4, 5]).wf = false ∧
    (Instr.average [1]).wf = false ∧ (Instr.paeth [1, 2]).wf = false ∧ (Instr.illegalFilter 5 []).wf = false := by
  decide

/-- A width of 2^32 (R28). -/
theorem test_wf_refuses_overlong_rows (n : Nat) (h : n = 4 * 4294967296) : rowOk (List.replicate n 0) = false := by
  rw [rowOk_zeros, h]; decide

/-- A filter type that is recognised (R99). -/
theorem test_wf_refuses_recognised_filter : (Instr.illegalFilter 4 [1, 2, 3, 4]).wf = false := by decide

/-! ### Records written out from the spec's encodings (R91, R92, R94, R98, R99, R220) -/

theorem test_decode_sig : decode (.sig [0x89, 0x50, 0x4E, 0x47, 0x0D, 0x0A, 0x1A, 0x0A, 0x77]) = .ok .sig [0x77] := by decide

theorem test_decode_sig_last_bit : decode (.sig [0x89, 0x50, 0x4E, 0x47, 0x0D, 0x0A, 0x1A, 0x0B]) = .bad .badSignature := by
  decide

/-- The frame `IHDR 2 2`. -/
theorem test_decode_ihdr :
    decode (.frame frameIhdr22) = .ok (.ihdr [0, 0, 0, 2, 0, 0, 0, 2, 8, 6, 0, 0, 0] 0x72B60D24) [] := by decide

theorem test_decode_idat :
    decode (.frame [0, 0, 0, 3, 0x49, 0x44, 0x41, 0x54, 7, 8, 9, 0x12, 0x34, 0x56, 0x78]) =
      .ok (.idat [7, 8, 9] 0x12345678) [] := by decide

theorem test_decode_iend : decode (.frame frameIend) = .ok (.iend [] 0xAE426082) [] := by decide

/-- `CHUNK "ihdr"`: bit 5 of the tag's bytes counts (V61, D19). -/
theorem test_decode_other :
    decode (.frame [0, 0, 0, 1, 0x69, 0x68, 0x64, 0x72, 7, 0, 0, 0, 1]) = .ok (.other ⟨0x69, 0x68, 0x64, 0x72⟩ [7] 1) [] := by
  decide

/-- V5, V6: the largest legal length asks for a body, the next one is illegal. -/
theorem test_decode_frame_length_limit :
    decode (.frame [0x7F, 0xFF, 0xFF, 0xFF, 0x49, 0x44, 0x41, 0x54]) = .bad (.shortBody 2147483647) ∧
    decode (.frame [0x80, 0, 0, 0, 0x49, 0x44, 0x41, 0x54]) = .bad (.illegalLength 2147483648) := by decide

theorem test_decode_none : decode (.scanline 4 [0, 9, 8, 7, 6, 5]) = .ok (.none [9, 8, 7, 6]) [5] := by decide

theorem test_decode_sub : decode (.scanline 4 [1, 9, 8, 7, 6]) = .ok (.sub [9, 8, 7, 6]) [] := by decide

theorem test_decode_up : decode (.scanline 4 [2, 9, 8, 7, 6]) = .ok (.up [9, 8, 7, 6]) [] := by decide

theorem test_decode_average : decode (.scanline 4 [3, 9, 8, 7, 6]) = .ok (.average [9, 8, 7, 6]) [] := by decide

theorem test_decode_paeth : decode (.scanline 4 [4, 9, 8, 7, 6]) = .ok (.paeth [9, 8, 7, 6]) [] := by decide

/-- Filter types 5, 255 and 0x81, whose low bits alone would read as `SUB`. -/
theorem test_decode_illegalFilter :
    decode (.scanline 4 [5, 9, 8, 7, 6]) = .ok (.illegalFilter 5 [9, 8, 7, 6]) [] ∧
    decode (.scanline 4 [255, 9, 8, 7, 6]) = .ok (.illegalFilter 255 [9, 8, 7, 6]) [] ∧
    decode (.scanline 4 [0x81, 9, 8, 7, 6]) = .ok (.illegalFilter 0x81 [9, 8, 7, 6]) [] := by decide

theorem test_decode_cmdDecode : decode (.cmd 1 5 6 [7]) = .ok .cmdDecode [] := by decide

theorem test_decode_cmdDefilter : decode (.cmd 2 5 6 [7]) = .ok (.cmdDefilter 5 6 [7]) [] := by decide

/-- Codes 0 and 3 are no commands (R220). -/
theorem test_decode_no_command :
    decode (.cmd 0 5 6 [7]) = .bad (.noCommand 0) ∧ decode (.cmd 3 5 6 [7]) = .bad (.noCommand 3) := by decide

/-- The match values of spec/opcode_table.json. -/
theorem test_decodeTableWord :
    decodeTableWord 64 0x89504E470D0A1A0A = some .sig ∧ decodeTableWord 32 0x49484452 = some (.ihdr [] 0) ∧
    decodeTableWord 32 0x49444154 = some (.idat [] 0) ∧ decodeTableWord 32 0x49454E44 = some (.iend [] 0) ∧
    decodeTableWord 32 0x74455874 = some (.other ⟨0x74, 0x45, 0x58, 0x74⟩ [] 0) ∧
    decodeTableWord 8 0 = some (.none [0, 0, 0, 0]) ∧ decodeTableWord 8 1 = some (.sub [0, 0, 0, 0]) ∧
    decodeTableWord 8 2 = some (.up [0, 0, 0, 0]) ∧ decodeTableWord 8 3 = some (.average [0, 0, 0, 0]) ∧
    decodeTableWord 8 4 = some (.paeth [0, 0, 0, 0]) ∧ decodeTableWord 8 5 = some (.illegalFilter 5 [0, 0, 0, 0]) ∧
    decodeTableWord 2 1 = some .cmdDecode ∧ decodeTableWord 2 2 = some (.cmdDefilter 0 0 []) := by decide

/-- The very next step after `withFetchWord` fetches the word's record. -/
theorem test_withFetchWord_fetches :
    fetch (State.reset.withFetchWord 64 0x89504E470D0A1A0A) = .run .sig ∧
    fetch (State.reset.withFetchWord 32 0x49484452) = .run (.ihdr [] 0) ∧
    fetch (State.reset.withFetchWord 32 0x74455874) = .run (.other ⟨0x74, 0x45, 0x58, 0x74⟩ [] 0) ∧
    fetch (State.reset.withFetchWord 8 4) = .run (.paeth [0, 0, 0, 0]) ∧
    fetch (State.reset.withFetchWord 8 200) = .run (.illegalFilter 200 [0, 0, 0, 0]) ∧
    hostAct (State.reset.withFetchWord 2 2) = .command (.cmdDefilter 0 0 []) := by decide

/-! ### Fields, CRC, predictors -/

/-- V1 to V7. -/
theorem test_be32 :
    be32 [0, 0, 0, 0] = 0 ∧ be32 [0, 0, 0, 0x0D] = 13 ∧ be32 [0, 0, 1, 0] = 256 ∧ be32 [0x12, 0x34, 0x56, 0x78] = 305419896 ∧
    (be32 [0x80, 0, 0, 0]).toNat = 2147483648 ∧ (be32 [0xFF, 0xFF, 0xFF, 0xFF]).toNat = 4294967295 := by decide

/-- V8 to V11, V13. -/
theorem test_crc32 :
    crc32Standard [] = 0 ∧ crc32Standard [0x31, 0x32, 0x33, 0x34, 0x35, 0x36, 0x37, 0x38, 0x39] = 0xCBF43926 ∧
    crc32Standard [0x49, 0x45, 0x4E, 0x44] = 0xAE426082 ∧ crc32Standard [0x61] = 0xE8B7BE43 ∧
    crc32Standard [0x49, 0x44, 0x41, 0x54] = 0x35AF061E := by decide +kernel

/-- V12. -/
theorem test_crc32_ihdr :
    crc32Standard [0x49, 0x48, 0x44, 0x52, 0, 0, 0, 2, 0, 0, 0, 2, 8, 6, 0, 0, 0] = 0x72B60D24 := by decide +kernel

/-- V100 to V113, in order. -/
theorem test_paeth :
    [paeth 10 10 10, paeth 5 10 0, paeth 0 0 0, paeth 255 255 0, paeth 0 0 255, paeth 255 0 255, paeth 0 255 255,
      paeth 100 50 75, paeth 50 100 75, paeth 10 20 30, paeth 30 20 10, paeth 2 1 0, paeth 0 1 2, paeth 4 2 3] =
      [10, 10, 0, 255, 0, 0, 0, 75, 75, 10, 30, 2, 0, 3] := by decide

/-- V114 to V129, in order. -/
theorem test_paeth_ties :
    [paeth 200 100 150, paeth 1 3 2, paeth 3 1 1, paeth 1 3 1, paeth 16 40 7, paeth 80 15 40, paeth 255 32 0, paeth 7 7 9,
      paeth 6 9 9, paeth 9 6 6, paeth 0 4 2, paeth 8 4 6, paeth 5 9 7, paeth 4 8 4, paeth 0 3 1, paeth 200 100 20] =
      [150, 2, 3, 3, 40, 40, 255, 7, 6, 9, 2, 6, 7, 8, 3, 200] := by decide

/-- V140 to V148, in order. -/
theorem test_predAverage :
    [predAverage 0 0 0, predAverage 1 0 0, predAverage 1 1 0, predAverage 3 4 0, predAverage 255 0 0, predAverage 255 255 0,
      predAverage 255 254 0, predAverage 200 100 0, predAverage 128 128 0] = [0, 0, 1, 3, 127, 255, 254, 150, 128] := by decide

/-- V150 to V153. -/
theorem test_recon : recon 0xFF 1 = 0 ∧ recon 0x80 0x80 = 0 ∧ recon 0xFF 0xFF = 0xFE ∧ recon 0 0 = 0 := by decide

/-! ### The signature and the commands -/

/-- V22. -/
theorem test_sig_wrong_last_byte :
    after (exec .sig (fresh [0x89, 0x50, 0x4E, 0x47, 0x0D, 0x0A, 0x1A, 0x0B, 0xFF] [])) (fun t => (t.errCode, t.pos, t.sigOk)) =
      some (1, 8, false) := by decide

/-- V21: seven bytes are `TruncatedStream`, nothing is consumed. -/
theorem test_sig_short :
    after (exec .sig (fresh [0x89, 0x50, 0x4E, 0x47, 0x0D, 0x0A, 0x1A] [])) (fun t => (t.errCode, t.pos)) = some (2, 0) := by
  decide

/-- P1, step 1. -/
theorem test_cmdDecode :
    after (step (fresh (signature ++ frameIhdr22) [.code 1])) (fun t => (t.phase, t.pos, t.cmd, t.sigOk)) =
      some (.signatureChecked, 8, 1, true) := by decide

/-- V79: a second `CMD_DECODE` in `Done` changes no state. -/
theorem test_cmdDecode_in_done :
    let s := { fresh signature [.code 1] with phase := .done, done := true, cmd := 1 }
    next? (step s) = some { s with cmdPort := [] } := by decide

/-- V174. -/
theorem test_cmdDefilter_zero_width :
    after (exec (.cmdDefilter 0 2 [1]) State.reset) (fun t => (t.errCode, t.errInfo0, t.errInfo1, t.hdrValid)) =
      some (10, 0, 2, false) := by decide

/-- P5: 17 of 18 bytes. -/
theorem test_cmdDefilter_short_raw :
    after (exec (.cmdDefilter 2 2 (rawP1.take 17)) State.reset) (fun t => (t.errCode, t.errInfo0, t.errInfo1, t.hdrValid, t.cmd)) =
      some (15, 18, 17, true, 2) := by decide

/-- V80: reset in `Failed`. -/
theorem test_reset_in_failed :
    after (step { raise .truncatedStream (fresh signature [.reset, .code 1]) with pos := 8 })
      (fun t => (t.phase, t.errCode, t.failed, t.pos, t.cmdPort)) = some (.start, 0, false, 0, [.code 1]) := by decide

/-! ### Frames -/

/-- P1, step 2. -/
theorem test_ihdr_accepted :
    after (step (inLoop frameIhdr22)) (fun t => (t.phase, t.pos, t.chunkIndex, t.width, t.stride, t.expRaw)) =
      some (.headerKnown, 33, 1, 2, 8, 18) := by decide +kernel

/-- V51: compression is checked before the colour type. -/
theorem test_ihdr_order :
    after (step (inLoop [0, 0, 0, 0x0D, 0x49, 0x48, 0x44, 0x52, 0, 0, 0, 2, 0, 0, 0, 2, 8, 2, 1, 0, 0, 0xFC, 0x16, 0xF0, 0x44]))
      (fun t => (t.errCode, t.errInfo0, t.hdrValid, t.chunkIndex)) = some (5, 1, false, 0) := by decide +kernel

/-- P1, step 3: 29 bytes appended. -/
theorem test_idat_appended :
    after (exec (.idat payP1 0xC4CCD299) (inLoop [])) (fun t => (t.phase, t.pos, t.chunkIndex, t.pay)) =
      some (.payloadAccumulating, 49, 1, payP1) := by decide +kernel

/-- P3: one bit flipped in the data; nothing is appended. -/
theorem test_idat_crc_mismatch :
    after (exec (.idat (payP1.set 5 0xEC) 0xC4CCD299) { inLoop [] with chunkIndex := 1 })
      (fun t => (t.errCode, t.errInfo0, t.errInfo1, t.errInfo2, t.pay)) = some (3, 0xC4CCD299, 0x45E9B7BE, 1, []) := by
  decide +kernel

/-- V62, step 2. -/
theorem test_iend_first :
    after (step (inLoop frameIend)) (fun t => (t.phase, t.pos, t.chunkIndex)) = some (.endSeen, 20, 1) := by decide +kernel

/-- The `IEND` frame with data of section 3 (V64): the data is ignored. -/
theorem test_iend_with_data :
    after (step (inLoop [0, 0, 0, 2, 0x49, 0x45, 0x4E, 0x44, 1, 2, 0xF2, 0xCB, 0x77, 0x41])) (fun t => (t.phase, t.pos, t.pay)) =
      some (.endSeen, 22, []) := by decide +kernel

/-- P2, step 3: the `tEXt` frame is counted and nothing else. -/
theorem test_other_counted :
    after (step (inLoop [0, 0, 0, 0x0A, 0x74, 0x45, 0x58, 0x74, 0x43, 0x6F, 0x6D, 0x6D, 0x65, 0x6E, 0x74, 0, 0x68, 0x69, 0xA2,
      0xA2, 0x58, 0x66])) (fun t => (t.phase, t.pos, t.chunkIndex, t.hdrValid, t.pay)) =
      some (.signatureChecked, 30, 1, false, []) := by decide +kernel

/-- V26, V28: the length read and the body short; the body read and the CRC short. -/
theorem test_frame_truncated :
    after (step (inLoop [0, 0, 0, 0x0D])) (fun t => (t.errCode, t.pos)) = some (2, 12) ∧
    after (step (inLoop (frameIhdr22.take 24))) (fun t => (t.errCode, t.pos, t.hdrValid)) = some (2, 29, false) := by decide

/-! ### Sequencer actions -/

/-- V62, step 3. -/
theorem test_endSeen_missing_header :
    after (step { inLoop [] with phase := .endSeen }) (fun t => (t.errCode, t.errInfo0)) = some (11, 0) := by decide

/-- V75, V77: `RAW_CAP` 17 is exceeded, 18 is not. -/
theorem test_endSeen_raw_cap :
    let s := endSeenP1 .err
    after (step { s with params := { s.params with rawCap := .upTo 17 } }) (fun t => (t.phase, t.errCode)) = some (.failed, 14) ∧
    after (step { s with params := { s.params with rawCap := .upTo 18 } }) (fun t => (t.phase, t.errCode)) =
      some (.decompressing, 0) := by decide

/-- P1, step 6. -/
theorem test_decompress :
    after (step (decompressingP1 (.ok rawP1))) (fun t => (t.phase, t.raw, t.pay, t.pixSize)) =
      some (.defiltering, rawP1, [], 16) := by decide

/-- V70, V72. -/
theorem test_decompress_faults :
    after (step (decompressingP1 .err)) (fun t => t.errCode) = some 12 ∧
    after (step (decompressingP1 (.ok (rawP1.take 17)))) (fun t => (t.errCode, t.errInfo0, t.errInfo1)) = some (13, 18, 17) := by
  decide

/-! ### Scanlines: the filtered bytes of sections 6.2 and 6.3 -/

/-- The filtered bytes of V160 to V164 and V40 to V44. -/
def filtered : List Byte := [0x01, 0x02, 0x03, 0x04, 0x0A, 0xFA, 0x06, 0xFF]

/-- The state before V160 to V164. -/
def secondRow : State := engine 2 2 [[0x0A, 0x14, 0x1E, 0x28, 0xFA, 0xFB, 0xFC, 0xFD]] []

/-- The row a step reconstructs, of 8 bytes. -/
def rowAfter (s : State) (i : Instr) : Option (List Byte) := (pixAfter (exec i s)).map fun bytes => bytes.drop (8 * s.row)

/-- V160. -/
theorem test_none : rowAfter secondRow (.none filtered) = some [0x01, 0x02, 0x03, 0x04, 0x0A, 0xFA, 0x06, 0xFF] := by
  decide +kernel

/-- V161. -/
theorem test_sub : rowAfter secondRow (.sub filtered) = some [0x01, 0x02, 0x03, 0x04, 0x0B, 0xFC, 0x09, 0x03] := by
  decide +kernel

/-- V172: the neighbour distance is 4. -/
theorem test_sub_three_pixels :
    pixAfter (step (engine 3 1 [] [0x01, 0x10, 0x20, 0x30, 0x40, 0x01, 0x02, 0x03, 0x04, 0xF0, 0xF0, 0xF0, 0xF0])) =
      some [0x10, 0x20, 0x30, 0x40, 0x11, 0x22, 0x33, 0x44, 0x01, 0x12, 0x23, 0x34] := by decide +kernel

/-- V162. -/
theorem test_up : rowAfter secondRow (.up filtered) = some [0x0B, 0x16, 0x21, 0x2C, 0x04, 0xF5, 0x02, 0xFC] := by
  decide +kernel

/-- V42: above the first scanline stands 0. -/
theorem test_up_first_row : rowAfter (engine 2 2 [] []) (.up filtered) = some filtered := by decide +kernel

/-- V163. -/
theorem test_average : rowAfter secondRow (.average filtered) = some [0x06, 0x0C, 0x12, 0x18, 0x8A, 0x7D, 0x8D, 0x89] := by
  decide +kernel

/-- V43. -/
theorem test_average_first_row :
    rowAfter (engine 2 2 [] []) (.average filtered) = some [0x01, 0x02, 0x03, 0x04, 0x0A, 0xFB, 0x07, 0x01] := by decide +kernel

/-- V165. -/
theorem test_paeth_row :
    rowAfter (engine 2 2 [[0x0A, 0x14, 0x1E, 0x28, 0x32, 0x0F, 0xC8, 0x28]] []) (.paeth [1, 2, 3, 4, 5, 6, 7, 8]) =
      some [0x0B, 0x16, 0x21, 0x2C, 0x37, 0x15, 0xCF, 0x34] := by decide +kernel

/-- V44. -/
theorem test_paeth_first_row :
    rowAfter (engine 2 2 [] []) (.paeth filtered) = some [0x01, 0x02, 0x03, 0x04, 0x0B, 0xFC, 0x09, 0x03] := by decide +kernel

/-- `UnknownFilterType(1, 5)` (R267): the row of the scanline and the byte. -/
theorem test_illegalFilter :
    after (exec (.illegalFilter 5 filtered) secondRow) (fun t => (t.errCode, t.errInfo0, t.errInfo1, t.row, t.filt)) =
      some (16, 1, 5, 1, 5) := by decide

/-- P1, step 8: the last scanline enters `Done`, and OUT presents the image. -/
theorem test_last_row :
    after (step (engine 2 2 [[0x11, 0x22, 0x33, 0x44, 0x55, 0x66, 0x77, 0x88]] rawP1)) (fun t => (t.phase, t.row, t.out)) =
      some (.done, 2, some ⟨2, 2, 8, [0x11, 0x22, 0x33, 0x44, 0x55, 0x66, 0x77, 0x88, 0x99, 0xAA, 0xBB, 0xCC, 0xDD, 0xEE,
        0xFF, 0]⟩) := by
  decide +kernel

/-! ### Witnesses: concrete states and operands that meet the hypotheses of each claim

A claim without hypotheses has none here. -/

/-- There is a next state, and this holds of it. -/
theorem exists_next {o : Host.Outcome State Fault Refusal} (P : State → Bool) (h : (next? o).any P = true) :
    ∃ t, o = .next t ∧ P t = true := by
  cases o with
  | next t => exact ⟨t, rfl, h⟩
  | fault _ => cases h
  | refused _ => cases h

/-- There is a next state. -/
theorem has_next {o : Host.Outcome State Fault Refusal} (h : (next? o).any (fun _ => true) = true) : ∃ t, o = .next t :=
  (exists_next _ h).imp fun _ ht => ht.1

/-- `secondRow` with a RAW that holds the second scanline. -/
def secondRowFull : State := { secondRow with raw := rawP1 }

/-- P1 in `Done`. -/
def doneP1 : State :=
  { engine 2 2 [] rawP1 with phase := .done, done := true, row := 2, pix := cells 0 (List.replicate 16 7) }

theorem inv_inLoop : (inLoop frameIhdr22).Inv where
  notReading := by decide
  done := by decide
  failed := by decide
  noError := by decide
  errCode := by decide
  cmd := by decide
  cmdCode := by decide
  pos := by decide
  pixWf := by decide
  header := fun h => absurd h (by decide)
  start := fun h => absurd h (by decide)
  loop := by decide
  signatureChecked := by decide
  headerKnown := by decide
  late := by decide
  defiltering := fun h => absurd h (by decide)
  finished := fun h => absurd h (by decide)
  defilterSession := fun h => absurd h (by decide)

theorem rowReady_secondRow : secondRow.RowReady :=
  ⟨by decide, by decide, ⟨by decide, by decide⟩⟩

theorem lineReady_secondRow : secondRow.LineReady := fun _ => ⟨by decide, by decide⟩

theorem rowReady_firstRow : (engine 2 2 [] []).RowReady :=
  ⟨by decide, by decide, ⟨by decide, by decide⟩⟩

theorem inv_secondRow : secondRowFull.Inv where
  notReading := by decide
  done := by decide
  failed := by decide
  noError := by decide
  errCode := by decide
  cmd := by decide
  cmdCode := by decide
  pos := by decide
  pixWf := by decide
  header := fun _ => ⟨by decide, by decide, rfl, rfl, rfl, rfl, rfl, by decide, by decide⟩
  start := fun h => absurd h (by decide)
  loop := by decide
  signatureChecked := by decide
  headerKnown := by decide
  late := by decide
  defiltering := fun _ => ⟨by decide, ⟨by decide, by decide, ⟨by decide, by decide⟩⟩, fun _ => ⟨by decide, by decide⟩⟩
  finished := fun h => absurd h (by decide)
  defilterSession := by decide

theorem inv_decompressing : (decompressingP1 (.ok rawP1)).Inv where
  notReading := by decide
  done := by decide
  failed := by decide
  noError := by decide
  errCode := by decide
  cmd := by decide
  cmdCode := by decide
  pos := by decide
  pixWf := by decide
  header := fun _ => ⟨by decide, by decide, rfl, rfl, rfl, rfl, rfl, by decide, by decide⟩
  start := fun h => absurd h (by decide)
  loop := by decide
  signatureChecked := by decide
  headerKnown := by decide
  late := by decide
  defiltering := fun h => absurd h (by decide)
  finished := fun h => absurd h (by decide)
  defilterSession := by decide

theorem inv_done : doneP1.Inv where
  notReading := by decide
  done := by decide
  failed := by decide
  noError := by decide
  errCode := by decide
  cmd := by decide
  cmdCode := by decide
  pos := by decide
  pixWf := by decide
  header := fun _ => ⟨by decide, by decide, rfl, rfl, rfl, rfl, rfl, by decide, by decide⟩
  start := fun h => absurd h (by decide)
  loop := by decide
  signatureChecked := by decide
  headerKnown := by decide
  late := by decide
  defiltering := fun h => absurd h (by decide)
  finished := fun _ => ⟨by decide, ⟨by decide, by decide⟩⟩
  defilterSession := by decide

theorem noReset_of_nothing {s : State} (h : hostAct s = .nothing) : NoReset s := fun _ hp => by rw [h] at hp; cases hp

/-- A frame whose stored CRC is the default one, when nothing bounds a chunk. -/
theorem accepted (tag : Tag) (data : List Byte) (h : data.length < lengthLimit) (s : State)
    (hs : s.params.crcUnit = .standard ∧ s.params.chunkCap = .inf) :
    FrameAccepted tag data (crc32Standard (tag.bytes ++ data)) s :=
  ⟨h, by rw [hs.2]; rfl, by rw [hs.1]; rfl⟩

theorem witness_DecodeUndoesEncode :
    (Instr.idat [] 0).wf = true ∧ (Instr.illegalFilter 5 [1, 2, 3, 4]).wf = true ∧
    (Instr.paeth [1, 2, 3, 4]).wf = true ∧ Instr.paeth [1, 2, 3, 4] ≠ .cmdDecode ∧
    ∀ w h raw, Instr.paeth [1, 2, 3, 4] ≠ .cmdDefilter w h raw := by
  refine ⟨by decide, by decide, by decide, by decide, fun _ _ _ h => ?_⟩
  cases h

theorem witness_EncodeUndoesDecode :
    decode (.sig (signature ++ [7])) = .ok .sig [7] ∧ decode (.frame frameIend) = .ok (.iend [] 0xAE426082) [] ∧
    (1 : Word) ≠ 0 ∧ decode (.scanline (4 * (1 : Word).toNat) [255, 1, 2, 3, 4]) = .ok (.illegalFilter 255 [1, 2, 3, 4]) [] := by
  decide

/-- A tag of each of the four clauses. -/
theorem witness_TagBytesSelectTheChunkKind :
    tagIHDR.bytes = [0x49, 0x48, 0x44, 0x52] ∧ tagIDAT.bytes = [0x49, 0x44, 0x41, 0x54] ∧
    tagIEND.bytes = [0x49, 0x45, 0x4E, 0x44] ∧
    (let t : Tag := ⟨0x49, 0x45, 0x4E, 0x64⟩
     t.bytes ≠ [0x49, 0x48, 0x44, 0x52] ∧ t.bytes ≠ [0x49, 0x44, 0x41, 0x54] ∧ t.bytes ≠ [0x49, 0x45, 0x4E, 0x44]) := by
  decide

/-- A filter type of each clause, and both ends of the last. -/
theorem witness_FilterByteSelectsTheReconstruction :
    (0 : Byte).toNat = 0 ∧ (1 : Byte).toNat = 1 ∧ (2 : Byte).toNat = 2 ∧ (3 : Byte).toNat = 3 ∧ (4 : Byte).toNat = 4 ∧
    5 ≤ (5 : Byte).toNat ∧ 5 ≤ (255 : Byte).toNat := by decide

/-- A state of each clause. -/
theorem witness_StepRunsTheDecodedRecord :
    (let s := inLoop frameIhdr22
     hostAct s = .nothing ∧ s.phase.inChunkLoop = true ∧ s.params.srcAnswers = .inf ∧
     decode (.frame (s.params.src.drop s.pos)) = .ok (.ihdr [0, 0, 0, 2, 0, 0, 0, 2, 8, 6, 0, 0, 0] 0x72B60D24) []) ∧
    (let s := secondRowFull
     hostAct s = .nothing ∧ s.phase = .defiltering ∧
     decode (.scanline s.stride (s.raw.drop (s.row * (s.stride + 1)))) =
       .ok (.none [0x99, 0xAA, 0xBB, 0xCC, 0xDD, 0xEE, 0xFF, 0x00]) []) ∧
    (let s := fresh signature [.code 1, .reset]
     s.cmdPort = .code 1 :: [.reset] ∧ s.phase = .start ∧
     decode (.cmd 1 s.params.cfgWidth s.params.cfgHeight s.params.rawIn) = .ok .cmdDecode []) ∧
    (let s := { fresh signature [] with cmd := 1 }
     hostAct s = .nothing ∧ s.phase = .start ∧ s.cmd = 1) := by decide

theorem witness_StepFollowsTheStepTable :
    ((inLoop frameIhdr22).Inv ∧ hostAct (inLoop frameIhdr22) = .nothing) ∧
    ((decompressingP1 (.ok rawP1)).Inv ∧ hostAct (decompressingP1 (.ok rawP1)) = .nothing) ∧
    (secondRowFull.Inv ∧ hostAct secondRowFull = .nothing) ∧ doneP1.Inv ∧ hostAct doneP1 = .nothing :=
  ⟨⟨inv_inLoop, by decide⟩, ⟨inv_decompressing, by decide⟩, ⟨inv_secondRow, by decide⟩, inv_done, by decide⟩

theorem witness_NoStepIsEnabledWhenWaitingOrOver :
    (let s := fresh signature [.code 3]
     hostAct s = .nothing ∧ s.phase = .start ∧ s.cmd = 0) ∧
    (hostAct doneP1 = .nothing ∧ doneP1.phase = .done) ∧
    (let s := raise .truncatedStream (inLoop [])
     hostAct s = .nothing ∧ s.phase = .failed) := by decide

/-- A state of each clause. -/
theorem witness_PhaseMovesAsTheStepTable :
    (let s := fresh signature [.code 1]
     s.phase = .start ∧ NoReset s ∧ ∃ t, step s = .next t) ∧
    (let s := inLoop [1, 2, 3]
     s.phase.inChunkLoop = true ∧ NoReset s ∧ ∃ t, step s = .next t) ∧
    (let s := endSeenP1 .err
     s.phase = .endSeen ∧ NoReset s ∧ ∃ t, step s = .next t) ∧
    (let s := decompressingP1 (.ok rawP1)
     s.phase = .decompressing ∧ NoReset s ∧ ∃ t, step s = .next t) ∧
    (let s := secondRowFull
     s.phase = .defiltering ∧ NoReset s ∧ ∃ t, step s = .next t) ∧
    (doneP1.phase = .done ∧ NoReset doneP1 ∧ ∃ t, step doneP1 = .next t) ∧
    (let s := raise .truncatedStream (inLoop [])
     s.phase = .failed ∧ NoReset s ∧ ∃ t, step s = .next t) :=
  ⟨⟨rfl, fun _ h => by revert h; simp [hostAct, fresh, State.afterReset, decode, decodeCmd], has_next (by decide)⟩,
   ⟨rfl, noReset_of_nothing rfl, has_next (by decide)⟩, ⟨rfl, noReset_of_nothing rfl, has_next (by decide)⟩,
   ⟨rfl, noReset_of_nothing rfl, has_next (by decide)⟩, ⟨rfl, noReset_of_nothing rfl, has_next (by decide +kernel)⟩,
   ⟨rfl, noReset_of_nothing rfl, has_next (by decide)⟩, ⟨rfl, noReset_of_nothing rfl, has_next (by decide)⟩⟩

theorem witness_CommandsOutsideStartAreIgnored :
    (let s := { doneP1 with cmdPort := [.code 1, .reset] }
     s.cmdPort = .code 1 :: [.reset] ∧ s.phase ≠ .start) ∧
    (let s := fresh signature [.code 3]
     s.cmdPort = .code 3 :: [] ∧ (3 : BitVec 2) = 3) ∧ doneP1.phase ≠ .start := by decide

theorem witness_ResetLeavesTheResetValues : { doneP1 with cmdPort := [.reset, .code 1] }.cmdPort = .reset :: [.code 1] := rfl

/-- A stream that ends inside a frame's length, and one whose `IHDR` fails its dispatch (V58). -/
theorem witness_FrameFaultsArePrecise :
    (let s := inLoop [1, 2, 3]
     hostAct s = .nothing ∧ s.phase.inChunkLoop = true ∧
       ∃ t, step s = .next t ∧ decide (t.phase = .failed ∧ t.pos = 8) = true) ∧
    (let s := inLoop [0, 0, 0, 0x0C, 0x49, 0x48, 0x44, 0x52, 0, 0, 0, 2, 0, 0, 0, 2, 8, 6, 0, 0, 0xBE, 0x00, 0xD1, 0xE0]
     hostAct s = .nothing ∧ s.phase.inChunkLoop = true ∧
       ∃ t, step s = .next t ∧ decide (t.phase = .failed ∧ t.pos = 32 ∧ t.errCode = 4) = true) :=
  ⟨⟨rfl, rfl, exists_next _ (by decide)⟩, rfl, rfl, exists_next _ (by decide +kernel)⟩

/-- Seven bytes; eight of which the last differs; the eight of the signature. -/
theorem witness_SignatureRecordIsCheckedOnce :
    (let s := fresh (signature.take 7) []
     s.params.srcAnswers = .inf ∧ s.params.src.length < s.pos + 8) ∧
    (let s := fresh [0x89, 0x50, 0x4E, 0x47, 0x0D, 0x0A, 0x1A, 0x0B] []
     let bytes : List Byte := [0x89, 0x50, 0x4E, 0x47, 0x0D, 0x0A, 0x1A, 0x0B]
     s.params.srcAnswers = .inf ∧ s.params.src.drop s.pos = bytes ++ [] ∧ bytes.length = 8 ∧
       bytes ≠ [0x89, 0x50, 0x4E, 0x47, 0x0D, 0x0A, 0x1A, 0x0A]) ∧
    (let s := fresh signature []
     s.params.srcAnswers = .inf ∧ s.params.src.drop s.pos = [0x89, 0x50, 0x4E, 0x47, 0x0D, 0x0A, 0x1A, 0x0A] ++ []) := by
  decide

/-- One byte short of the length field (V25's kind), of the body (V27's kind) and of the stored CRC (V28). -/
theorem witness_ShortFramesRaiseTruncatedStream :
    (let s := inLoop [0, 0, 0]
     hostAct s = .nothing ∧ s.phase.inChunkLoop = true ∧ s.params.srcAnswers = .inf ∧ s.pos ≤ s.srcLen ∧ s.srcLen < s.pos + 4) ∧
    (let s := inLoop (frameIhdr22.take 20)
     hostAct s = .nothing ∧ s.phase.inChunkLoop = true ∧ s.params.srcAnswers = .inf ∧ s.pos ≤ s.srcLen ∧
       s.pos + 4 ≤ s.srcLen ∧ (be32 ((s.params.src.drop s.pos).take 4)).toNat = 13 ∧
       Cap.exceededBy s.params.chunkCap 13 = false ∧ s.srcLen < s.pos + 8 + 13) ∧
    (let s := inLoop (frameIhdr22.take 24)
     hostAct s = .nothing ∧ s.phase.inChunkLoop = true ∧ s.params.srcAnswers = .inf ∧ s.pos ≤ s.srcLen ∧
       s.pos + 4 ≤ s.srcLen ∧ (be32 ((s.params.src.drop s.pos).take 4)).toNat = 13 ∧
       Cap.exceededBy s.params.chunkCap 13 = false ∧ s.pos + 8 + 13 ≤ s.srcLen ∧ s.srcLen < s.pos + 12 + 13) := by decide

/-- V30: the smallest illegal length. -/
theorem witness_OverlongLengthRaisesWrongChunkLength :
    let s := inLoop [0x80, 0, 0, 0]
    hostAct s = .nothing ∧ s.phase.inChunkLoop = true ∧ s.params.srcAnswers = .inf ∧ s.pos + 4 ≤ s.srcLen ∧
      (be32 ((s.params.src.drop s.pos).take 4)).toNat = 2147483648 := by decide

/-- V73: 29 bytes above a cap of 28. -/
theorem witness_ChunkCapRaisesAllocationFailure :
    let s := { inLoop [] with params := { (inLoop []).params with chunkCap := .upTo 28 } }
    IsFrame (.idat payP1 0xC4CCD299) tagIDAT payP1 0xC4CCD299 ∧ payP1.length < 2147483648 ∧
      Cap.exceededBy s.params.chunkCap payP1.length = true :=
  ⟨.inr (.inl ⟨rfl, rfl⟩), by decide, by decide⟩

/-- A stored CRC that differs from the computed one in its last bit, and an equal one. -/
theorem witness_CrcIsCheckedBeforeTheDispatch :
    ([] : List Byte).length < 2147483648 ∧ Cap.exceededBy (inLoop []).params.chunkCap 0 = false ∧
    crc32 (inLoop []).params.crcUnit (tagIEND.bytes ++ []) = some 0xAE426082 ∧ (0xAE426082 : Word) ≠ 0xAE426083 ∧
    IsFrame (.iend [] 0xAE426083) tagIEND [] 0xAE426083 := by
  refine ⟨by decide, by decide, by decide +kernel, by decide, .inr (.inr (.inl ⟨rfl, rfl⟩))⟩

/-- Data of each clause: 12 bytes, and 13 bytes whose first unsupported field is each of the six. -/
theorem witness_HeaderChecksAreMadeInOrder (data : List Byte)
    (h : data ∈ [[0, 0, 0, 2, 0, 0, 0, 2, 8, 6, 0, 0], [0, 0, 0, 2, 0, 0, 0, 2, 8, 6, 1, 0, 0],
      [0, 0, 0, 2, 0, 0, 0, 2, 8, 6, 0, 1, 0], [0, 0, 0, 2, 0, 0, 0, 2, 8, 2, 0, 0, 0], [0, 0, 0, 2, 0, 0, 0, 2, 16, 6, 0, 0, 0],
      [0, 0, 0, 2, 0, 0, 0, 2, 8, 6, 0, 0, 1], [0, 0, 0, 0, 0, 0, 0, 2, 8, 6, 0, 0, 0]]) :
    FrameAccepted tagIHDR data (crc32Standard (tagIHDR.bytes ++ data)) (inLoop []) ∧ (inLoop []).hdrValid = false :=
  ⟨accepted _ _ (by revert data; decide) _ ⟨rfl, rfl⟩, rfl⟩

/-- The smallest image. -/
theorem witness_FirstIhdrCommitsTheHeader :
    (∃ crc, FrameAccepted tagIHDR [0, 0, 0, 1, 0, 0, 0, 1, 8, 6, 0, 0, 0] crc (inLoop [])) ∧ (inLoop []).hdrValid = false ∧
    be32 [0, 0, 0, 1] ≠ 0 :=
  ⟨⟨_, accepted _ _ (by decide) _ ⟨rfl, rfl⟩⟩, rfl, by decide⟩

/-- V60: a second `IHDR`, of another profile; its CRC is the spec's. -/
theorem witness_LaterIhdrIsOnlyCounted :
    FrameAccepted tagIHDR [0, 0, 0, 9, 0, 0, 0, 9, 16, 2, 0, 0, 0] 0x3F634D04 (commitHeader (hostHeader 2 2) (inLoop [])) ∧
    (commitHeader (hostHeader 2 2) (inLoop [])).hdrValid = true :=
  ⟨⟨by decide, by decide, by decide +kernel⟩, rfl⟩

/-- V78's boundary: 20 and 36 bytes fit in 56 and not in 55; an empty `IDAT` fits always. -/
theorem witness_IdatAppendsItsData :
    (∃ crc, FrameAccepted tagIDAT [] crc (inLoop [])) ∧ (∃ crc, FrameAccepted tagIDAT (List.replicate 36 7) crc (inLoop [])) ∧
    Cap.exceededBy (.upTo 56) ((List.replicate 20 (7 : Byte)).length + (List.replicate 36 (7 : Byte)).length) = false ∧
    Cap.exceededBy (.upTo 55) ((List.replicate 20 (7 : Byte)).length + (List.replicate 36 (7 : Byte)).length) = true :=
  ⟨⟨_, accepted _ _ (by decide) _ ⟨rfl, rfl⟩⟩, ⟨_, accepted _ _ (by decide) _ ⟨rfl, rfl⟩⟩, by decide, by decide⟩

theorem witness_IendEntersEndSeen : FrameAccepted tagIEND [1, 2] 0xF2CB7741 (inLoop []) :=
  ⟨by decide, by decide, by decide +kernel⟩

theorem witness_OtherChunksAreOnlyCounted :
    FrameAccepted ⟨0x69, 0x68, 0x64, 0x72⟩ [0, 0, 0, 2, 0, 0, 0, 2, 8, 6, 0, 0, 0] 0x0E8B02E5 (inLoop []) :=
  ⟨by decide, by decide, by decide +kernel⟩

theorem witness_StreamingCrcAgreesWithTheWholeBody :
    (inLoop []).params.crcUnit = .standard ∧ FrameAccepted tagIEND [] 0xAE426082 (inLoop []) ∧
    ∃ t, exec (.iend [] 0xAE426082) (inLoop []) = .next t :=
  ⟨rfl, ⟨by decide, by decide, by decide +kernel⟩, has_next (by decide +kernel)⟩

theorem witness_CmdDecodeStartsTheSession :
    let s := fresh signature [.code 1]
    s.phase = .start ∧ s.params.srcAnswers = .inf ∧
      s.params.src.drop s.pos = [0x89, 0x50, 0x4E, 0x47, 0x0D, 0x0A, 0x1A, 0x0A] ++ [] := by decide

/-- Operands of each clause for an image of 2 by 2: a zero height; 18 bytes above a cap of 17 and 16 cells above one of 15; 17
bytes on RAWIN, and 18. -/
theorem witness_CmdDefilterStartsTheEngine :
    State.reset.phase = .start ∧ (0 : Word) = 0 ∧ (2 : Word) ≠ 0 ∧
    Cap.exceededBy (.upTo 17) ((2 : Word).toNat * (4 * (2 : Word).toNat + 1)) = true ∧
    Cap.exceededBy (.upTo 15) ((2 : Word).toNat * (4 * (2 : Word).toNat)) = true ∧
    ¬ (Cap.exceededBy State.reset.params.rawCap ((2 : Word).toNat * (4 * (2 : Word).toNat + 1)) = true ∨
      Cap.exceededBy State.reset.params.pixelCap ((2 : Word).toNat * (4 * (2 : Word).toNat)) = true) ∧
    (rawP1.take 17).length < (2 : Word).toNat * (4 * (2 : Word).toNat + 1) ∧
    (2 : Word).toNat * (4 * (2 : Word).toNat + 1) ≤ rawP1.length := by decide

/-- V62, V76, P1 step 5. -/
theorem witness_EndSeenChecksHeaderAndCapacities :
    (let s := { inLoop [] with phase := .endSeen }
     hostAct s = .nothing ∧ s.phase = .endSeen ∧ s.hdrValid = false) ∧
    (let s := { endSeenP1 .err with params := { Params.reset with pixelCap := .upTo 15 } }
     hostAct s = .nothing ∧ s.phase = .endSeen ∧ s.hdrValid = true ∧
       Cap.exceededBy s.params.pixelCap (s.height.toNat * s.stride) = true) ∧
    (let s := endSeenP1 .err
     hostAct s = .nothing ∧ s.phase = .endSeen ∧ s.hdrValid = true ∧
       ¬ (Cap.exceededBy s.params.rawCap s.expRaw = true ∨
         Cap.exceededBy s.params.pixelCap (s.height.toNat * s.stride) = true)) := by decide

/-- V70, V72, P1 step 6. -/
theorem witness_DecompressingCallsInflateOnce :
    (let s := decompressingP1 .err
     hostAct s = .nothing ∧ s.phase = .decompressing ∧ inflate s.params.inflateUnit s.pay = some .err) ∧
    (let s := decompressingP1 (.ok (rawP1.take 17))
     inflate s.params.inflateUnit s.pay = some (.ok (rawP1.take 17)) ∧ (rawP1.take 17).length ≠ s.expRaw) ∧
    (let s := decompressingP1 (.ok rawP1)
     inflate s.params.inflateUnit s.pay = some (.ok rawP1) ∧ rawP1.length = s.expRaw) := by decide

/-- A silent collaborator of each of the three kinds; the source answers up to one byte less than the length field needs. -/
theorem witness_SilentCollaboratorsHangTheStep :
    (let s := { inLoop [] with params := { (inLoop []).params with crcUnit := .silent } }
     IsFrame (.iend [] 0) tagIEND [] 0 ∧ ([] : List Byte).length < 2147483648 ∧
       Cap.exceededBy s.params.chunkCap ([] : List Byte).length = false ∧ s.params.crcUnit = .silent) ∧
    (let s := { decompressingP1 .err with params := { (inLoop []).params with inflateUnit := .silent } }
     hostAct s = .nothing ∧ s.phase = .decompressing ∧ s.params.inflateUnit = .silent) ∧
    (let s := { inLoop frameIend with params := { (inLoop frameIend).params with srcAnswers := .upTo 11 } }
     hostAct s = .nothing ∧ s.phase.inChunkLoop = true ∧ Cap.exceededBy s.params.srcAnswers (s.pos + 4) = true) :=
  ⟨⟨.inr (.inr (.inl ⟨rfl, rfl⟩)), by decide, by decide, rfl⟩, by decide, by decide⟩

theorem witness_OnlyTheReconstructionSumIsReduced : (4 : Byte).toNat ≤ 4 := by decide

/-- Neighbours of each clause: V128 takes `b`, V129 takes `a`, V107 takes `ul`, V103 and V104 are the ends of `p`. -/
theorem witness_PaethPicksTheNearestNeighbour :
    let d := fun a b ul : Int => (|a + b - ul - a|, |a + b - ul - b|, |a + b - ul - ul|)
    d 0 3 1 = (2, 1, 1) ∧ d 200 100 20 = (80, 180, 260) ∧ d 100 50 75 = (25, 25, 0) ∧ d 255 255 0 = (255, 255, 510) ∧
      d 0 0 255 = (255, 255, 510) := by decide

/-- The hypotheses of `ReconstructsRow`, in the first scanline and below one: NoneCopiesTheRow, SubAddsTheLeftNeighbour,
UpAddsTheNeighbourAbove, AverageAddsTheHalvedSum, PaethAddsTheNearestNeighbour, EdgesReplaceNeighboursByZero. -/
theorem witness_ReconstructsRow :
    ((engine 2 2 [] []).RowReady ∧ filtered.length = (engine 2 2 [] []).stride) ∧
    secondRow.RowReady ∧ filtered.length = secondRow.stride :=
  ⟨⟨rowReady_firstRow, by decide⟩, rowReady_secondRow, by decide⟩

/-- The row above the last one, and the last one. -/
theorem witness_ScanlinesWriteTheirRowOnly :
    IsScanline (.paeth filtered) 4 filtered ∧ (∃ t, exec (.paeth filtered) (engine 2 2 [] []) = .next t ∧
      decide (t.row ≠ (engine 2 2 [] []).height.toNat) = true) ∧
    ∃ t, exec (.paeth filtered) secondRow = .next t ∧ decide (t.row = secondRow.height.toNat) = true :=
  ⟨.inr (.inr (.inr (.inr ⟨rfl, rfl⟩))), exists_next _ (by decide +kernel), exists_next _ (by decide +kernel)⟩

theorem witness_LastScanlineEntersDone :
    IsScanline (.up filtered) 2 filtered ∧ secondRow.RowReady ∧ filtered.length = secondRow.stride ∧
    secondRow.row + 1 = secondRow.height.toNat :=
  ⟨.inr (.inr (.inl ⟨rfl, rfl⟩)), rowReady_secondRow, by decide, by decide⟩

/-- Filter types 5 and 255, in RAW at the second scanline. -/
theorem witness_IllegalFilterTypesRaise (ft : Byte) (h : ft = 5 ∨ ft = 255) :
    let s := { secondRow with raw := rawP1.take 9 ++ ft :: filtered }
    hostAct s = .nothing ∧ s.phase = .defiltering ∧ s.raw.drop (s.row * (s.stride + 1)) = ft :: filtered ∧
      s.stride ≤ filtered.length ∧ 5 ≤ ft.toNat := by
  revert ft; decide

theorem witness_BufferedEngineAgrees :
    secondRow.RowReady ∧ secondRow.LineReady ∧ filtered.length = secondRow.stride :=
  ⟨rowReady_secondRow, lineReady_secondRow, by decide⟩

/-- Two scanlines that agree on channel 3 alone, below rows that agree on it alone. -/
theorem witness_ChannelsAreIndependent :
    let s := secondRow
    let s' := engine 2 2 [[0, 0, 0, 0x28, 1, 1, 1, 0xFD]] []
    let xs' : List Byte := [9, 9, 9, 0x04, 8, 8, 8, 0xFF]
    IsScanline (.paeth filtered) 4 filtered ∧ IsScanline (.paeth xs') 4 xs' ∧ s.RowReady ∧ s'.RowReady ∧
    filtered.length = s.stride ∧ s'.stride = s.stride ∧ s'.row = s.row ∧ xs'.length = filtered.length ∧
    (∀ c, c < s.stride → c % 4 = 3 → filtered[c]? = xs'[c]?) ∧
    (∀ c, c < s.stride → c % 4 = 3 → 0 < s.row →
      Memory.read s.pix ((s.row - 1) * s.stride + c) = Memory.read s'.pix ((s.row - 1) * s.stride + c)) ∧
    (∃ t, exec (.paeth filtered) s = .next t) ∧ ∃ t', exec (.paeth xs') s' = .next t' :=
  ⟨.inr (.inr (.inr (.inr ⟨rfl, rfl⟩))), .inr (.inr (.inr (.inr ⟨rfl, rfl⟩))), rowReady_secondRow,
   ⟨by decide, by decide, ⟨by decide, by decide⟩⟩, by decide, by decide, by decide, by decide, by decide, by decide,
   has_next (by decide +kernel), has_next (by decide +kernel)⟩

/-- An image of 1 by 2 under `SUB` and `PAETH`. -/
theorem witness_DefilterUndoesTheForwardFilter :
    let rows : List (List Byte) := [[10, 20, 30, 40], [200, 0, 255, 40]]
    let fts : List Byte := [1, 4]
    let p := { Params.reset with cfgWidth := 1, cfgHeight := 2, rawIn := forwardRaw rows fts }
    p.rawCap = .inf ∧ p.pixelCap = .inf ∧ p.cfgWidth ≠ 0 ∧ p.cfgHeight ≠ 0 ∧ rows.length = p.cfgHeight.toNat ∧
      fts.length = rows.length ∧ (∀ r ∈ rows, r.length = 4 * p.cfgWidth.toNat) ∧ (∀ ft ∈ fts, ft.toNat ≤ 4) ∧
      p.rawIn = forwardRaw rows fts := by decide

theorem witness_EveryStepKeepsTheInvariant :
    (secondRowFull.Inv ∧ ∃ t, step secondRowFull = .next t) ∧
    ((decompressingP1 (.ok rawP1)).Inv ∧ ∃ t, step (decompressingP1 (.ok rawP1)) = .next t) ∧
    (inLoop frameIhdr22).Inv ∧ ∃ t, step (inLoop frameIhdr22) = .next t :=
  ⟨⟨inv_secondRow, has_next (by decide +kernel)⟩, ⟨inv_decompressing, has_next (by decide)⟩, inv_inLoop,
   has_next (by decide +kernel)⟩

theorem witness_EveryStepCompletes :
    secondRowFull.Inv ∧ secondRowFull.params.Answering :=
  ⟨inv_secondRow, rfl, by decide, by decide⟩

/-- A state with each flag set. -/
theorem witness_FlagsAreClearedByResetOnly :
    (NoReset (endSeenP1 .err) ∧ (∃ t, step (endSeenP1 .err) = .next t) ∧ (endSeenP1 .err).sigOk = true ∧
      (endSeenP1 .err).hdrValid = true) ∧
    (NoReset doneP1 ∧ (∃ t, step doneP1 = .next t) ∧ doneP1.done = true) ∧
    (let s := raise .truncatedStream (inLoop [])
     NoReset s ∧ (∃ t, step s = .next t) ∧ s.failed = true) :=
  ⟨⟨noReset_of_nothing rfl, has_next (by decide), rfl, rfl⟩, ⟨noReset_of_nothing rfl, has_next (by decide), rfl⟩,
   noReset_of_nothing rfl, has_next (by decide), rfl⟩

/-- A frame that is counted, one that is not, and a step past the chunk loop. -/
theorem witness_PositionAndChunkIndexOnlyIncrease :
    (let s := inLoop frameIend
     NoReset s ∧ s.phase.inChunkLoop = true ∧ ∃ t, step s = .next t ∧ decide (t.phase ≠ .failed ∧ t.chunkIndex = 1) = true) ∧
    (NoReset (inLoop [1]) ∧ ∃ t, step (inLoop [1]) = .next t ∧ decide (t.phase = .failed ∧ t.chunkIndex = 0) = true) ∧
    (NoReset secondRowFull ∧ (∃ t, step secondRowFull = .next t) ∧ secondRowFull.phase ≠ .start ∧
      secondRowFull.phase.inChunkLoop = false) :=
  ⟨⟨noReset_of_nothing rfl, rfl, exists_next _ (by decide +kernel)⟩, ⟨noReset_of_nothing rfl, exists_next _ (by decide)⟩,
   noReset_of_nothing rfl, has_next (by decide +kernel), by decide, rfl⟩

theorem witness_AcceptedHeaderIsImmutable :
    secondRowFull.Inv ∧ NoReset secondRowFull ∧ (∃ t, step secondRowFull = .next t) ∧ secondRowFull.hdrValid = true :=
  ⟨inv_secondRow, noReset_of_nothing rfl, has_next (by decide +kernel), rfl⟩

/-- A step that leaves PAY, one that grows it and the one that empties it. -/
theorem witness_PayloadIsAppendOnly :
    (NoReset (endSeenP1 .err) ∧ ∃ t, step (endSeenP1 .err) = .next t ∧ decide (t.pay = payP1) = true) ∧
    (let s := inLoop (frameBytes tagIDAT [0x78] (crc32Standard (tagIDAT.bytes ++ [0x78])))
     NoReset s ∧ ∃ t, step s = .next t ∧ decide (t.pay = [0x78]) = true) ∧
    (NoReset (decompressingP1 (.ok rawP1)) ∧
      ∃ t, step (decompressingP1 (.ok rawP1)) = .next t ∧ decide (t.phase = .defiltering ∧ t.pay = []) = true) :=
  ⟨⟨noReset_of_nothing rfl, exists_next _ (by decide)⟩, ⟨noReset_of_nothing rfl, exists_next _ (by decide +kernel)⟩,
   noReset_of_nothing rfl, exists_next _ (by decide)⟩

theorem witness_PixelCellsAreWrittenOnce :
    NoReset secondRowFull ∧ secondRowFull.phase = .defiltering ∧ (∃ t, step secondRowFull = .next t) ∧
    Memory.read secondRowFull.pix 0 = some 0x0A :=
  ⟨noReset_of_nothing rfl, rfl, has_next (by decide +kernel), by decide⟩

theorem witness_RunParametersNeverChange : ∃ t, step (decompressingP1 (.ok rawP1)) = .next t := has_next (by decide)

theorem witness_OutIsTheFinishedImageOrNothing :
    secondRowFull.done = false ∧ (secondRowFull.Inv ∧ secondRowFull.phase ≠ .done) ∧ doneP1.Inv ∧ doneP1.phase = .done :=
  ⟨rfl, ⟨inv_secondRow, by decide⟩, inv_done, rfl⟩

theorem witness_StatusHidesTheHeaderUntilValid : State.reset.hdrValid = false ∧ secondRow.hdrValid = true := by decide

theorem witness_EverySessionEnds :
    let s := inLoop frameIhdr22
    s.Inv ∧ s.params.Answering ∧ s.cmdPort = [] ∧ s.phase ≠ .start :=
  ⟨inv_inLoop, ⟨rfl, by decide, by decide⟩, rfl, by decide⟩

end Sys2Proof.Tests
end

section
/-! Proofs of the state family: the reset state, and what STATUS presents. -/

namespace Sys2Proof.Machine

/-- Settles O13: the reset state is a closed term, and every register is computed. -/
theorem resetStateHasTheResetValues : Obligations.ResetStateHasTheResetValues := by
  unfold Obligations.ResetStateHasTheResetValues
  decide

/-- After reset only the clauses of the phase `Start` have anything to say. -/
theorem inv_afterReset (p : Params) (port : List PortAction) : (State.afterReset p port).Inv where
  notReading := nofun
  done := iff_of_false nofun nofun
  failed := iff_of_false nofun nofun
  noError := iff_of_true rfl nofun
  errCode := Nat.zero_le 16
  cmd := iff_of_true rfl rfl
  cmdCode := show (0 : BitVec 2) ≠ 3 by decide
  pos := Nat.zero_le _
  pixWf := wf_afterReset p port
  header := nofun
  start _ := ⟨rfl, rfl, rfl, rfl, rfl⟩
  loop := nofun
  signatureChecked := nofun
  headerKnown := nofun
  late := nofun
  defiltering := nofun
  finished := nofun
  defilterSession _ := ⟨rfl, rfl, rfl, rfl⟩

/-- Settles O49. -/
theorem resetMeetsTheInvariant : Obligations.ResetMeetsTheInvariant :=
  ⟨inv_afterReset Params.reset [], inv_afterReset⟩

theorem status_header_of_not_valid {s : State} (h : s.hdrValid = false) : s.status.header = none := by
  simp [State.status, h]

theorem status_header_of_valid {s : State} (h : s.hdrValid = true) :
    s.status.header =
      some { width := s.width, height := s.height, bitDepth := s.bitDepth, colorType := s.colorType,
             compressionMethod := s.compressionMethod, filterMethod := s.filterMethod,
             interlaceMethod := s.interlaceMethod, stride := s.stride } := by
  simp [State.status, h]

/-- Settles O59: the ungated registers are fields of `status`, and the header is decided by `hdr_valid`. -/
theorem statusHidesTheHeaderUntilValid : Obligations.StatusHidesTheHeaderUntilValid :=
  fun _ => ⟨rfl, rfl, rfl, rfl, rfl, rfl, rfl, rfl, rfl, rfl, rfl, rfl, rfl, status_header_of_not_valid,
    status_header_of_valid⟩

end Sys2Proof.Machine
end

section
/-! Proofs of the state family: what one step keeps, each read off the inversion of `step` (`step_inversion`). A lemma named
`StepTo.…` is about one step without reset, from the state with the CMD port taken; `takePort` changes no register, so it holds
from the state itself too. -/

namespace Sys2Proof.Machine

/-! ### Frames of a step in equational form -/

theorem stepTo_of_noReset {s t : State} (hn : NoReset s) (h : step s = .next t) : StepTo s.takePort t := by
  rcases step_inversion h with ⟨port, hr, -⟩ | ⟨-, ht⟩
  · exact absurd hr (hn port)
  · exact ht

/-- `SameButFrame` solved for the changed state: every other register can then be read off. -/
theorem SameButFrame.exists_eq {s u : State} (h : SameButFrame s u) :
    ∃ pos len body crcS crcC crcAcc,
      u = { s with pos := pos, len := len, body := body, crcS := crcS, crcC := crcC, crcAcc := crcAcc } :=
  ⟨_, _, _, _, _, _, h⟩

theorem SameButFrame.params {s u : State} (h : SameButFrame s u) : u.params = s.params := by rw [h]
theorem SameButFrame.chunkIndex {s u : State} (h : SameButFrame s u) : u.chunkIndex = s.chunkIndex := by rw [h]
theorem SameButFrame.pay {s u : State} (h : SameButFrame s u) : u.pay = s.pay := by rw [h]

/-- `AfterScanline` solved for the changed state. -/
theorem AfterScanline.exists_eq {ft : Byte} {s t : State} (h : AfterScanline ft s t) :
    ∃ col x a b ul line left upleft pix,
      t = { s with
            row := s.row + 1, phase := afterRowPhase s, done := afterRowDone s, filt := ft, col := col, x := x, a := a, b := b,
            ul := ul, line := line, left := left, upleft := upleft, pix := pix } :=
  ⟨_, _, _, _, _, _, _, _, _, h⟩

theorem AfterScanline.params {ft : Byte} {s t : State} (h : AfterScanline ft s t) : t.params = s.params := by rw [h]
theorem AfterScanline.pos {ft : Byte} {s t : State} (h : AfterScanline ft s t) : t.pos = s.pos := by rw [h]
theorem AfterScanline.chunkIndex {ft : Byte} {s t : State} (h : AfterScanline ft s t) : t.chunkIndex = s.chunkIndex := by rw [h]
theorem AfterScanline.pay {ft : Byte} {s t : State} (h : AfterScanline ft s t) : t.pay = s.pay := by rw [h]
theorem AfterScanline.raw {ft : Byte} {s t : State} (h : AfterScanline ft s t) : t.raw = s.raw := by rw [h]
theorem AfterScanline.pixSize {ft : Byte} {s t : State} (h : AfterScanline ft s t) : t.pixSize = s.pixSize := by rw [h]

/-- What a scanline step that went on left: only `AfterScanline`, and no written cell changed. -/
theorem scanlineStep_frame {ft : Byte} {predict : Byte → Byte → Byte → Nat} {xs : List Byte} {s t : State}
    (h : scanlineStep ft predict xs s = .ok t) :
    AfterScanline ft s t ∧ ∀ i v, Memory.read s.pix i = some v → Memory.read t.pix i = some v := by
  rcases scanlineStep_cases ft predict xs s with ⟨f, hf⟩ | ⟨-, u, hu, hafter, hkeep, -⟩
  · rw [hf] at h; cases h
  · rw [hu] at h; cases h; exact ⟨hafter, hkeep⟩

theorem afterRowDone_of_done {s : State} (h : s.done = true) : afterRowDone s = true := by
  simp [afterRowDone, h]

/-! ### The parameters of the run (R39) -/

theorem StepTo.params {s t : State} (h : StepTo s t) : t.params = s.params := by
  cases h with
  | frameRaised e u _ hu => exact hu.params
  | scanline ft xs t _ _ _ ht => exact (scanlineStep_frame ht).1.params
  | _ => rfl

/-- Settles O57: a step is a reset, which keeps them by definition, or one of the ways of `StepTo`. -/
theorem runParametersNeverChange : Obligations.RunParametersNeverChange := by
  intro s t h
  rcases step_inversion h with ⟨port, -, rfl⟩ | ⟨-, ht⟩
  · rfl
  · exact ht.params

/-! ### The flags (R25) -/

/-- A flag that is 1 stays 1. -/
theorem StepTo.flags {s t : State} (h : StepTo s t) :
    (s.sigOk = true → t.sigOk = true) ∧ (s.hdrValid = true → t.hdrValid = true) ∧ (s.done = true → t.done = true) ∧
    (s.failed = true → t.failed = true) := by
  cases h with
  | frameRaised e u _ hu =>
    obtain ⟨_, _, _, _, _, _, rfl⟩ := hu.exists_eq
    exact ⟨id, id, id, fun _ => rfl⟩
  | scanline ft xs t _ _ _ ht =>
    obtain ⟨_, _, _, _, _, _, _, _, _, rfl⟩ := (scanlineStep_frame ht).1.exists_eq
    exact ⟨id, id, afterRowDone_of_done, id⟩
  | _ => simp +contextual [afterCommit, afterFrameCheck, afterFrameRead]

/-- Settles O52: no way of `StepTo` writes 0 to a flag. -/
theorem flagsAreClearedByResetOnly : Obligations.FlagsAreClearedByResetOnly :=
  fun _ _ hn h => (stepTo_of_noReset hn h).flags

/-! ### The position and the frame count (R22, R23) -/

/-- In the chunk loop a step fails with the count as it was, or counts one frame of at least 12 bytes. -/
theorem StepTo.counts_in_loop {s t : State} (h : StepTo s t) (hl : s.phase.inChunkLoop = true) :
    (t.phase = .failed ∧ t.chunkIndex = s.chunkIndex ∧ s.pos ≤ t.pos) ∨
    (t.phase ≠ .failed ∧ t.chunkIndex = s.chunkIndex + 1 ∧ s.pos + 12 ≤ t.pos) := by
  have hne : s.phase ≠ .failed := fun h => by simp [h, Phase.inChunkLoop] at hl
  have h12 : ∀ n, s.pos + 12 ≤ s.pos + (12 + n) := fun n => by omega
  cases h with
  | frameRaised e u _ hu hp => exact .inl ⟨rfl, hu.chunkIndex, hp.1⟩
  | frameIgnored tag data crc => exact .inr ⟨hne, rfl, h12 _⟩
  | header tag data crc =>
    refine .inr ⟨?_, rfl, h12 _⟩
    show (if s.phase = .signatureChecked then Phase.headerKnown else s.phase) ≠ .failed
    split
    · decide
    · exact hne
  | payload tag data crc => exact .inr ⟨by simp, rfl, h12 _⟩
  | loopEnd tag data crc => exact .inr ⟨by simp, rfl, h12 _⟩
  | idle h => rcases h with h | h | h <;> simp [h, Phase.inChunkLoop] at hl
  | raisedAsIs _ h => rcases h with h | h <;> simp [h, Phase.inChunkLoop] at hl
  | sigShort h | sigBad h | sigGood h | dimensions _ _ h | noRoom _ _ h | shortRaw _ _ _ h | defilter _ _ _ h
  | decompressing h | inflated _ h | badFilter _ h | scanline _ _ _ h => simp [h, Phase.inChunkLoop] at hl

/-- Outside the chunk loop no frame is counted, and past `Start` the position stays. -/
theorem StepTo.position_outside_loop {s t : State} (h : StepTo s t) (hl : s.phase.inChunkLoop = false) :
    t.chunkIndex = s.chunkIndex ∧ s.pos ≤ t.pos ∧ (s.phase ≠ .start → t.pos = s.pos) := by
  cases h with
  | sigBad h | sigGood h => exact ⟨rfl, Nat.le_add_right _ _, fun hne => absurd h hne⟩
  | scanline ft xs t _ _ _ ht =>
    have hafter := (scanlineStep_frame ht).1
    have hpos : t.pos = s.pos := hafter.pos
    exact ⟨hafter.chunkIndex, hpos.ge, fun _ => hpos⟩
  | frameRaised _ _ h | frameIgnored _ _ _ h | header _ _ _ h | payload _ _ _ h | loopEnd _ _ _ h => simp [h] at hl
  | _ => exact ⟨rfl, le_rfl, fun _ => rfl⟩

/-- Settles O53, by whether the step is one of the chunk loop. -/
theorem positionAndChunkIndexOnlyIncrease : Obligations.PositionAndChunkIndexOnlyIncrease := by
  intro s t hn h
  have ht := stepTo_of_noReset hn h
  cases hl : s.phase.inChunkLoop with
  | true =>
    rcases ht.counts_in_loop hl with ⟨hf, hc, hp⟩ | ⟨hf, hc, hp⟩
    · exact ⟨hp, fun _ h0 => absurd h0 (by simp), .inl hc, fun _ hne => absurd hf hne⟩
    · exact ⟨(Nat.le_add_right _ 12).trans hp, fun _ h0 => absurd h0 (by simp), .inr ⟨hc, rfl, hf, hp⟩, fun _ _ => hc⟩
  | false =>
    obtain ⟨hc, hle, hp⟩ := ht.position_outside_loop hl
    exact ⟨hle, fun hs _ => hp hs, .inl hc, fun h1 => absurd h1 (by simp)⟩

/-! ### The accepted header (R28, R29) -/

theorem SameHeader.refl (s : State) : SameHeader s s := ⟨rfl, rfl, rfl, rfl, rfl, rfl, rfl, rfl, rfl⟩

/-- A step that can commit a header is one of `Start` or has `hdr_valid = 0`. -/
theorem StepTo.sameHeader {s t : State} (h : StepTo s t) (hv : s.hdrValid = true) (hs : s.phase ≠ .start) :
    SameHeader s t := by
  cases h with
  | noRoom _ _ h | shortRaw _ _ _ h | defilter _ _ _ h => exact absurd h hs
  | header _ _ _ _ _ _ h0 => rw [hv] at h0; cases h0
  | frameRaised e u _ hu =>
    obtain ⟨_, _, _, _, _, _, rfl⟩ := hu.exists_eq
    exact SameHeader.refl s
  | scanline ft xs t _ _ _ ht =>
    obtain ⟨_, _, _, _, _, _, _, _, _, rfl⟩ := (scanlineStep_frame ht).1.exists_eq
    exact SameHeader.refl s
  | _ => exact SameHeader.refl s

/-- Settles O54: the invariant has `hdr_valid = 0` in `Start`, so the step is none that commits a header. -/
theorem acceptedHeaderIsImmutable : Obligations.AcceptedHeaderIsImmutable := by
  intro s t hI hn h hv
  have ht := stepTo_of_noReset hn h
  have hs : s.phase ≠ .start := fun hp => by
    obtain ⟨-, -, -, h0, -⟩ := hI.start hp
    rw [hv] at h0; cases h0
  exact ⟨ht.flags.2.1 hv, ht.sameHeader hv hs⟩

/-! ### PAY (R32, R62) -/

theorem StepTo.pay {s t : State} (h : StepTo s t) :
    (∃ d, t.pay = s.pay ++ d) ∨ (s.phase = .decompressing ∧ t.phase = .defiltering ∧ t.pay = []) := by
  have same : ∀ {p}, p = s.pay → ∃ d, p = s.pay ++ d := fun hp => ⟨[], by rw [hp, List.append_nil]⟩
  cases h with
  | payload tag data crc => exact .inl ⟨data, rfl⟩
  | inflated bytes h => exact .inr ⟨h, rfl, rfl⟩
  | frameRaised e u _ hu => exact .inl (same hu.pay)
  | scanline ft xs t _ _ _ ht => exact .inl (same (scanlineStep_frame ht).1.pay)
  | _ => exact .inl (same rfl)

/-- Settles O55. -/
theorem payloadIsAppendOnly : Obligations.PayloadIsAppendOnly := fun _ _ hn h => (stepTo_of_noReset hn h).pay

/-! ### RAW and PIX in `Defiltering` (R33, R37, R64) -/

theorem StepTo.pixels {s t : State} (h : StepTo s t) (hp : s.phase = .defiltering) :
    t.raw = s.raw ∧ t.pixSize = s.pixSize ∧ ∀ a v, Memory.read s.pix a = some v → Memory.read t.pix a = some v := by
  cases h with
  | badFilter => exact ⟨rfl, rfl, fun _ _ h => h⟩
  | scanline ft xs t _ _ _ ht =>
    obtain ⟨hafter, hkeep⟩ := scanlineStep_frame ht
    exact ⟨hafter.raw, hafter.pixSize, hkeep⟩
  | idle h => rcases h with h | h | h <;> rw [hp] at h <;> cases h
  | raisedAsIs _ h => rcases h with h | h <;> rw [hp] at h <;> cases h
  | sigShort h | sigBad h | sigGood h | dimensions _ _ h | noRoom _ _ h | shortRaw _ _ _ h | defilter _ _ _ h
  | decompressing h | inflated _ h => rw [hp] at h; cases h
  | frameRaised _ _ h | frameIgnored _ _ _ h | header _ _ _ h | payload _ _ _ h | loopEnd _ _ _ h => rw [hp] at h; cases h

/-- Settles O56: the step is a scanline or a fault. -/
theorem pixelCellsAreWrittenOnce : Obligations.PixelCellsAreWrittenOnce :=
  fun _ _ hn hp h => (stepTo_of_noReset hn h).pixels hp

end Sys2Proof.Machine
end

section
/-! Proof that every step keeps the invariant. What the invariant says of a session in progress whatever its phase is
`State.InSession`; each way of `StepTo` is shown to leave such a state, and then to raise from it or to meet what its new phase
asks for. -/

namespace Sys2Proof.Machine

/-! ### A session in progress -/

theorem State.HeaderLegal.of_same {s t : State} (h : s.HeaderLegal) (e : SameHeader s t) : t.HeaderLegal := by
  obtain ⟨hw, hh, hb, hc, hm, hf, hi, hs, he⟩ := e
  exact h.congr hw hh hb hc hm hf hi hs he

theorem ne_of_inChunkLoop {p q : Phase} (hp : p.inChunkLoop = true) (hq : q.inChunkLoop = false) : p ≠ q := by
  rintro rfl
  rw [hp] at hq; cases hq

/-- What the invariant says of a session that was begun and is not over, whatever its phase. -/
structure State.InSession (s : State) : Prop where
  done : s.done = false
  failed : s.failed = false
  errCode : s.errCode = 0
  cmd : s.cmd ≠ 0
  cmdCode : s.cmd ≠ 3
  pos : s.pos ≤ s.srcLen
  pixWf : Memory.wf s.pix = true
  header : s.hdrValid = true → s.HeaderLegal
  defilterSession : s.cmd = 2 → s.pos = 0 ∧ s.chunkIndex = 0 ∧ s.sigOk = false ∧ s.pay = []

theorem State.Inv.inSession {s : State} (h : s.Inv) (hs : s.phase ≠ .start) (hd : s.phase ≠ .done)
    (hf : s.phase ≠ .failed) : s.InSession where
  done := done_eq_false h hd
  failed := failed_eq_false h hf
  errCode := h.noError.mpr hf
  cmd := fun hc => hs (h.cmd.mp hc)
  cmdCode := h.cmdCode
  pos := h.pos
  pixWf := h.pixWf
  header := h.header
  defilterSession := h.defilterSession

theorem State.Inv.inSession_loop {s : State} (h : s.Inv) (hl : s.phase.inChunkLoop = true) : s.InSession :=
  h.inSession (ne_of_inChunkLoop hl rfl) (ne_of_inChunkLoop hl rfl) (ne_of_inChunkLoop hl rfl)

/-- Recording a command in `Start` begins a session. -/
theorem State.Inv.inSession_begin {s : State} (h : s.Inv) (hp : s.phase = .start) {c : BitVec 2} (h0 : c ≠ 0)
    (h3 : c ≠ 3) : State.InSession { s with cmd := c } where
  done := done_eq_false (s := s) h (by simp [hp])
  failed := failed_eq_false (s := s) h (by simp [hp])
  errCode := h.noError.mpr (by simp [hp])
  cmd := h0
  cmdCode := h3
  pos := h.pos
  pixWf := h.pixWf
  header := fun hv => (h.header hv).of_same (SameHeader.refl s)
  defilterSession := fun _ =>
    have ⟨hpos, hidx, hsig, _, hpay⟩ := h.start hp
    ⟨hpos, hidx, hsig, hpay⟩

/-- In a `CMD_DECODE` session the position may move within the stream. -/
theorem State.InSession.atPos {s : State} (h : s.InSession) (hc : s.cmd = 1) {n : Nat} (hn : n ≤ s.srcLen) :
    State.InSession { s with pos := n } :=
  { h with
    pos := hn
    header := fun hv => (h.header hv).of_same (SameHeader.refl s)
    defilterSession := fun h2 => absurd (hc.symm.trans h2) (by decide) }

/-- The host's header is legal once its dimensions are. -/
theorem State.InSession.afterCommit {w v : Word} {s : State} (h : State.InSession { s with cmd := 2 }) (hw : w ≠ 0)
    (hv : v ≠ 0) : (afterCommit w v s).InSession :=
  { h with header := fun _ => headerLegal_afterCommit hw hv }

/-- A header that passes R153's checks is legal. -/
theorem State.InSession.commitHeader {f : HeaderFields} {s : State} (h : s.InSession) (hf : headerFault f = none) :
    (commitHeader f s).InSession := by
  obtain ⟨hm, hfm, hct, hbd, hi, hw, hh⟩ := headerFault_none hf
  exact { h with header := fun _ => ⟨toNat_pos hw, toNat_pos hh, hbd, hct, hm, hfm, hi, rfl, rfl⟩ }

/-- Reading a frame of a `CMD_DECODE` session, with the frame counted or not. -/
theorem State.InSession.frame {s u : State} (h : s.InSession) (hc : s.cmd = 1) (hu : SameButFrame s u)
    (hp : u.pos ≤ s.srcLen) (n : Nat) : State.InSession { u with chunkIndex := n } := by
  obtain ⟨_, _, _, _, _, _, rfl⟩ := hu.exists_eq
  exact { h with
    pos := hp
    header := fun hv => (h.header hv).of_same (SameHeader.refl s)
    defilterSession := fun h2 => absurd (hc.symm.trans h2) (by decide) }

/-- The phase is no part of `InSession`. -/
theorem State.InSession.withPhase {s : State} (h : s.InSession) (p : Phase) : State.InSession { s with phase := p } :=
  { h with header := fun hv => (h.header hv).of_same (SameHeader.refl s) }

theorem State.InSession.withFilter {s : State} (h : s.InSession) (ft : Byte) (n : Nat) :
    State.InSession { s with filt := ft, row := n } :=
  { h with header := fun hv => (h.header hv).of_same (SameHeader.refl s) }

theorem State.InSession.withRaw {s : State} (h : s.InSession) (raw : List Byte) : State.InSession { s with raw := raw } :=
  { h with header := fun hv => (h.header hv).of_same (SameHeader.refl s) }

/-- The engine's registers and the cells of PIX may change. -/
theorem State.InSession.engine {s u : State} (h : s.InSession) (hu : SameButEngine s u) (hw : Memory.wf u.pix = true) :
    u.InSession := by
  unfold SameButEngine at hu
  rw [hu]
  exact { h with pixWf := hw, header := fun hv => (h.header hv).of_same (SameHeader.refl s) }

/-! ### From a session in progress to the invariant -/

theorem State.InSession.inv_raise {u : State} (h : u.InSession) (e : DecodeFault) : (raise e u).Inv :=
  Machine.inv_raise h.done h.cmd h.cmdCode h.pos h.pixWf h.header h.defilterSession

/-- In a phase that is not the first nor a last one, the invariant is `InSession` and what the phase asks for. -/
theorem State.InSession.inv {t : State} (h : t.InSession) (hs : t.phase ≠ .start) (hr : t.phase ≠ .reading)
    (hd : t.phase ≠ .done) (hf : t.phase ≠ .failed) (loop : t.phase.inChunkLoop = true → t.cmd = 1 ∧ t.sigOk = true)
    (signatureChecked : t.phase = .signatureChecked → t.hdrValid = false ∧ t.pay = [])
    (headerKnown : t.phase = .headerKnown → t.hdrValid = true ∧ t.pay = [])
    (late : t.phase = .decompressing ∨ t.phase = .defiltering → t.hdrValid = true)
    (defiltering : t.phase = .defiltering → t.expRaw ≤ t.rawLen ∧ t.RowReady ∧ t.LineReady) : t.Inv where
  notReading := hr
  done := iff_of_false (by simp [h.done]) hd
  failed := iff_of_false (by simp [h.failed]) hf
  noError := iff_of_true h.errCode hf
  errCode := by simp [h.errCode]
  cmd := iff_of_false h.cmd hs
  cmdCode := h.cmdCode
  pos := h.pos
  pixWf := h.pixWf
  header := h.header
  start := fun hp => absurd hp hs
  loop := loop
  signatureChecked := signatureChecked
  headerKnown := headerKnown
  late := fun hp => late (hp.imp_right (Or.resolve_right · hd))
  defiltering := defiltering
  finished := fun hp => absurd hp hd
  defilterSession := h.defilterSession

/-- In `SignatureChecked`, `HeaderKnown` and `PayloadAccumulating`. -/
theorem State.InSession.inv_loop {t : State} (h : t.InSession) (hl : t.phase.inChunkLoop = true) (hc : t.cmd = 1)
    (hsig : t.sigOk = true) (signatureChecked : t.phase = .signatureChecked → t.hdrValid = false ∧ t.pay = [])
    (headerKnown : t.phase = .headerKnown → t.hdrValid = true ∧ t.pay = []) : t.Inv := by
  have ne : ∀ p : Phase, p.inChunkLoop = false → t.phase ≠ p := fun _ => ne_of_inChunkLoop hl
  refine h.inv (ne _ rfl) (ne _ rfl) (ne _ rfl) (ne _ rfl) (fun _ => ⟨hc, hsig⟩) signatureChecked headerKnown ?_
    fun hp => absurd hp (ne _ rfl)
  rintro (hp | hp) <;> exact absurd hp (ne _ rfl)

theorem State.InSession.inv_endSeen {t : State} (h : t.InSession) (hp : t.phase = .endSeen) : t.Inv := by
  apply h.inv <;> simp [hp, Phase.inChunkLoop]

theorem State.InSession.inv_decompressing {t : State} (h : t.InSession) (hp : t.phase = .decompressing)
    (hv : t.hdrValid = true) : t.Inv := by
  apply h.inv <;> simp [hp, hv, Phase.inChunkLoop]

theorem State.InSession.inv_defiltering {t : State} (h : t.InSession) (hp : t.phase = .defiltering)
    (hv : t.hdrValid = true) (hraw : t.expRaw ≤ t.rawLen) (hrow : t.RowReady) (hline : t.LineReady) : t.Inv := by
  apply h.inv <;> simp [hp, hv, hraw, hrow, hline, Phase.inChunkLoop]

/-- Leaving a session for `Done`. -/
theorem State.InSession.inv_setDone {u : State} (h : u.InSession) (hv : u.hdrValid = true)
    (hrow : u.row = u.height.toNat) (hpix : u.PixFilled u.imageSize) : u.setDone.Inv where
  notReading := nofun
  done := iff_of_true rfl rfl
  failed := iff_of_false (by simp [h.failed]) nofun
  noError := iff_of_true h.errCode nofun
  errCode := by simp [h.errCode]
  cmd := iff_of_false h.cmd nofun
  cmdCode := h.cmdCode
  pos := h.pos
  pixWf := h.pixWf
  header := fun hv => (h.header hv).of_same (SameHeader.refl u)
  start := nofun
  loop := nofun
  signatureChecked := nofun
  headerKnown := nofun
  late := fun _ => hv
  defiltering := nofun
  finished := fun _ => ⟨hrow, hpix.size, hpix.cells⟩
  defilterSession := h.defilterSession

/-! ### The engine -/

/-- On entry to the engine, under a legal header, the first scanline can be executed. -/
theorem State.HeaderLegal.rowReady_entry {s : State} (h : s.HeaderLegal) (hsize : s.pixSize = s.imageSize)
    (hpix : s.pix = []) (hrow : s.row = 0) : s.RowReady where
  inImage := hrow ▸ h.height
  stride := by rw [h.stride]; exact Nat.mul_pos (by decide) h.width
  pix := ⟨hsize, by simp [hpix, hrow]⟩

/-- Above the first scanline LINE has nothing to hold. -/
theorem lineReady_entry {s : State} (hrow : s.row = 0) : s.LineReady := fun h => absurd hrow h.ne'

/-- Entering the engine: RAW given and long enough, every cell unwritten, PAY empty if it was. -/
theorem State.InSession.inv_enterEngine {s : State} (h : s.InSession) (hv : s.hdrValid = true) {raw pay : List Byte}
    (hraw : s.expRaw ≤ raw.length) (hpay : s.pay = [] → pay = []) :
    State.Inv
      { s with raw := raw, pay := pay, pixSize := s.imageSize, pix := [], row := 0, phase := .defiltering } := by
  set t : State := { s with raw := raw, pay := pay, pixSize := s.imageSize, pix := [], row := 0, phase := .defiltering }
  have ht : t.InSession := { h with
    pixWf := rfl
    header := fun hv => (h.header hv).of_same (SameHeader.refl s)
    defilterSession := fun h2 =>
      have ⟨hpos, hidx, hsig, he⟩ := h.defilterSession h2
      ⟨hpos, hidx, hsig, hpay he⟩ }
  exact ht.inv_defiltering rfl hv hraw ((ht.header hv).rowReady_entry rfl rfl rfl) (lineReady_entry rfl)

/-- At the end of a row LINE holds that row (R193), which is the previous one of the next. -/
theorem lineReady_nextRow {u : State} (h : u.BuffersHold u.stride) : State.LineReady { u with row := u.row + 1 } :=
  fun _ => ⟨h.lineLength, fun j hj => (h.lineDone j hj hj).symm⟩

/-- What a scanline step from a ready state leaves: the row is written, LINE holds it, the next one is selected, and after the
last one the step enters `Done`. -/
theorem scanlineStep_inversion {ft : Byte} {predict : Byte → Byte → Byte → Nat} {xs : List Byte} {s t : State}
    (hr : s.RowReady) (hl : s.LineReady) (hx : xs.length = s.stride) (h : scanlineStep ft predict xs s = .ok t) :
    ∃ v, SameButEngine { s with filt := ft, row := s.row + 1 } v ∧ v.PixFilled (v.row * v.stride) ∧ v.LineReady ∧
      ((v.row = v.height.toNat ∧ t = v.setDone) ∨ (v.row ≠ v.height.toNat ∧ t = v)) := by
  set s0 := clearBuffers { s with filt := ft } with hs0
  have hready : ByteReady s0 0 := clearBuffers_ready ft hr
  have hbuf : s0.BuffersHold 0 := clearBuffers_buffers (s := { s with filt := ft }) hl
  have hlen : 0 + xs.length = s0.stride := by rw [Nat.zero_add]; exact hx
  obtain ⟨u, hu, hsame, hcells, -⟩ := defilterRow_ok predict xs hready hlen
  have hbuf' : u.BuffersHold u.stride := hsame.stride ▸ defilterRow_buffers predict xs 0 s0 u hready hbuf hlen hu
  have hfin : finishRow u = .ok t := by simpa [scanlineStep, hx, ← hs0, hu] using h
  refine ⟨{ u with row := u.row + 1 }, ?_, ⟨?_, ?_⟩, lineReady_nextRow hbuf', ?_⟩
  · unfold SameButEngine
    rw [hsame]
    rfl
  · show u.pixSize = u.imageSize
    rw [hsame]
    exact hr.pix.size
  · show u.pix.map Prod.fst = List.range ((u.row + 1) * u.stride)
    rw [hcells, hsame.row, hsame.stride, Nat.add_mul, one_mul]
  · rcases finishRow_cases u with ⟨hlast, hf⟩ | ⟨hmore, hf⟩ <;> rw [hf] at hfin <;> cases hfin
    · exact .inl ⟨hlast, rfl⟩
    · exact .inr ⟨hmore, rfl⟩

/-! ### The ways of a step -/

/-- A scanline step keeps the invariant: the row it wrote is the previous one of the next, or the last one. -/
theorem inv_scanline {ft : Byte} {xs : List Byte} {s t : State} (hI : s.Inv) (hp : s.phase = .defiltering)
    (hx : xs.length = s.stride) (h : scanlineStep ft (pred ft) xs s = .ok t) : t.Inv := by
  obtain ⟨hraw, hready, hline⟩ := hI.defiltering hp
  have hv : s.hdrValid = true := hI.late (.inr (.inl hp))
  obtain ⟨v, hsame, hpix, hline', hend⟩ := scanlineStep_inversion hready hline hx h
  have hs : s.InSession := hI.inSession (by simp [hp]) (by simp [hp]) (by simp [hp])
  have hsession : v.InSession := (hs.withFilter ft _).engine hsame (Memory.wf_of_range hpix.cells)
  have hv' : v.hdrValid = true := by rw [hsame]; exact hv
  rcases hend with ⟨hlast, rfl⟩ | ⟨hmore, rfl⟩
  · refine hsession.inv_setDone hv' hlast ?_
    rw [State.imageSize, ← hlast]
    exact hpix
  · have hin : t.row < t.height.toNat := by
      have h1 : t.row = s.row + 1 := hsame.row
      have h2 : s.row < t.height.toNat := hsame.height ▸ hready.inImage
      omega
    have hstride : 0 < t.stride := hsame.stride ▸ hready.stride
    exact hsession.inv_defiltering (by rw [hsame]; exact hp) hv' (by rw [hsame]; exact hraw) ⟨hin, hstride, hpix⟩ hline'

/-- A signature that matches begins the chunk loop with nothing read. -/
theorem inv_sigGood {s : State} (hI : s.Inv) (hp : s.phase = .start) (hn : s.pos + 8 ≤ s.srcLen) :
    State.Inv { s with cmd := 1, pos := s.pos + 8, sigOk := true, phase := .signatureChecked } := by
  obtain ⟨-, -, -, hv, hpay⟩ := hI.start hp
  have h : State.InSession { s with cmd := 1, pos := s.pos + 8 } :=
    (hI.inSession_begin hp (c := 1) (by decide) (by decide)).atPos rfl hn
  have h' : State.InSession { s with cmd := 1, pos := s.pos + 8, sigOk := true, phase := .signatureChecked } :=
    { h with header := fun hv => (h.header hv).of_same (SameHeader.refl s), defilterSession := nofun }
  exact h'.inv_loop rfl rfl rfl (fun _ => ⟨hv, hpay⟩) nofun

/-- An accepted frame in the chunk loop: the frame registers, the position and the count. -/
theorem State.Inv.inSession_accepted {s : State} (hI : s.Inv) (hl : s.phase.inChunkLoop = true) {tag : Tag}
    {data : List Byte} {crc : Word} (hp : s.pos + (12 + data.length) ≤ s.srcLen) :
    State.InSession { afterFrameCheck tag data crc crc s with chunkIndex := s.chunkIndex + 1 } :=
  (hI.inSession_loop hl).frame (hI.loop hl).1 (u := afterFrameCheck tag data crc crc s) rfl hp _

/-- The first `IHDR` commits a legal header, and moves the phase from `SignatureChecked` only. -/
theorem inv_header {tag : Tag} {data : List Byte} {crc : Word} {s : State} (hI : s.Inv)
    (hl : s.phase.inChunkLoop = true) (hp : s.pos + (12 + data.length) ≤ s.srcLen)
    (hf : headerFault (headerFields data) = none) :
    State.Inv
      { commitHeader (headerFields data) (afterFrameCheck tag data crc crc s) with chunkIndex := s.chunkIndex + 1 } := by
  obtain ⟨hc, hsig⟩ := hI.loop hl
  have h := (hI.inSession_accepted hl (tag := tag) (crc := crc) hp).commitHeader hf
  by_cases hsc : s.phase = .signatureChecked
  · have hphase : (commitHeader (headerFields data) (afterFrameCheck tag data crc crc s)).phase = .headerKnown := if_pos hsc
    refine h.inv_loop (congrArg Phase.inChunkLoop hphase) hc hsig (fun he => ?_) fun _ => ⟨rfl, (hI.signatureChecked hsc).2⟩
    cases hphase.symm.trans he
  · have hphase : (commitHeader (headerFields data) (afterFrameCheck tag data crc crc s)).phase = s.phase := if_neg hsc
    refine h.inv_loop ((congrArg Phase.inChunkLoop hphase).trans hl) hc hsig (fun he => absurd (hphase.symm.trans he) hsc)
      fun he => ⟨rfl, (hI.headerKnown (hphase.symm.trans he)).2⟩

/-- An `IDAT` leaves the phases that ask for an empty PAY. -/
theorem inv_payload {tag : Tag} {data : List Byte} {crc : Word} {s : State} (hI : s.Inv)
    (hl : s.phase.inChunkLoop = true) (hp : s.pos + (12 + data.length) ≤ s.srcLen) :
    State.Inv
      { afterFrameCheck tag data crc crc s with
        pay := s.pay ++ data, phase := .payloadAccumulating, chunkIndex := s.chunkIndex + 1 } := by
  obtain ⟨hc, hsig⟩ := hI.loop hl
  have h := hI.inSession_accepted hl (tag := tag) (crc := crc) hp
  have h' : State.InSession
      { afterFrameCheck tag data crc crc s with
        pay := s.pay ++ data, phase := .payloadAccumulating, chunkIndex := s.chunkIndex + 1 } :=
    { h with
      header := fun hv => (h.header hv).of_same (SameHeader.refl s)
      defilterSession := fun h2 => absurd (hc.symm.trans h2) (by decide) }
  exact h'.inv_loop rfl hc hsig nofun nofun

/-- Every way of a step without reset keeps the invariant: the session in progress it leaves, and the clause of its phase. -/
theorem StepTo.inv {s t : State} (hI : s.Inv) (h : StepTo s t) : t.Inv := by
  have decoding : s.phase = .start → State.InSession { s with cmd := 1 } := fun hp =>
    hI.inSession_begin hp (by decide) (by decide)
  have defiltering : s.phase = .start → State.InSession { s with cmd := 2 } := fun hp =>
    hI.inSession_begin hp (by decide) (by decide)
  have later : ∀ {p}, s.phase = p → p ≠ .start → p ≠ .done → p ≠ .failed → s.InSession := by
    rintro _ rfl hs hd hf
    exact hI.inSession hs hd hf
  cases h with
  | idle => exact hI
  | sigShort hp => exact (decoding hp).inv_raise _
  | sigBad hp hn => exact ((decoding hp).atPos rfl hn).inv_raise _
  | sigGood hp hn => exact inv_sigGood hI hp hn
  | dimensions w v hp => exact (defiltering hp).inv_raise _
  | noRoom w v hp hw hv => exact ((defiltering hp).afterCommit hw hv).inv_raise _
  | shortRaw w v raw hp hw hv => exact (((defiltering hp).afterCommit hw hv).withRaw raw).inv_raise _
  | defilter w v raw hp hw hv hr => exact ((defiltering hp).afterCommit hw hv).inv_enterEngine rfl hr id
  | frameRaised e u hl hu hp =>
    exact ((hI.inSession_loop hl).frame (hI.loop hl).1 hu (hp.2 hI.pos) u.chunkIndex).inv_raise e
  | frameIgnored tag data crc hl _ hp =>
    obtain ⟨hc, hsig⟩ := hI.loop hl
    exact (hI.inSession_accepted hl hp).inv_loop hl hc hsig hI.signatureChecked hI.headerKnown
  | header tag data crc hl _ hp _ hf => exact inv_header hI hl hp hf
  | payload tag data crc hl _ hp => exact inv_payload hI hl hp
  | loopEnd tag data crc hl _ hp => exact ((hI.inSession_accepted hl hp).withPhase .endSeen).inv_endSeen rfl
  | raisedAsIs e hp =>
    rcases hp with hp | hp <;> exact (later hp nofun nofun nofun).inv_raise e
  | decompressing hp hv => exact ((later hp nofun nofun nofun).withPhase .decompressing).inv_decompressing rfl hv
  | inflated bytes hp hb =>
    exact (later hp nofun nofun nofun).inv_enterEngine (hI.late (.inl hp)) hb.ge fun _ => rfl
  | badFilter ft hp => exact ((later hp nofun nofun nofun).withFilter ft s.row).inv_raise _
  | scanline ft xs t hp _ hx ht => exact inv_scanline hI hp hx ht

/-- Settles O50: reset meets the invariant, taking the CMD port keeps it, and so does each way of `StepTo`. -/
theorem everyStepKeepsTheInvariant : Obligations.EveryStepKeepsTheInvariant := by
  intro s t hI h
  rcases step_inversion h with ⟨port, -, rfl⟩ | ⟨-, ht⟩
  · exact inv_afterReset s.params port
  · exact ht.inv (inv_takePort hI)

end Sys2Proof.Machine
end

section
/-! Proofs of the memory family: with collaborators that answer, no part of a step stops the model. What reads a collaborator
takes its answering as a hypothesis; the engine's reads and writes take the invariant. -/

namespace Sys2Proof.Machine

/-! ### Flows that are not stopped -/

/-- The flow goes on or raises: the model is not stopped. -/
def Flow.Completes (m : Flow) : Prop := ∃ t, m.outcome = .next t

@[simp] theorem completes_ok (s : State) : (Flow.ok s).Completes := ⟨s, rfl⟩
@[simp] theorem completes_raised (s : State) : (Flow.raised s).Completes := ⟨s, rfl⟩

theorem Flow.Completes.andThen {m : Flow} {k : State → Flow} (hm : m.Completes)
    (hk : ∀ s, m = .ok s → (k s).Completes) : (m.andThen k).Completes := by
  obtain ⟨t, ht⟩ := hm
  rcases (outcome_eq_next_iff m t).mp ht with rfl | rfl
  · exact hk t rfl
  · exact completes_raised t

/-! ### The collaborators (R299) -/

theorem crc32_of_not_silent {u : CrcUnit} (h : u ≠ .silent) (body : List Byte) : ∃ c, crc32 u body = some c := by
  cases u with
  | standard => exact ⟨_, rfl⟩
  | other n => exact ⟨_, rfl⟩
  | silent => exact absurd rfl h

theorem inflate_of_not_silent {u : InflateUnit} (h : u ≠ .silent) (payload : List Byte) :
    ∃ answer, inflate u payload = some answer := by
  cases u with
  | answering listed n =>
    cases hl : listedAnswer listed payload with
    | some answer => exact ⟨answer, by simp only [inflate, hl]⟩
    | none => exact ⟨Config.freeInflate n payload, by simp only [inflate, hl]⟩
  | silent => exact absurd rfl h

/-- A read of a source that answers raises, or goes on as what follows it does. -/
theorem srcRead_completes {n : Nat} {s : State} {k : List Byte → State → Flow} (ha : s.params.srcAnswers = .inf)
    (hk : ∀ bytes, (k bytes { s with pos := s.pos + n }).Completes) : (srcRead n s k).Completes := by
  rcases srcRead_cases n s k with ⟨h, -⟩ | ⟨-, -, h⟩ | ⟨-, -, h⟩
  · rw [ha] at h; cases h
  · rw [h]; exact completes_raised _
  · rw [h]; exact hk _

theorem stepSig_completes {s : State} (ha : s.params.srcAnswers = .inf) : (stepSig s).Completes := by
  refine srcRead_completes ha fun bytes => ?_
  split
  · exact completes_raised _
  · exact completes_ok _

/-! ### The chunk loop -/

theorem frameRead_completes {s : State} (ha : s.params.srcAnswers = .inf) : (frameRead s).Completes := by
  refine srcRead_completes ha fun lengthField => ?_
  dsimp only
  split
  · exact completes_raised _
  split
  · exact completes_raised _
  · exact srcRead_completes ha fun body => srcRead_completes ha fun crcField => completes_ok _

theorem frameCheck_completes {s : State} (hc : s.params.crcUnit ≠ .silent) : (frameCheck s).Completes := by
  rcases frameCheck_cases s with ⟨h, -⟩ | ⟨c, -, ⟨-, h⟩ | ⟨-, h⟩⟩
  · obtain ⟨c, hs⟩ := crc32_of_not_silent hc s.body
    rw [hs] at h; cases h
  · rw [h]; exact completes_raised _
  · rw [h]; exact completes_ok _

/-- `frame_read` leaves the parameters of the run. -/
theorem frameRead_params {s t : State} (h : frameRead s = .ok t) : t.params = s.params := by
  obtain ⟨tag, data, crc, -, -, -, ht⟩ := frameRead_ok h
  rw [frameTake_ok ht]; rfl

theorem doIhdrFirst_completes (data : List Byte) (s : State) : (doIhdrFirst data s).Completes := by
  unfold doIhdrFirst
  split
  · exact completes_raised _
  split
  · exact completes_raised _
  · exact completes_ok _

theorem doIdat_completes (data : List Byte) (s : State) : (doIdat data s).Completes := by
  unfold doIdat
  rcases payAppend_cases data s with ⟨-, h⟩ | ⟨-, h⟩
  · rw [h]; exact completes_raised _
  · rw [h]; exact completes_ok _

/-- Whatever the type of a chunk, its effect calls no collaborator (R150). -/
theorem dispatch_completes (type data : List Byte) (s : State) : (dispatch type data s).Completes := by
  unfold dispatch
  split
  · exact doIhdrFirst_completes data s
  split
  · exact completes_ok s
  split
  · exact doIdat_completes data s
  split
  · exact completes_ok _
  · exact completes_ok s

theorem stepFrame_completes {s : State} (ha : s.params.Answering) : (stepFrame s).Completes := by
  refine (frameRead_completes ha.src).andThen fun t ht => ?_
  have hcrc : t.params.crcUnit ≠ .silent := by rw [frameRead_params ht]; exact ha.crc
  exact (frameCheck_completes hcrc).andThen fun u _ => (dispatch_completes _ _ u).andThen fun v _ => completes_ok _

/-! ### Entering the engine -/

theorem sdeEnter_completes (s : State) : (sdeEnter s).Completes := by
  rcases sdeEnter_cases s with ⟨-, h⟩ | ⟨-, h⟩
  · rw [h]; exact completes_raised _
  · rw [h]; exact completes_ok _

theorem stepEndSeen_completes (s : State) : (stepEndSeen s).Completes := by
  unfold stepEndSeen
  split
  · exact completes_raised _
  split
  · exact completes_raised _
  · exact completes_ok _

theorem stepDecompress_completes {s : State} (hi : s.params.inflateUnit ≠ .silent) : (stepDecompress s).Completes := by
  obtain ⟨answer, h⟩ := inflate_of_not_silent hi s.pay
  unfold stepDecompress
  rw [h]
  cases answer with
  | err => exact completes_raised _
  | ok bytes =>
    dsimp only
    split
    · exact completes_raised _
    · exact sdeEnter_completes _

theorem stepStartDefilter_completes (w v : Word) (raw : List Byte) (s : State) :
    (stepStartDefilter w v raw s).Completes := by
  unfold stepStartDefilter
  dsimp only
  split
  · exact completes_raised _
  split
  · exact completes_raised _
  · exact sdeEnter_completes _

/-! ### The engine -/

/-- RAW of the expected size holds the scanline at `rpos` whole (R63, R95), so that it is decoded. -/
theorem fetch_scanline {s : State} (hp : s.phase = .defiltering) (h : s.expRaw ≤ s.rawLen) (hr : s.RowReady)
    (he : s.expRaw = s.height.toNat * (s.stride + 1)) :
    ∃ ft xs, fetch s = .run (filterKind ft xs) ∧ xs.length = s.stride := by
  obtain ⟨ft, xs, rest, hd, hl, -, -⟩ := raw_holds h hr he
  have hdecode : decode (.scanline s.stride (s.raw.drop s.rpos)) = .ok (filterKind ft xs) rest := by
    rw [hd, ← hl]; exact decodeScanline_cons ft xs rest
  exact ⟨ft, xs, by simp only [fetch, hp, fetchScanline, hdecode], hl⟩

/-- A scanline of `stride` bytes executes from a ready state: a filter type above 4 raises, and under the others every PIX
cell that is read is written and every one that is written is not (`scanlineStep_ok`). -/
theorem exec_filterKind_completes (ft : Byte) {xs : List Byte} {s : State} (hr : s.RowReady)
    (hx : xs.length = s.stride) : ∃ t, exec (filterKind ft xs) s = .next t := by
  by_cases h4 : 4 < ft.toNat
  · rw [filterKind_illegal h4]; exact ⟨_, rfl⟩
  · rw [exec_filterKind h4]
    obtain ⟨t, ht, -⟩ := scanlineStep_ok ft (pred ft) hr hx
    exact ⟨t, by rw [ht]; rfl⟩

theorem State.Inv.advance_scanline_completes {s : State} (hI : s.Inv) (hp : s.phase = .defiltering) :
    ∃ t, advance s = .next t := by
  obtain ⟨hraw, hready, -⟩ := hI.defiltering hp
  have hheader : s.HeaderLegal := hI.header (hI.late (.inr (.inl hp)))
  obtain ⟨ft, xs, hf, hx⟩ := fetch_scanline hp hraw hready (expRaw_eq hheader)
  simp only [advance, hf]
  exact exec_filterKind_completes ft hready hx

/-! ### One step -/

theorem advance_of_idle {s : State} (h : fetch s = .idle) : advance s = .next s := by
  rw [advance, h]

theorem advance_of_seq {s : State} {f : Flow} (h : fetch s = .seq f) : advance s = f.outcome := by
  rw [advance, h]

/-- The step of every phase completes; `Reading` and a `Start` with a command recorded are no boundary's. -/
theorem State.Inv.advance_completes {s : State} (hI : s.Inv) (ha : s.params.Answering) : ∃ t, advance s = .next t := by
  have hloop : s.phase.inChunkLoop = true → ∃ t, advance s = .next t := fun hl => by
    rw [advance_frame hl]; exact stepFrame_completes ha
  cases hp : s.phase with
  | start =>
    have hcmd : s.cmd = 0 := hI.cmd.mpr hp
    exact ⟨s, advance_of_idle (by simp [fetch, hp, hcmd])⟩
  | signatureChecked => exact hloop (by rw [hp]; rfl)
  | reading => exact absurd hp hI.notReading
  | headerKnown => exact hloop (by rw [hp]; rfl)
  | payloadAccumulating => exact hloop (by rw [hp]; rfl)
  | endSeen =>
    rw [advance_of_seq (f := stepEndSeen s) (by simp only [fetch, hp])]
    exact stepEndSeen_completes s
  | decompressing =>
    rw [advance_of_seq (f := stepDecompress s) (by simp only [fetch, hp])]
    exact stepDecompress_completes ha.inf
  | defiltering => exact hI.advance_scanline_completes hp
  | done => exact ⟨s, advance_of_idle (by simp only [fetch, hp])⟩
  | failed => exact ⟨s, advance_of_idle (by simp only [fetch, hp])⟩

/-- What the CMD port decodes to is one of the two host commands (R220). -/
theorem decodeCmd_ok {c : BitVec 2} {w v : Word} {raw rest : List Byte} {i : Instr}
    (h : decodeCmd c w v raw = .ok i rest) : i = .cmdDecode ∨ i = .cmdDefilter w v raw := by
  unfold decodeCmd at h
  split at h
  · cases h; exact .inl rfl
  split at h
  · cases h; exact .inr rfl
  · cases h

/-- A command comes from the CMD port in `Start` (R220, R237). -/
theorem hostAct_command {s : State} {i : Instr} (h : hostAct s = .command i) :
    s.phase = .start ∧ (i = .cmdDecode ∨ i = .cmdDefilter s.params.cfgWidth s.params.cfgHeight s.params.rawIn) := by
  unfold hostAct at h
  split at h
  · cases h
  · cases h
  · cases h
  split at h
  · next hp =>
    split at h
    · next hd => cases h; exact ⟨hp, decodeCmd_ok hd⟩
    · cases h
  · cases h

theorem exec_command_completes {s : State} {i : Instr} (ha : s.params.srcAnswers = .inf)
    (h : hostAct s = .command i) : ∃ t, exec i s = .next t := by
  obtain ⟨hp, rfl | rfl⟩ := hostAct_command h
  · simp only [exec, execCmdDecode, hp, if_true]
    exact stepSig_completes ha
  · simp only [exec, execCmdDefilter, hp, if_true]
    exact stepStartDefilter_completes _ _ _ _

/-- Settles O51, by what the host does at the boundary: a reset always completes, a command reads the source at most, and the
step of each phase completes under the invariant, which taking the CMD port keeps. -/
theorem everyStepCompletes : Obligations.EveryStepCompletes := by
  intro s hI ha
  cases hact : hostAct s with
  | reset port => exact ⟨hostReset port s, by rw [step, hact]⟩
  | command i => rw [step, hact]; exact exec_command_completes ha.src hact
  | nothing => rw [step_nothing hact]; exact (inv_takePort hI).advance_completes ha

end Sys2Proof.Machine
end

section
/-! Proofs of the encoding family: the two selections by tag and by filter type (R98, R99), and decode and encode as inverses of
each other (R106, R107). -/

namespace Sys2Proof

/-! ### The tag selects the kind of a frame (R98) -/

@[simp] theorem frameKind_tagIHDR (data : List Byte) (crc : Word) : frameKind tagIHDR data crc = .ihdr data crc := rfl
@[simp] theorem frameKind_tagIDAT (data : List Byte) (crc : Word) : frameKind tagIDAT data crc = .idat data crc := rfl
@[simp] theorem frameKind_tagIEND (data : List Byte) (crc : Word) : frameKind tagIEND data crc = .iend data crc := rfl

/-- A tag is one of the three known ones, or one of the default row. -/
theorem tag_cases (tag : Tag) : tag = tagIHDR ∨ tag = tagIDAT ∨ tag = tagIEND ∨ otherTagOk tag = true := by
  simp only [otherTagOk, Bool.and_eq_true, decide_eq_true_eq]
  tauto

/-- Whatever its kind, a frame's record is its tag, data and CRC (R106). -/
theorem encode_frameKind (tag : Tag) (data : List Byte) (crc : Word) :
    encode (frameKind tag data crc) = .frame (frameBytes tag data crc) := by
  rcases tag_cases tag with rfl | rfl | rfl | h
  · rfl
  · rfl
  · rfl
  · rw [frameKind_other h]; rfl

/-- A frame of any kind is well formed as soon as its length is legal. -/
theorem wf_frameKind (tag : Tag) {data : List Byte} (crc : Word) (hd : data.length < lengthLimit) :
    (frameKind tag data crc).wf = true := by
  have hd' : dataOk data = true := decide_eq_true hd
  rcases tag_cases tag with rfl | rfl | rfl | h
  · exact hd'
  · exact hd'
  · exact hd'
  · rw [frameKind_other h]; simp [Instr.wf, h, hd']

/-- Settles O5: a tag is known by its four bytes, and a tag beside the three known ones is of the default row. -/
theorem tagBytesSelectTheChunkKind : Obligations.TagBytesSelectTheChunkKind := by
  intro tag data crc
  refine ⟨fun h => ?_, fun h => ?_, fun h => ?_, fun h1 h2 h3 => frameKind_other ?_ data crc⟩
  · rw [Machine.tagBytes_inj (u := tagIHDR) h, frameKind_tagIHDR]
  · rw [Machine.tagBytes_inj (u := tagIDAT) h, frameKind_tagIDAT]
  · rw [Machine.tagBytes_inj (u := tagIEND) h, frameKind_tagIEND]
  · rcases tag_cases tag with rfl | rfl | rfl | h
    · exact absurd rfl h1
    · exact absurd rfl h2
    · exact absurd rfl h3
    · exact h

/-! ### The filter type selects the reconstruction (R99) -/

@[simp] theorem filterKind_zero (xs : List Byte) : filterKind 0 xs = .none xs := rfl
@[simp] theorem filterKind_one (xs : List Byte) : filterKind 1 xs = .sub xs := rfl
@[simp] theorem filterKind_two (xs : List Byte) : filterKind 2 xs = .up xs := rfl
@[simp] theorem filterKind_three (xs : List Byte) : filterKind 3 xs = .average xs := rfl
@[simp] theorem filterKind_four (xs : List Byte) : filterKind 4 xs = .paeth xs := rfl

/-- A filter type is one of the five recognised ones, or an illegal one. -/
theorem filterType_cases (ft : Byte) : ft = 0 ∨ ft = 1 ∨ ft = 2 ∨ ft = 3 ∨ ft = 4 ∨ 4 < ft.toNat := by
  bv_omega

/-- Whatever its filter type, a scanline's record is that byte and the filtered bytes (R94). -/
theorem encode_filterKind (ft : Byte) (xs : List Byte) : encode (filterKind ft xs) = .scanline xs.length (ft :: xs) := by
  rcases filterType_cases ft with rfl | rfl | rfl | rfl | rfl | h
  · rfl
  · rfl
  · rfl
  · rfl
  · rfl
  · rw [filterKind_illegal h]; rfl

/-- A scanline of any filter type is well formed as soon as its length is that of a row. -/
theorem wf_filterKind (ft : Byte) {xs : List Byte} (hx : rowOk xs = true) : (filterKind ft xs).wf = true := by
  rcases filterType_cases ft with rfl | rfl | rfl | rfl | rfl | h
  · exact hx
  · exact hx
  · exact hx
  · exact hx
  · exact hx
  · rw [filterKind_illegal h]; simp [Instr.wf, h, hx]

theorem Machine.exec_illegalFilter (ft : Byte) (xs : List Byte) (s : State) :
    exec (.illegalFilter ft xs) s = .next (raise (.unknownFilterType s.row ft) { s with filt := ft }) := rfl

/-- Settles O6: the five recognised types are closed bytes, and every other one is above 4. -/
theorem filterByteSelectsTheReconstruction : Obligations.FilterByteSelectsTheReconstruction := by
  intro ft xs
  have byte (n : Byte) (h : ft.toNat = n.toNat) : ft = n := BitVec.eq_of_toNat_eq h
  refine ⟨fun h => ?_, fun h => ?_, fun h => ?_, fun h => ?_, fun h => ?_, fun h => ?_⟩
  · rw [byte 0 h, filterKind_zero]
  · rw [byte 1 h, filterKind_one]
  · rw [byte 2 h, filterKind_two]
  · rw [byte 3 h, filterKind_three]
  · rw [byte 4 h, filterKind_four]
  · rw [filterKind_illegal h]
    exact ⟨rfl, Machine.exec_illegalFilter ft xs⟩

/-! ### Decode and encode -/

/-- Both clauses of O3 at once: what stands after a record of a stream is left untouched, and a command's record, which is on
no stream, has nothing after it. -/
theorem decode_encode_followedBy {i : Instr} (h : i.wf = true) (more : List Byte)
    (hmore : i = .cmdDecode ∨ (∃ w v raw, i = .cmdDefilter w v raw) → more = []) :
    decode ((encode i).followedBy more) = .ok i more := by
  have frame (tag : Tag) {data : List Byte} (crc : Word) (hd : dataOk data = true) :
      decode (.frame (frameBytes tag data crc ++ more)) = .ok (frameKind tag data crc) more :=
    decodeFrame_frameBytes tag data crc more (of_decide_eq_true hd)
  cases i with
  | sig => exact decodeSig_signature more
  | ihdr data crc => exact frame tagIHDR crc h
  | idat data crc => exact frame tagIDAT crc h
  | iend data crc => exact frame tagIEND crc h
  | other tag data crc =>
    obtain ⟨htag, hd⟩ := Bool.and_eq_true_iff.mp h
    rw [← frameKind_other htag, encode_frameKind]
    exact frame tag crc hd
  | none xs => exact decodeScanline_cons 0 xs more
  | sub xs => exact decodeScanline_cons 1 xs more
  | up xs => exact decodeScanline_cons 2 xs more
  | average xs => exact decodeScanline_cons 3 xs more
  | paeth xs => exact decodeScanline_cons 4 xs more
  | illegalFilter ft xs =>
    obtain ⟨hft, -⟩ := Bool.and_eq_true_iff.mp h
    rw [← filterKind_illegal (of_decide_eq_true hft), encode_filterKind]
    exact decodeScanline_cons ft xs more
  | cmdDecode => rw [hmore (.inl rfl)]; rfl
  | cmdDefilter w v raw => rw [hmore (.inr ⟨w, v, raw, rfl⟩)]; rfl

theorem followedBy_nil (r : Record) : r.followedBy [] = r := by
  cases r <;> simp [Record.followedBy]

/-- Settles O3: a record with nothing after it is the case of no further bytes. -/
theorem decodeUndoesEncode : Obligations.DecodeUndoesEncode := by
  refine ⟨fun i h => ?_, fun i more h hdecode hdefilter => ?_⟩
  · rw [← followedBy_nil (encode i)]
    exact decode_encode_followedBy h [] fun _ => rfl
  · refine decode_encode_followedBy h more ?_
    rintro (hi | ⟨w, v, raw, hi⟩)
    · exact absurd hi hdecode
    · exact absurd hi (hdefilter w v raw)

/-- Four bytes for each pixel of a row that is not empty are a row's length (R28, R94). -/
theorem rowOk_of_width {w : Word} (hw : w ≠ 0) {xs : List Byte} (hx : xs.length = 4 * w.toNat) : rowOk xs = true := by
  have hpos : 0 < w.toNat := Machine.toNat_pos hw
  have hlt : w.toNat < 4294967296 := w.isLt
  simp only [rowOk, Bool.and_eq_true, decide_eq_true_eq]
  omega

/-- Settles O4, by what each format's decoder accepts. -/
theorem encodeUndoesDecode : Obligations.EncodeUndoesDecode := by
  refine ⟨fun bs i rest h => ?_, fun bs i rest h => ?_, fun w bs i rest hw h => ?_⟩
  · obtain ⟨rfl, rfl⟩ := decodeSig_ok h
    exact ⟨rfl, rfl⟩
  · obtain ⟨tag, data, crc, rfl, hd, rfl⟩ := decodeFrame_ok h
    rw [encode_frameKind]
    exact ⟨wf_frameKind tag crc hd, rfl⟩
  · obtain ⟨ft, xs, rfl, hx, rfl⟩ := decodeScanline_ok h
    rw [encode_filterKind, hx]
    exact ⟨wf_filterKind ft (rowOk_of_width hw hx), rfl⟩

/-- Settles O2: the records are closed terms, and the decoder computes. -/
theorem sampleRecordsDecode : Obligations.SampleRecordsDecode := by
  unfold Obligations.SampleRecordsDecode
  decide

end Sys2Proof
end

section
/-! Proofs of the encoding family: the two faults a malformed record raises while it is read, a length field out of range (R102)
and an illegal filter type (R101). -/

namespace Sys2Proof.Machine

/-! ### A length field out of range -/

/-- `frame_read` of a length field of 2^31 or more raises with the field consumed and no byte of the body read (R123). -/
theorem frameRead_overlong {s : State} {n : Nat} (ha : s.params.srcAnswers = .inf) (hlen : s.pos + 4 ≤ s.srcLen)
    (hn : (be32 ((s.params.src.drop s.pos).take 4)).toNat = n) (hlim : lengthLimit ≤ n) :
    frameRead s = .raised (raise (.wrongChunkLength n) { s with pos := s.pos + 4, len := BitVec.ofNat 32 n }) := by
  have hfield : BitVec.ofNat 32 n = be32 ((s.params.src.drop s.pos).take 4) := by
    rw [← hn, BitVec.ofNat_toNat, BitVec.setWidth_eq]
  rw [frameRead, srcRead_ok _ (by rw [ha]; rfl) hlen, hfield]
  simp only [hn, hlim, if_true]

/-- Settles O20: the step of the chunk loop is `step_frame`, which ends where `frame_read` raises. -/
theorem overlongLengthRaisesWrongChunkLength : Obligations.OverlongLengthRaisesWrongChunkLength := by
  intro s n hact hloop ha hlen hn hlim
  have hread : frameRead s.takePort = .raised
      (raise (.wrongChunkLength n) { s.takePort with pos := s.pos + 4, len := BitVec.ofNat 32 n }) :=
    frameRead_overlong (s := s.takePort) ha hlen hn hlim
  rw [step_nothing hact, advance_frame (s := s.takePort) hloop, stepFrame, hread, andThen_raised, outcome_raised]

/-! ### An illegal filter type -/

/-- A filter type with a whole scanline after it decodes to the reconstruction it selects. -/
theorem decode_scanline_of_le {stride : Nat} {content : List Byte} (ft : Byte) (h : stride ≤ content.length) :
    decode (.scanline stride (ft :: content)) = .ok (filterKind ft (content.take stride)) (content.drop stride) := by
  simp only [decode, decodeScanline, Nat.not_lt.mpr h, if_false]

/-- In `Defiltering` the scanline that decodes at `rpos` is executed (R95, R222). -/
theorem advance_of_decode_scanline {s : State} {i : Instr} {rest : List Byte} (hp : s.phase = .defiltering)
    (h : decode (.scanline s.stride (s.raw.drop s.rpos)) = .ok i rest) : advance s = exec i s := by
  simp only [advance, fetch, hp, fetchScanline, h]

/-- Settles O44: a step that meets an illegal filter type executes the illegal filter's record. -/
theorem illegalFilterTypesRaise : Obligations.IllegalFilterTypesRaise := by
  refine ⟨fun s ft xs => exec_illegalFilter ft xs s, fun s ft rest hact hp hraw hlen hft => ?_⟩
  have hdecode : decode (.scanline s.stride (s.raw.drop s.rpos)) =
      .ok (.illegalFilter ft (rest.take s.stride)) (rest.drop s.stride) := by
    rw [State.rpos, hraw, decode_scanline_of_le ft hlen, filterKind_illegal hft]
  rw [step_nothing hact, advance_of_decode_scanline (s := s.takePort) hp hdecode]
  exact exec_illegalFilter ft _ s.takePort

end Sys2Proof.Machine
end

section
/-! Proofs of the stream family: the fields and the signature record (R121, R122), and where a frame is cut short (R123, R253).
A read of the stream is followed by `srcRead_short` and `srcRead_ok`. -/

namespace Sys2Proof

/-! ### The big-endian decoder (R121) -/

/-- Settles O1: the bits are the bytes that `be32^-1` gives back. -/
theorem bigEndianDecoderIsABijection : Obligations.BigEndianDecoderIsABijection := by
  refine ⟨fun s0 s1 s2 s3 => ?_, fun v => ⟨length_be32Bytes v, be32_be32Bytes v⟩⟩
  have hbytes := be32Bytes_be32 s0 s1 s2 s3
  obtain ⟨h0, h1, h2, h3⟩ : _ ∧ _ ∧ _ ∧ _ := by
    simpa only [be32Bytes, List.cons.injEq, and_true] using hbytes
  exact ⟨by rw [toNat_be32_four, beNat_four], h0, h1, h2, h3, hbytes⟩

end Sys2Proof

namespace Sys2Proof.Machine

/-! ### The signature record (R122) -/

theorem exec_sig (s : State) : exec .sig s = (stepSig s).outcome := rfl

/-- With a source that answers, `SrcRead` delivers the bytes that stand at `pos`. -/
theorem srcRead_of_drop {n : Nat} {s : State} {bytes rest : List Byte} (k : List Byte → State → Flow)
    (ha : s.params.srcAnswers = .inf) (h : s.params.src.drop s.pos = bytes ++ rest) (hn : bytes.length = n) (h0 : 0 < n) :
    srcRead n s k = k bytes { s with pos := s.pos + n } := by
  have hlen : s.pos + n ≤ s.srcLen := by
    have := congrArg List.length h
    rw [List.length_drop, List.length_append] at this
    rw [State.srcLen]; omega
  rw [srcRead_ok k (by rw [ha]; rfl) hlen, h, List.take_left' hn]

/-- Settles O18: the read delivers too few bytes, or eight that are compared with the signature. -/
theorem signatureRecordIsCheckedOnce : Obligations.SignatureRecordIsCheckedOnce := by
  intro s ha
  refine ⟨fun hshort => ?_, fun bytes rest hsrc hlen hne => ?_, fun rest hsrc => ?_⟩
  · rw [exec_sig, stepSig, srcRead_short _ (by rw [ha]; rfl) hshort, outcome_raised]
  · have hne' : bytes ≠ signature := hne
    rw [exec_sig, stepSig, srcRead_of_drop _ ha hsrc hlen (by decide), if_pos hne', outcome_raised]
  · rw [exec_sig, stepSig, srcRead_of_drop (bytes := signature) _ ha hsrc length_signature (by decide),
      if_neg (not_not_intro rfl), outcome_ok]
    rfl

/-! ### A frame that the stream does not hold whole (R123, R253) -/

/-- In the chunk loop, what `frame_read` raises is the step. -/
theorem step_of_frameRead_raised {s t : State} (hact : hostAct s = .nothing) (hloop : s.phase.inChunkLoop = true)
    (h : frameRead s.takePort = .raised t) : step s = .next t := by
  rw [step_nothing hact, advance_frame (s := s.takePort) hloop, stepFrame, h, andThen_raised, outcome_raised]

theorem frameRead_short_length {s : State} (ha : s.params.srcAnswers = .inf) (hshort : s.srcLen < s.pos + 4) :
    frameRead s = .raised (raise .truncatedStream s) :=
  srcRead_short _ (by rw [ha]; rfl) hshort

/-- A length field that raises nothing is written to `LEN`, and the reads of the body and of the stored CRC follow. -/
theorem frameRead_of_length {s : State} {n : Nat} (ha : s.params.srcAnswers = .inf) (hlen : s.pos + 4 ≤ s.srcLen)
    (hn : (be32 ((s.params.src.drop s.pos).take 4)).toNat = n) (hlim : n < lengthLimit)
    (hroom : Cap.exceededBy s.params.chunkCap n = false) :
    frameRead s =
      srcRead (4 + n) { s with pos := s.pos + 4, len := BitVec.ofNat 32 n } fun body s =>
        srcRead 4 { s with body := body } fun crcField s => .ok { s with crcS := be32 crcField } := by
  have hfield : be32 ((s.params.src.drop s.pos).take 4) = BitVec.ofNat 32 n := by
    rw [← hn, BitVec.ofNat_toNat, BitVec.setWidth_eq]
  rw [frameRead, srcRead_ok _ (by rw [ha]; rfl) hlen]
  simp only [hfield, toNat_lengthField hlim, Nat.not_le.mpr hlim, hroom, if_false, Bool.false_eq_true]

theorem frameRead_short_body {s : State} {n : Nat} (ha : s.params.srcAnswers = .inf) (hlen : s.pos + 4 ≤ s.srcLen)
    (hn : (be32 ((s.params.src.drop s.pos).take 4)).toNat = n) (hlim : n < lengthLimit)
    (hroom : Cap.exceededBy s.params.chunkCap n = false) (hshort : s.srcLen < s.pos + 8 + n) :
    frameRead s = .raised (raise .truncatedStream { s with pos := s.pos + 4, len := BitVec.ofNat 32 n }) := by
  rw [frameRead_of_length ha hlen hn hlim hroom]
  exact srcRead_short _ (by rw [ha]; rfl) (show s.srcLen < s.pos + 4 + (4 + n) by omega)

theorem frameRead_short_crc {s : State} {n : Nat} (ha : s.params.srcAnswers = .inf)
    (hn : (be32 ((s.params.src.drop s.pos).take 4)).toNat = n) (hlim : n < lengthLimit)
    (hroom : Cap.exceededBy s.params.chunkCap n = false) (hbody : s.pos + 8 + n ≤ s.srcLen)
    (hshort : s.srcLen < s.pos + 12 + n) :
    frameRead s = .raised (raise .truncatedStream
      { s with
        pos := s.pos + 8 + n, len := BitVec.ofNat 32 n, body := (s.params.src.drop (s.pos + 4)).take (4 + n) }) := by
  have hpos : s.pos + 4 + (4 + n) = s.pos + 8 + n := by omega
  rw [frameRead_of_length ha (by omega) hn hlim hroom,
    srcRead_ok _ (by rw [ha]; rfl) (show s.pos + 4 + (4 + n) ≤ s.srcLen by omega)]
  simp only [hpos]
  exact srcRead_short _ (by rw [ha]; rfl) (show s.srcLen < s.pos + 8 + n + 4 by omega)

/-- Settles O19: `frame_read` raises at the first field that the stream does not hold. -/
theorem shortFramesRaiseTruncatedStream : Obligations.ShortFramesRaiseTruncatedStream := by
  intro s hact hloop ha _
  refine ⟨fun hshort => ?_, fun n hlen hn hlim hroom => ⟨fun hshort => ?_, fun hbody hshort => ?_⟩⟩
  · exact step_of_frameRead_raised hact hloop (frameRead_short_length (s := s.takePort) ha hshort)
  · exact step_of_frameRead_raised hact hloop (frameRead_short_body (s := s.takePort) ha hlen hn hlim hroom hshort)
  · exact step_of_frameRead_raised hact hloop (frameRead_short_crc (s := s.takePort) ha hn hlim hroom hbody hshort)

end Sys2Proof.Machine
end

section
/-! Proofs of the stream family: what happens to a frame before its kind matters, the cap on its body (R123, R265) and its CRC
(R124, R125, R128). -/

namespace Sys2Proof.Machine

/-! ### Every kind of frame is a frame step -/

/-- A frame of any kind runs the common step, with some effect. -/
theorem exec_isFrame {i : Instr} {tag : Tag} {data : List Byte} {crc : Word} (h : IsFrame i tag data crc) (s : State) :
    ∃ effect, exec i s = (frameStep tag data crc effect s).outcome := by
  rcases h with ⟨rfl, rfl⟩ | ⟨rfl, rfl⟩ | ⟨rfl, rfl⟩ | rfl
  · exact ⟨doIhdr, rfl⟩
  · exact ⟨doIdat, rfl⟩
  · exact ⟨doIend, rfl⟩
  · exact ⟨doOther, rfl⟩

theorem frameTake_noRoom (tag : Tag) {data : List Byte} (crc : Word) {s : State} (hl : data.length < lengthLimit)
    (hroom : Cap.exceededBy s.params.chunkCap data.length = true) :
    frameTake tag data crc s =
      .raised (raise .allocationFailure { s with pos := s.pos + 4, len := BitVec.ofNat 32 data.length }) := by
  rcases frameTake_cases tag data crc s with ⟨h, -⟩ | ⟨-, -, h⟩ | ⟨-, h, -⟩
  · omega
  · exact h
  · rw [hroom] at h; cases h

/-- Settles O21: the common step ends where `frame_read` raises, whatever the effect after it. -/
theorem chunkCapRaisesAllocationFailure : Obligations.ChunkCapRaisesAllocationFailure := by
  intro s i tag data crc hi hl hroom
  obtain ⟨effect, hexec⟩ := exec_isFrame hi s
  rw [hexec, frameStep, frameTake_noRoom tag crc hl hroom, andThen_raised, andThen_raised, outcome_raised]

/-- Settles O22: a mismatch ends every frame step; a frame whose CRCs agree is accepted, and its effect is the dispatch. -/
theorem crcIsCheckedBeforeTheDispatch : Obligations.CrcIsCheckedBeforeTheDispatch := by
  intro s tag data crc computed hl hroom hcrc
  refine ⟨fun hne i hi => ?_, fun heq => ?_⟩
  · obtain ⟨effect, hexec⟩ := exec_isFrame hi s
    rw [hexec, frameStep_mismatch effect hl hroom hcrc hne, outcome_raised]
  · subst heq
    rw [exec_frameKind, frameStep_accepted _ ⟨hl, hroom, hcrc⟩, ← dispatch_eq]
    cases dispatch tag.bytes data (afterFrameCheck tag data computed computed s) with
    | ok t => rfl
    | raised t => rfl
    | stuck f => rfl

/-! ### The CRC as a running value (R128) -/

/-- Feeding pieces one after the other is feeding them joined, from any accumulator. -/
theorem foldl_crcFeed (pieces : List (List Byte)) (c : Word) : pieces.foldl crcFeed c = crcFeed c pieces.flatten :=
  List.foldl_flatten.symm

/-- The default collaborator's answer is what the accumulator stands for after the body (R38, R230). -/
theorem crc32_standard (body : List Byte) : crc32 .standard body = some (crcFinish (crcAccOf .standard body)) := rfl

/-- An accepted `IEND` ends the chunk loop and is counted; its data is ignored (R157). -/
theorem exec_iend_accepted {data : List Byte} {crc : Word} {s : State} (h : FrameAccepted tagIEND data crc s) :
    exec (.iend data crc) s =
      .next { afterFrameCheck tagIEND data crc crc s with phase := .endSeen, chunkIndex := s.chunkIndex + 1 } := by
  show (frameStep tagIEND data crc doIend s).outcome = _
  rw [frameStep_accepted doIend h]
  rfl

/-- Under the default `crc32`, what `frame_check` leaves of an accepted frame stands for the CRC it compared. -/
theorem crcFinish_crcAcc_accepted {tag : Tag} {data : List Byte} {crc : Word} {s : State}
    (hu : s.params.crcUnit = .standard) (h : FrameAccepted tag data crc s) :
    crcFinish (afterFrameCheck tag data crc crc s).crcAcc = crc := by
  have hcrc := h.crc
  rw [hu, crc32_standard, Option.some.injEq] at hcrc
  show crcFinish (crcAccOf s.params.crcUnit (tag.bytes ++ data)) = crc
  rw [hu, hcrc]

/-- Settles O29: the accumulator folds over the bytes, so it does not see where the pieces end. -/
theorem streamingCrcAgreesWithTheWholeBody : Obligations.StreamingCrcAgreesWithTheWholeBody := by
  refine ⟨fun pieces => foldl_crcFeed pieces crcStart, crc32_standard, fun s t data crc hu h hexec => ?_⟩
  rw [exec_iend_accepted h] at hexec
  cases hexec
  exact ⟨crcFinish_crcAcc_accepted hu h, rfl⟩

end Sys2Proof.Machine
end

section
/-! Proofs of the dispatch family: what an accepted frame of each kind does (R150 to R158). `frameStep_accepted` has taken the
common part of the frame off; what is left is the effect of the kind on the state after `frame_check`, and the count. -/

namespace Sys2Proof.Machine

/-! ### The checks of R153, in their order -/

section
variable {f : HeaderFields}

theorem headerFault_compressionMethod (hcm : f.compressionMethod ≠ 0) :
    headerFault f = some (.unsupportedCompression f.compressionMethod) :=
  if_pos hcm

theorem headerFault_filterMethod (hcm : f.compressionMethod = 0) (hfm : f.filterMethod ≠ 0) :
    headerFault f = some (.unsupportedFilterMethod f.filterMethod) := by
  rw [headerFault, if_neg (not_not_intro hcm), if_pos hfm]

theorem headerFault_colorType (hcm : f.compressionMethod = 0) (hfm : f.filterMethod = 0) (hct : f.colorType ≠ 6) :
    headerFault f = some (.unsupportedColorType f.colorType) := by
  rw [headerFault, if_neg (not_not_intro hcm), if_neg (not_not_intro hfm), if_pos hct]

theorem headerFault_bitDepth (hcm : f.compressionMethod = 0) (hfm : f.filterMethod = 0) (hct : f.colorType = 6)
    (hbd : f.bitDepth ≠ 8) : headerFault f = some (.unsupportedBitDepth f.bitDepth) := by
  rw [headerFault, if_neg (not_not_intro hcm), if_neg (not_not_intro hfm), if_neg (not_not_intro hct), if_pos hbd]

theorem headerFault_interlaceMethod (hcm : f.compressionMethod = 0) (hfm : f.filterMethod = 0) (hct : f.colorType = 6)
    (hbd : f.bitDepth = 8) (him : f.interlaceMethod ≠ 0) :
    headerFault f = some (.unsupportedInterlacing f.interlaceMethod) := by
  rw [headerFault, if_neg (not_not_intro hcm), if_neg (not_not_intro hfm), if_neg (not_not_intro hct),
    if_neg (not_not_intro hbd), if_pos him]

/-- The supported profile passes checks 2 to 6, and check 7 alone is left. -/
theorem headerFault_of_profile (hcm : f.compressionMethod = 0) (hfm : f.filterMethod = 0) (hct : f.colorType = 6)
    (hbd : f.bitDepth = 8) (him : f.interlaceMethod = 0) : headerFault f = dimensionFault f.width f.height := by
  rw [headerFault, if_neg (not_not_intro hcm), if_neg (not_not_intro hfm), if_neg (not_not_intro hct),
    if_neg (not_not_intro hbd), if_neg (not_not_intro him), dimensionFault]

theorem dimensionFault_zero {width height : Word} (h : width = 0 ∨ height = 0) :
    dimensionFault width height = some (.unsupportedDimensions width height) :=
  if_pos h

theorem dimensionFault_nonzero {width height : Word} (hw : width ≠ 0) (hh : height ≠ 0) :
    dimensionFault width height = none :=
  if_neg (not_or.mpr ⟨hw, hh⟩)

end

/-! ### The effects of the kinds -/

/-- While `hdr_valid = 0` an `IHDR` is the first one (R150). -/
theorem doIhdr_of_not_valid {s : State} (hv : s.hdrValid = false) (data : List Byte) :
    doIhdr data s = doIhdrFirst data s := by
  simp only [doIhdr, hv, Bool.false_eq_true, if_false]

/-- Once `hdr_valid = 1` an `IHDR` changes nothing (R155). -/
theorem doIhdr_of_valid {s : State} (hv : s.hdrValid = true) (data : List Byte) : doIhdr data s = .ok s := by
  simp only [doIhdr, hv, if_true, doIhdrLater]

theorem doIhdrFirst_wrongLength {data : List Byte} (hlen : data.length ≠ 13) (s : State) :
    doIhdrFirst data s = .raised (raise (.wrongChunkLength data.length) s) :=
  if_pos hlen

theorem doIhdrFirst_fault {data : List Byte} {e : DecodeFault} (hlen : data.length = 13)
    (hf : headerFault (headerFields data) = some e) (s : State) : doIhdrFirst data s = .raised (raise e s) := by
  simp only [doIhdrFirst, hlen, hf, ne_eq, not_true_eq_false, if_false]

theorem doIhdrFirst_commit {data : List Byte} (hlen : data.length = 13) (hf : headerFault (headerFields data) = none)
    (s : State) : doIhdrFirst data s = .ok (commitHeader (headerFields data) s) := by
  simp only [doIhdrFirst, hlen, hf, ne_eq, not_true_eq_false, if_false]

theorem doIdat_append {data : List Byte} {s : State}
    (hroom : Cap.exceededBy s.params.payloadCap (s.pay.length + data.length) = false) :
    doIdat data s = .ok { s with pay := s.pay ++ data, phase := .payloadAccumulating } := by
  rcases payAppend_cases data s with ⟨hfull, -⟩ | ⟨-, happ⟩
  · exact absurd (hroom.symm.trans hfull) Bool.false_ne_true
  · rw [doIdat, happ, andThen_ok]

theorem doIdat_full {data : List Byte} {s : State}
    (hfull : Cap.exceededBy s.params.payloadCap (s.pay.length + data.length) = true) :
    doIdat data s = .raised (raise .allocationFailure s) := by
  rcases payAppend_cases data s with ⟨-, hraise⟩ | ⟨hroom, -⟩
  · rw [doIdat, hraise, andThen_raised]
  · exact absurd (hroom.symm.trans hfull) Bool.false_ne_true

/-! ### An accepted `IHDR` (R150 to R155) -/

theorem exec_ihdr_accepted {data : List Byte} {crc : Word} {s : State} (h : FrameAccepted tagIHDR data crc s) :
    exec (.ihdr data crc) s = ((doIhdr data (afterFrameCheck tagIHDR data crc crc s)).andThen countFrame).outcome :=
  congrArg Flow.outcome (frameStep_accepted doIhdr h)

/-- `frame_read` and `frame_check` leave `hdr_valid`, so the first `IHDR` is still the first one after them. -/
theorem exec_ihdr_first {data : List Byte} {crc : Word} {s : State} (h : FrameAccepted tagIHDR data crc s)
    (hv : s.hdrValid = false) :
    exec (.ihdr data crc) s = ((doIhdrFirst data (afterFrameCheck tagIHDR data crc crc s)).andThen countFrame).outcome := by
  rw [exec_ihdr_accepted h, doIhdr_of_not_valid (s := afterFrameCheck tagIHDR data crc crc s) hv]

/-- A first `IHDR` of 13 bytes raises what checks 2 to 7 of R153 find in its fields. -/
theorem exec_ihdr_first_fault {data : List Byte} {crc : Word} {s : State} {e : DecodeFault}
    (h : FrameAccepted tagIHDR data crc s) (hv : s.hdrValid = false) (hlen : data.length = 13)
    (hf : headerFault (headerFields data) = some e) :
    exec (.ihdr data crc) s = .next (raise e (afterFrameCheck tagIHDR data crc crc s)) := by
  rw [exec_ihdr_first h hv, doIhdrFirst_fault hlen hf, andThen_raised, outcome_raised]

/-- Settles O23: the length is checked first; then `headerFault` finds the first check that fails. -/
theorem headerChecksAreMadeInOrder : Obligations.HeaderChecksAreMadeInOrder := by
  intro s data crc h hv
  refine ⟨fun hlen => ?_, fun w0 w1 w2 w3 h0 h1 h2 h3 bd ct cm fm im hdata => ?_⟩
  · rw [exec_ihdr_first h hv, doIhdrFirst_wrongLength hlen, andThen_raised, outcome_raised]
  subst hdata
  have raises {e : DecodeFault} := exec_ihdr_first_fault (e := e) h hv rfl
  exact ⟨fun hcm => raises (headerFault_compressionMethod hcm),
    fun hcm hfm => raises (headerFault_filterMethod hcm hfm),
    fun hcm hfm hct => raises (headerFault_colorType hcm hfm hct),
    fun hcm hfm hct hbd => raises (headerFault_bitDepth hcm hfm hct hbd),
    fun hcm hfm hct hbd him => raises (headerFault_interlaceMethod hcm hfm hct hbd him),
    fun hcm hfm hct hbd him hdim => raises
      ((headerFault_of_profile hcm hfm hct hbd him).trans (dimensionFault_zero hdim))⟩

/-- Settles O24: an `IHDR` of the supported profile passes every check, so its fields are committed. -/
theorem firstIhdrCommitsTheHeader : Obligations.FirstIhdrCommitsTheHeader := by
  intro s w0 w1 w2 w3 h0 h1 h2 h3 crc h hv hw hh
  have hnone : headerFault (headerFields [w0, w1, w2, w3, h0, h1, h2, h3, 8, 6, 0, 0, 0]) = none :=
    (headerFault_of_profile rfl rfl rfl rfl rfl).trans (dimensionFault_nonzero hw hh)
  rw [exec_ihdr_first h hv, doIhdrFirst_commit rfl hnone, andThen_ok]
  rfl

/-- Settles O25. -/
theorem laterIhdrIsOnlyCounted : Obligations.LaterIhdrIsOnlyCounted := by
  intro s data crc h hv
  rw [exec_ihdr_accepted h, doIhdr_of_valid (s := afterFrameCheck tagIHDR data crc crc s) hv, andThen_ok]
  rfl

/-! ### An accepted frame of another kind (R156 to R158) -/

theorem exec_idat_accepted {data : List Byte} {crc : Word} {s : State} (h : FrameAccepted tagIDAT data crc s) :
    exec (.idat data crc) s = ((doIdat data (afterFrameCheck tagIDAT data crc crc s)).andThen countFrame).outcome :=
  congrArg Flow.outcome (frameStep_accepted doIdat h)

/-- Settles O26: `PayAppend` sees the PAY and the cap of the state before the frame. -/
theorem idatAppendsItsData : Obligations.IdatAppendsItsData := by
  intro s data crc h
  refine ⟨fun hroom => ?_, fun hfull => ?_⟩
  · rw [exec_idat_accepted h, doIdat_append (s := afterFrameCheck tagIDAT data crc crc s) hroom, andThen_ok]
    rfl
  · rw [exec_idat_accepted h, doIdat_full (s := afterFrameCheck tagIDAT data crc crc s) hfull, andThen_raised,
      outcome_raised]

/-- Settles O27. -/
theorem iendEntersEndSeen : Obligations.IendEntersEndSeen := fun _ _ _ h => exec_iend_accepted h

/-- Settles O28: the effect of an `OTHER` frame is none, so the count alone follows `frame_check`. -/
theorem otherChunksAreOnlyCounted : Obligations.OtherChunksAreOnlyCounted :=
  fun _ _ _ _ h => congrArg Flow.outcome (frameStep_accepted doOther h)

end Sys2Proof.Machine
end

section
/-! Proofs of the defilter family: the predictors and the sum they go into (R185, R191). -/

namespace Sys2Proof.Machine

/-! ### `paeth` (R191) -/

/-- The comparisons of `paeth` with its distances as absolute values of integers. -/
theorem paeth_eq (a b ul : Byte) :
    paeth a b ul =
      (let p : Int := (a.toNat : Int) + b.toNat - ul.toNat
       if |p - a.toNat| ≤ |p - b.toNat| ∧ |p - a.toNat| ≤ |p - ul.toNat| then a
       else if |p - b.toNat| ≤ |p - ul.toNat| then b else ul) := by
  simp only [paeth, Int.abs_eq_natAbs, Nat.cast_le]

/-- Without a scanline above, `paeth` is the left neighbour (R194). -/
@[simp] theorem paeth_first_row (a : Byte) : paeth a 0 0 = a := by
  simp [paeth]

/-- In the first pixel `paeth` is the neighbour above: its distance is 0, and a tie with the left one means that both are 0. -/
@[simp] theorem paeth_first_pixel (b : Byte) : paeth 0 b 0 = b := by
  by_cases hb : b = 0
  · rw [hb, paeth_first_row]
  · have hdist : b.toNat ≠ 0 := fun h => hb (BitVec.eq_of_toNat_eq h)
    simp [paeth, hdist]

/-- `p = a + b - ul` in exact integers. -/
theorem paethSum_bounds (a b ul : Byte) :
    (-255 : Int) ≤ (a.toNat : Int) + b.toNat - ul.toNat ∧ (a.toNat : Int) + b.toNat - ul.toNat ≤ 510 := by
  have := a.isLt; have := b.isLt; have := ul.isLt
  omega

/-- The distance between two bytes. -/
theorem abs_byte_sub_le (v w : Byte) : |(v.toNat : Int) - w.toNat| ≤ 255 := by
  have := v.isLt; have := w.isLt
  exact abs_le.mpr ⟨by omega, by omega⟩

theorem paeth_distance_left (a b ul : Byte) :
    |(a.toNat : Int) + b.toNat - ul.toNat - a.toNat| = |(b.toNat : Int) - ul.toNat| :=
  congrArg abs (by omega)

theorem paeth_distance_above (a b ul : Byte) :
    |(a.toNat : Int) + b.toNat - ul.toNat - b.toNat| = |(a.toNat : Int) - ul.toNat| :=
  congrArg abs (by omega)

theorem paeth_distance_left_le (a b ul : Byte) : |(a.toNat : Int) + b.toNat - ul.toNat - a.toNat| ≤ 255 :=
  (paeth_distance_left a b ul).trans_le (abs_byte_sub_le b ul)

theorem paeth_distance_above_le (a b ul : Byte) : |(a.toNat : Int) + b.toNat - ul.toNat - b.toNat| ≤ 255 :=
  (paeth_distance_above a b ul).trans_le (abs_byte_sub_le a ul)

theorem paeth_distance_aboveLeft (a b ul : Byte) :
    |(a.toNat : Int) + b.toNat - ul.toNat - ul.toNat| = |(a.toNat : Int) + b.toNat - 2 * ul.toNat| :=
  congrArg abs (by omega)

theorem paeth_distance_aboveLeft_le (a b ul : Byte) : |(a.toNat : Int) + b.toNat - ul.toNat - ul.toNat| ≤ 510 := by
  have := a.isLt; have := b.isLt; have := ul.isLt
  exact abs_le.mpr ⟨by omega, by omega⟩

/-- Settles O36: the distances without `p`, and the branches of `paeth_eq`. -/
theorem paethPicksTheNearestNeighbour : Obligations.PaethPicksTheNearestNeighbour := by
  intro a b ul p da db dc
  have hpaeth : paeth a b ul = if da ≤ db ∧ da ≤ dc then a else if db ≤ dc then b else ul := paeth_eq a b ul
  refine ⟨(paethSum_bounds a b ul).1, (paethSum_bounds a b ul).2, paeth_distance_left a b ul,
    paeth_distance_above a b ul, paeth_distance_aboveLeft a b ul, paeth_distance_left_le a b ul,
    paeth_distance_above_le a b ul, paeth_distance_aboveLeft_le a b ul, fun h => ?_, fun h h' => ?_, fun h h' => ?_⟩
  · rw [hpaeth, if_pos h]
  · rw [hpaeth, if_neg h, if_pos h']
  · rw [hpaeth, if_neg h, if_neg h']

/-! ### The prediction and the reconstruction sum (R185) -/

@[simp] theorem pred_sub (a b ul : Byte) : pred 1 a b ul = a.toNat := rfl
@[simp] theorem pred_paeth (a b ul : Byte) : pred 4 a b ul = (paeth a b ul).toNat := rfl

/-- Every prediction is a byte's value. -/
theorem pred_le (ft a b ul : Byte) : pred ft a b ul ≤ 255 := by
  have := a.isLt; have := b.isLt; have hpaeth := (paeth a b ul).isLt
  unfold pred
  split_ifs
  · exact Nat.zero_le _
  · show a.toNat ≤ 255; omega
  · show b.toNat ≤ 255; omega
  · show (a.toNat + b.toNat) / 2 ≤ 255; omega
  · show (paeth a b ul).toNat ≤ 255; omega

theorem toNat_recon (x : Byte) (n : Nat) : (recon x n).toNat = (x.toNat + n) % 256 := BitVec.toNat_ofNat _ _

@[simp] theorem recon_zero (x : Byte) : recon x 0 = x :=
  BitVec.eq_of_toNat_eq (by rw [toNat_recon, Nat.add_zero, Nat.mod_eq_of_lt x.isLt])

/-- Adding a byte's value modulo 256 is adding the byte. -/
theorem recon_toNat (x v : Byte) : recon x v.toNat = x + v := by
  rw [recon, BitVec.ofNat_add, BitVec.ofNat_toNat, BitVec.ofNat_toNat, BitVec.setWidth_eq, BitVec.setWidth_eq]

/-- Settles O35: no prediction reaches 256, so the sum stays at most 510 before its reduction. -/
theorem onlyTheReconstructionSumIsReduced : Obligations.OnlyTheReconstructionSumIsReduced := by
  intro x a b ul ft _ p
  have hx := x.isLt
  have hpred := pred_le ft a b ul
  have hsum : a.toNat + b.toNat ≤ 510 := by have := a.isLt; have := b.isLt; omega
  exact ⟨rfl, rfl, rfl, rfl, hsum, rfl, (paethSum_bounds a b ul).1, (paethSum_bounds a b ul).2, paeth_eq a b ul,
    (paeth_distance_left_le a b ul).trans (by decide), (paeth_distance_above_le a b ul).trans (by decide),
    paeth_distance_aboveLeft_le a b ul, hpred, by omega, toNat_recon x _⟩

end Sys2Proof.Machine
end

section
/-! Proofs of the defilter family: what a scanline step leaves of PIX (R182 to R196). `scanline_written` says it once, and
`channel_determined` that the bytes of a channel follow from what its recurrence is given. -/

namespace Sys2Proof.Machine

/-! ### Executing a scanline of a recognised filter type -/

theorem isScanline_none (xs : List Byte) : IsScanline (.none xs) 0 xs := .inl ⟨rfl, rfl⟩
theorem isScanline_sub (xs : List Byte) : IsScanline (.sub xs) 1 xs := .inr (.inl ⟨rfl, rfl⟩)
theorem isScanline_up (xs : List Byte) : IsScanline (.up xs) 2 xs := .inr (.inr (.inl ⟨rfl, rfl⟩))
theorem isScanline_average (xs : List Byte) : IsScanline (.average xs) 3 xs := .inr (.inr (.inr (.inl ⟨rfl, rfl⟩)))
theorem isScanline_paeth (xs : List Byte) : IsScanline (.paeth xs) 4 xs := .inr (.inr (.inr (.inr ⟨rfl, rfl⟩)))

/-- A recognised filter type is one of 0 to 4, and its scanline is executed under its predictor. -/
theorem exec_isScanline {i : Instr} {ft : Byte} {xs : List Byte} (h : IsScanline i ft xs) (s : State) :
    exec i s = (scanlineStep ft (pred ft) xs s).outcome := by
  obtain ⟨rfl, rfl⟩ | ⟨rfl, rfl⟩ | ⟨rfl, rfl⟩ | ⟨rfl, rfl⟩ | ⟨rfl, rfl⟩ := h <;> rfl

theorem isScanline_filterKind {ft : Byte} (h : ft.toNat ≤ 4) (xs : List Byte) : IsScanline (filterKind ft xs) ft xs := by
  unfold IsScanline filterKind
  split_ifs with h0 h1 h2 h3 h4
  · exact .inl ⟨rfl, h0⟩
  · exact .inr (.inl ⟨rfl, h1⟩)
  · exact .inr (.inr (.inl ⟨rfl, h2⟩))
  · exact .inr (.inr (.inr (.inl ⟨rfl, h3⟩)))
  · exact .inr (.inr (.inr (.inr ⟨rfl, h4⟩)))
  · exfalso; bv_omega

/-- `t` is `s` after a scanline of filter type `ft` with the filtered bytes `xs`: the cells of the row are written, those before
it are kept, and each byte is reconstructed from the left neighbour in the row itself and from the row above, as `s` holds it. -/
structure RowWritten (ft : Byte) (xs : List Byte) (s t : State) : Prop where
  after : AfterScanline ft s t
  cells : t.pix.map Prod.fst = List.range ((s.row + 1) * s.stride)
  kept : ∀ i, i < s.row * s.stride → Memory.read t.pix i = Memory.read s.pix i
  bytes : ∀ col (h : col < xs.length), Memory.read t.pix (s.row * s.stride + col) =
    some (recon xs[col] (pred ft (neighbourA t.pix s.stride s.row col) (neighbourB s.pix s.stride s.row col)
      (neighbourUL s.pix s.stride s.row col)))

/-- The cells of the row above come before those of the row. -/
theorem rowAbove_lt {row stride col : Nat} (hr : 0 < row) (hc : col < stride) : (row - 1) * stride + col < row * stride := by
  obtain ⟨r, rfl⟩ := Nat.exists_eq_add_of_lt hr
  simp only [Nat.zero_add, Nat.add_sub_cancel, Nat.add_mul, one_mul]
  omega

/-- The neighbours in the row above depend on the cells before the row only. -/
theorem neighbourB_congr {pix pix' : List Host.Cell} {stride row : Nat}
    (h : ∀ i, i < row * stride → Memory.read pix' i = Memory.read pix i) {col : Nat} (hc : col < stride) :
    neighbourB pix' stride row col = neighbourB pix stride row col := by
  unfold neighbourB
  split_ifs with hr
  · rw [h _ (rowAbove_lt hr hc)]
  · rfl

theorem neighbourUL_congr {pix pix' : List Host.Cell} {stride row : Nat}
    (h : ∀ i, i < row * stride → Memory.read pix' i = Memory.read pix i) {col : Nat} (hc : col < stride) :
    neighbourUL pix' stride row col = neighbourUL pix stride row col := by
  unfold neighbourUL
  split_ifs with hr
  · rw [h _ (rowAbove_lt hr.1 (by omega))]
  · rfl

/-- From a ready state a scanline of a recognised filter type executes and writes its row. -/
theorem scanline_written {i : Instr} {ft : Byte} {xs : List Byte} {s : State} (hi : IsScanline i ft xs) (hr : s.RowReady)
    (hx : xs.length = s.stride) : ∃ t, exec i s = .next t ∧ RowWritten ft xs s t := by
  obtain ⟨t, ht, hafter, hcells, hkept, hbytes⟩ := scanlineStep_ok ft (pred ft) hr hx
  refine ⟨t, by rw [exec_isScanline hi, ht, outcome_ok], hafter, hcells, hkept, fun col hc => ?_⟩
  rw [hbytes col hc, neighbourB_congr hkept (hx ▸ hc), neighbourUL_congr hkept (hx ▸ hc)]

/-! ### The five reconstructions (R186 to R190) -/

/-- A scanline record reconstructs its row by what its filter type predicts. -/
theorem reconstructsRow_of_pred {i : List Byte → Instr} {ft : Byte} {prediction : Nat → Nat → Nat → Nat}
    (hi : ∀ xs, IsScanline (i xs) ft xs) (hp : ∀ a b ul, pred ft a b ul = prediction a.toNat b.toNat ul.toNat) :
    ReconstructsRow i prediction := by
  intro s xs hr hx
  obtain ⟨t, ht, hw⟩ := scanline_written (hi xs) hr hx
  refine ⟨t, ht, fun col hc => ?_⟩
  rw [hw.bytes col hc, neighbourB_congr hw.kept (hx ▸ hc), neighbourUL_congr hw.kept (hx ▸ hc), hp, recon]

/-- Settles O37. -/
theorem noneCopiesTheRow : Obligations.NoneCopiesTheRow :=
  reconstructsRow_of_pred isScanline_none fun _ _ _ => rfl

/-- Settles O38. -/
theorem subAddsTheLeftNeighbour : Obligations.SubAddsTheLeftNeighbour :=
  reconstructsRow_of_pred isScanline_sub fun _ _ _ => rfl

/-- Settles O39. -/
theorem upAddsTheNeighbourAbove : Obligations.UpAddsTheNeighbourAbove :=
  reconstructsRow_of_pred isScanline_up fun _ _ _ => rfl

/-- Settles O40. -/
theorem averageAddsTheHalvedSum : Obligations.AverageAddsTheHalvedSum :=
  reconstructsRow_of_pred isScanline_average fun _ _ _ => rfl

/-- Settles O41: the branches of `paeth_eq` as values of bytes. -/
theorem paethAddsTheNearestNeighbour : Obligations.PaethAddsTheNearestNeighbour := by
  refine reconstructsRow_of_pred isScanline_paeth fun a b ul => ?_
  rw [pred_paeth, paeth_eq, apply_ite BitVec.toNat, apply_ite BitVec.toNat]

/-! ### The frame and the last scanline (R192, R195) -/

theorem AfterScanline.row {ft : Byte} {s t : State} (h : AfterScanline ft s t) : t.row = s.row + 1 := by rw [h]

theorem AfterScanline.cmdPort {ft : Byte} {s t : State} (h : AfterScanline ft s t) : t.cmdPort = s.cmdPort := by rw [h]
theorem AfterScanline.width {ft : Byte} {s t : State} (h : AfterScanline ft s t) : t.width = s.width := by rw [h]
theorem AfterScanline.height {ft : Byte} {s t : State} (h : AfterScanline ft s t) : t.height = s.height := by rw [h]
theorem AfterScanline.stride {ft : Byte} {s t : State} (h : AfterScanline ft s t) : t.stride = s.stride := by rw [h]

theorem AfterScanline.phase {ft : Byte} {s t : State} (h : AfterScanline ft s t) : t.phase = afterRowPhase s := by rw [h]
theorem AfterScanline.done {ft : Byte} {s t : State} (h : AfterScanline ft s t) : t.done = afterRowDone s := by rw [h]

/-- Before the last row a scanline leaves the phase and `done`. -/
theorem AfterScanline.phase_of_more {ft : Byte} {s t : State} (h : AfterScanline ft s t)
    (hmore : s.row + 1 ≠ s.height.toNat) : t.phase = s.phase ∧ t.done = s.done := by
  rw [h.phase, h.done]; exact ⟨if_neg hmore, if_neg hmore⟩

/-- The last row enters `Done`. -/
theorem AfterScanline.phase_of_last {ft : Byte} {s t : State} (h : AfterScanline ft s t)
    (hlast : s.row + 1 = s.height.toNat) : t.phase = .done ∧ t.done = true := by
  rw [h.phase, h.done]; exact ⟨if_pos hlast, if_pos hlast⟩

/-- Settles O42: a scanline step never raises, and what it can do keeps every written cell and every cell outside the row. -/
theorem scanlinesWriteTheirRowOnly : Obligations.ScanlinesWriteTheirRowOnly := by
  intro s t i ft xs hi h
  rw [exec_isScanline hi] at h
  rcases scanlineStep_cases ft (pred ft) xs s with ⟨f, hf⟩ | ⟨-, u, hu, hafter, hkeep, hout, -⟩
  · rw [hf] at h; cases h
  rw [hu] at h; cases h
  refine ⟨?_, fun h => hafter.phase_of_more (hafter.row ▸ h), fun h => hafter.phase_of_last (hafter.row ▸ h), hout, hkeep⟩
  rw [hafter.phase, hafter.done]
  exact hafter

/-- Settles O43: the row's cells are the last ones of the image. -/
theorem lastScanlineEntersDone : Obligations.LastScanlineEntersDone := by
  intro s i ft xs hi hr hx hlast
  obtain ⟨t, ht, hw⟩ := scanline_written hi hr hx
  obtain ⟨hphase, hdone⟩ := hw.after.phase_of_last hlast
  refine ⟨t, ht, hw.after.row.trans hlast, hphase, hdone, fun a ha => ?_⟩
  exact (Memory.read_of_range hw.cells a).1 (hlast ▸ ha)

/-! ### The recurrence of a channel -/

/-- The left neighbour of a column among the bytes of its own row, 0 in the first pixel (R184). -/
def leftOf (f : Nat → Option Byte) (col : Nat) : Byte := if 4 ≤ col then (f (col - 4)).getD 0 else 0

theorem neighbourA_eq_leftOf (pix : List Host.Cell) (stride row col : Nat) :
    neighbourA pix stride row col = leftOf (fun c => Memory.read pix (row * stride + c)) col := rfl

/-- Two rows that compute each byte of some columns in the same way from its left neighbour agree on these columns, where the
left neighbour's column is always one of them. -/
theorem channel_determined {P : Nat → Prop} {f g : Nat → Option Byte} {u v : Nat → Byte → Byte}
    (hP : ∀ c, 4 ≤ c → P c → P (c - 4)) (hf : ∀ c, P c → f c = some (u c (leftOf f c)))
    (hg : ∀ c, P c → g c = some (v c (leftOf g c))) (huv : ∀ c a, P c → u c a = v c a) (c : Nat) (hc : P c) :
    f c = g c := by
  induction c using Nat.strong_induction_on with
  | _ c ih =>
    have hleft : leftOf f c = leftOf g c := by
      unfold leftOf
      split_ifs with h4
      · rw [ih (c - 4) (by omega) (hP c h4 hc)]
      · rfl
    rw [hf c hc, hg c hc, huv c _ hc, hleft]

/-- Two written rows agree on the columns where their filtered bytes and predictions agree, whatever the left neighbour. -/
theorem RowWritten.agree {ft ft' : Byte} {xs xs' : List Byte} {s s' t t' : State} (h : RowWritten ft xs s t)
    (h' : RowWritten ft' xs' s' t') (hrow : s'.row = s.row) (hstride : s'.stride = s.stride) {P : Nat → Prop}
    (hP : ∀ c, 4 ≤ c → P c → P (c - 4)) (hlt : ∀ c, P c → c < xs.length) (hlen : xs'.length = xs.length)
    (hxs : ∀ c, P c → xs[c]? = xs'[c]?)
    (hpred : ∀ c a, P c →
      pred ft a (neighbourB s.pix s.stride s.row c) (neighbourUL s.pix s.stride s.row c) =
        pred ft' a (neighbourB s'.pix s.stride s.row c) (neighbourUL s'.pix s.stride s.row c)) (c : Nat) (hc : P c) :
    Memory.read t.pix (s.row * s.stride + c) = Memory.read t'.pix (s.row * s.stride + c) := by
  refine channel_determined (f := fun c => Memory.read t.pix (s.row * s.stride + c))
    (g := fun c => Memory.read t'.pix (s.row * s.stride + c))
    (u := fun c a => recon (xs.getD c 0)
      (pred ft a (neighbourB s.pix s.stride s.row c) (neighbourUL s.pix s.stride s.row c)))
    (v := fun c a => recon (xs'.getD c 0)
      (pred ft' a (neighbourB s'.pix s.stride s.row c) (neighbourUL s'.pix s.stride s.row c)))
    hP (fun c hc => ?_) (fun c hc => ?_) (fun c a hc => ?_) c hc
  · simp only [← neighbourA_eq_leftOf, h.bytes c (hlt c hc), List.getD_eq_getElem _ _ (hlt c hc)]
  · have hc' : c < xs'.length := hlen ▸ hlt c hc
    have hbytes := h'.bytes c hc'
    rw [hrow, hstride] at hbytes
    simp only [← neighbourA_eq_leftOf, hbytes, List.getD_eq_getElem _ _ hc']
  · simp only [hpred c a hc, List.getD_eq_getElem?_getD, hxs c hc]

end Sys2Proof.Machine
end

section
/-! Proofs of the defilter family: the edges of the image (R194), the channels (R196) and the engine with neighbour buffers
(R193). -/

namespace Sys2Proof.Machine

/-! ### The edges (R190, R194) -/

theorem neighbourB_first_row (pix : List Host.Cell) (stride col : Nat) : neighbourB pix stride 0 col = 0 := rfl

theorem neighbourUL_first_row (pix : List Host.Cell) (stride col : Nat) : neighbourUL pix stride 0 col = 0 :=
  if_neg fun h => Nat.lt_irrefl 0 h.1

theorem neighbourA_first_pixel (pix : List Host.Cell) (stride row : Nat) {col : Nat} (h : col < 4) :
    neighbourA pix stride row col = 0 := if_neg (by omega)

theorem neighbourUL_first_pixel (pix : List Host.Cell) (stride row : Nat) {col : Nat} (h : col < 4) :
    neighbourUL pix stride row col = 0 := if_neg (by omega)

/-- In the first scanline two filter types that predict alike from the left neighbour alone leave the same PIX. -/
theorem RowWritten.pix_eq_of_first_row {ft ft' : Byte} {xs : List Byte} {s t u : State} (ht : RowWritten ft xs s t)
    (hu : RowWritten ft' xs s u) (hx : xs.length = s.stride) (h0 : s.row = 0) (hp : ∀ a, pred ft a 0 0 = pred ft' a 0 0) :
    t.pix = u.pix := by
  have hagree := ht.agree hu rfl rfl (P := fun c => c < xs.length) (fun c _ hc => by omega) (fun _ => id) rfl
    (fun _ _ => rfl) (fun c a _ => by rw [h0, neighbourB_first_row, neighbourUL_first_row, hp])
  refine Memory.ext_of_range ht.cells hu.cells fun i hi => ?_
  rw [h0, Nat.zero_add, one_mul] at hi
  have := hagree i (hx ▸ hi)
  rwa [h0, Nat.zero_mul, Nat.zero_add] at this

/-- Settles O45: `paeth a 0 0 = a` in the first scanline, and `paeth 0 b 0 = b` in the first pixel. -/
theorem edgesReplaceNeighboursByZero : Obligations.EdgesReplaceNeighboursByZero := by
  intro s xs hr hx
  obtain ⟨tNone, hNone, wNone⟩ := scanline_written (isScanline_none xs) hr hx
  obtain ⟨tSub, hSub, wSub⟩ := scanline_written (isScanline_sub xs) hr hx
  obtain ⟨tUp, hUp, wUp⟩ := scanline_written (isScanline_up xs) hr hx
  obtain ⟨tPaeth, hPaeth, wPaeth⟩ := scanline_written (isScanline_paeth xs) hr hx
  refine ⟨fun h0 => ⟨tPaeth, tSub, hPaeth, hSub, ?_⟩, fun h0 => ⟨tUp, tNone, hUp, hNone, ?_⟩,
    tSub, tPaeth, hSub, hPaeth, fun col hc h4 => ⟨?_, ?_⟩⟩
  · exact wPaeth.pix_eq_of_first_row wSub hx h0 fun a => congrArg BitVec.toNat (paeth_first_row a)
  · exact wUp.pix_eq_of_first_row wNone hx h0 fun _ => rfl
  · rw [wSub.bytes col hc, neighbourA_first_pixel _ _ _ h4, pred_sub]
    exact congrArg some (recon_zero _)
  · rw [wPaeth.bytes col hc, neighbourA_first_pixel _ _ _ h4, neighbourUL_first_pixel _ _ _ h4, pred_paeth,
      paeth_first_pixel, recon_toNat, neighbourB]

/-! ### The channels (R196) -/

/-- Settles O47: the columns of a channel are closed under the left neighbour, and the row above agrees on them. -/
theorem channelsAreIndependent : Obligations.ChannelsAreIndependent := by
  intro s s' t t' i i' ft xs xs' k hi hi' hr hr' hx hstride hrow hlen hxs habove ht ht' c hc hk
  obtain ⟨u, hu, w⟩ := scanline_written hi hr hx
  obtain ⟨u', hu', w'⟩ := scanline_written hi' hr' (by rw [hlen, hx, hstride])
  cases ht.symm.trans hu
  cases ht'.symm.trans hu'
  have hB : ∀ c, c < s.stride → c % 4 = k →
      neighbourB s.pix s.stride s.row c = neighbourB s'.pix s.stride s.row c := fun c hc hk => by
    unfold neighbourB
    split_ifs with h0
    · rw [habove c hc hk h0]
    · rfl
  have hUL : ∀ c, c < s.stride → c % 4 = k →
      neighbourUL s.pix s.stride s.row c = neighbourUL s'.pix s.stride s.row c := fun c hc hk => by
    unfold neighbourUL
    split_ifs with h0
    · rw [habove (c - 4) (by omega) (by omega) h0.1]
    · rfl
  exact w.agree w' hrow hstride (P := fun c => c < s.stride ∧ c % 4 = k) (fun c h4 hc => by omega)
    (fun c hc => hx.symm ▸ hc.1) hlen (fun c hc => hxs c hc.1 hc.2)
    (fun c a hc => by rw [hB c hc.1 hc.2, hUL c hc.1 hc.2]) c ⟨hc, hk⟩

/-! ### The engine with neighbour buffers (R193) -/

/-- R193's loop is R182's, from a state whose buffers hold what R193 says. -/
theorem bufferedRow_eq (predict : Byte → Byte → Byte → Nat) (xs : List Byte) {col : Nat} {s : State} (h : ByteReady s col)
    (hb : s.BuffersHold col) (hc : col + xs.length = s.stride) :
    bufferedRow predict xs col s = defilterRow predict xs col s := by
  induction xs generalizing col s with
  | nil => rfl
  | cons x xs ih =>
    rw [List.length_cons] at hc
    have hcol : col < s.stride := by omega
    simp only [bufferedRow, defilterRow, bufferedByte_eq predict x h hcol hb, defilterByte_ok predict x h hcol, andThen_ok]
    exact ih (afterByte_ready predict x _ _ _ h) (afterByte_buffers predict x h hcol hb)
      (show col + 1 + xs.length = s.stride by omega)

theorem bufferedScanlineStep_eq (ft : Byte) (predict : Byte → Byte → Byte → Nat) {xs : List Byte} {s : State}
    (hr : s.RowReady) (hl : s.LineReady) (hx : xs.length = s.stride) :
    bufferedScanlineStep ft predict xs s = scanlineStep ft predict xs s := by
  have hrow := bufferedRow_eq predict xs (clearBuffers_ready ft hr) (clearBuffers_buffers (s := { s with filt := ft }) hl)
    ((Nat.zero_add _).trans hx)
  rw [bufferedScanlineStep, scanlineStep, hrow]

/-- Settles O46. -/
theorem bufferedEngineAgrees : Obligations.BufferedEngineAgrees := by
  intro s xs hr hl hx
  have heq := fun ft predict => congrArg Flow.outcome (bufferedScanlineStep_eq ft predict hr hl hx)
  exact ⟨heq 0 predNone, heq 1 predSub, heq 2 predUp, heq 3 predAverage, heq 4 predPaeth⟩

end Sys2Proof.Machine
end

section
/-! Proof of the defilter family's round trip: a session that defilters the forward filter of an image presents the image (R197).
`Defiltered` is what holds after each row, and the recurrence of a row (`channel_determined`) is solved by the row of the image. -/

namespace Sys2Proof.Machine

/-! ### Rows of one length put together -/

/-- A byte of an image of `n`-byte rows, by its address (R96). -/
theorem flatten_getElem?_of_length {n : Nat} {rows : List (List Byte)} (h : ∀ r ∈ rows, r.length = n) (row : Nat) {col : Nat}
    (hc : col < n) : rows.flatten[row * n + col]? = (rows.getD row [])[col]? := by
  induction rows generalizing row with
  | nil => rfl
  | cons r rows ih =>
    obtain ⟨hr, hrows⟩ := List.forall_mem_cons.mp h
    cases row with
    | zero => rw [Nat.zero_mul, Nat.zero_add, List.flatten_cons, List.getElem?_append_left (hr ▸ hc), List.getD_cons_zero]
    | succ row =>
      have haddr : (row + 1) * n + col = r.length + (row * n + col) := by rw [hr, Nat.add_mul, one_mul]; omega
      rw [haddr, List.flatten_cons, List.getElem?_append_right (Nat.le_add_right _ _), Nat.add_sub_cancel_left, ih hrows,
        List.getD_cons_succ]

theorem length_flatMap_range {m k : Nat} {f : Nat → List Byte} (h : ∀ i, i < k → (f i).length = m) :
    ((List.range k).flatMap f).length = k * m := by
  induction k with
  | zero => rw [Nat.zero_mul]; rfl
  | succ k ih =>
    rw [List.range_succ, List.flatMap_append, List.length_append, ih fun i hi => h i (by omega), List.flatMap_singleton,
      h k (by omega), Nat.add_mul, one_mul]

/-- Records of `m` bytes stand back to back, so the one numbered `r` begins at `r * m` (R90). -/
theorem drop_flatMap_range {m k r : Nat} {f : Nat → List Byte} (h : ∀ i, i < k → (f i).length = m) (hr : r < k) :
    ∃ rest, ((List.range k).flatMap f).drop (r * m) = f r ++ rest := by
  obtain ⟨j, rfl⟩ := Nat.exists_eq_add_of_lt hr
  have hlen : ((List.range r).flatMap f).length = r * m := length_flatMap_range fun i hi => h i (by omega)
  refine ⟨((List.range j).map fun i => r + (i + 1)).flatMap f, ?_⟩
  rw [Nat.add_assoc, List.range_add, List.flatMap_append, List.drop_left' hlen, List.range_succ_eq_map, List.map_cons,
    List.flatMap_cons, List.map_map]
  rfl

/-! ### The image and its forward filter (R197) -/

/-- `rows` is an image of the size on the CFG port, with a recognised filter type for each row. -/
structure FilteredImage (p : Params) (rows : List (List Byte)) (fts : List Byte) : Prop where
  width : p.cfgWidth ≠ 0
  height : p.cfgHeight ≠ 0
  rowCount : rows.length = p.cfgHeight.toNat
  filterCount : fts.length = rows.length
  rowLength : ∀ r ∈ rows, r.length = strideOf p.cfgWidth
  filter : ∀ ft ∈ fts, ft.toNat ≤ 4

/-- The filtered bytes of a row. -/
def forwardBytes (rows : List (List Byte)) (ft : Byte) (row : Nat) : List Byte :=
  (List.range (rows.getD row []).length).map fun col => forwardByte rows ft row col

theorem forwardRow_eq (rows : List (List Byte)) (ft : Byte) (row : Nat) :
    forwardRow rows ft row = ft :: forwardBytes rows ft row := rfl

section
variable {p : Params} {rows : List (List Byte)} {fts : List Byte}

theorem FilteredImage.length_row (h : FilteredImage p rows fts) {row : Nat} (hr : row < rows.length) :
    (rows.getD row []).length = strideOf p.cfgWidth := by
  rw [List.getD_eq_getElem _ _ hr]
  exact h.rowLength _ (List.getElem_mem hr)

theorem FilteredImage.filter_le (h : FilteredImage p rows fts) {row : Nat} (hr : row < rows.length) :
    (fts.getD row 0).toNat ≤ 4 := by
  rw [List.getD_eq_getElem _ _ (h.filterCount ▸ hr)]
  exact h.filter _ (List.getElem_mem _)

theorem FilteredImage.length_forwardBytes (h : FilteredImage p rows fts) (ft : Byte) {row : Nat} (hr : row < rows.length) :
    (forwardBytes rows ft row).length = strideOf p.cfgWidth := by
  rw [forwardBytes, List.length_map, List.length_range, h.length_row hr]

theorem FilteredImage.length_forwardRow (h : FilteredImage p rows fts) (ft : Byte) {row : Nat} (hr : row < rows.length) :
    (forwardRow rows ft row).length = strideOf p.cfgWidth + 1 := by
  rw [forwardRow_eq, List.length_cons, h.length_forwardBytes ft hr]

theorem FilteredImage.length_forwardRaw (h : FilteredImage p rows fts) :
    (forwardRaw rows fts).length = expRawOf p.cfgWidth p.cfgHeight := by
  rw [forwardRaw, length_flatMap_range fun _ hr => h.length_forwardRow _ hr, h.rowCount, expRawOf]

/-- The scanline numbered `row` in RAW (R95). -/
theorem FilteredImage.drop_forwardRaw (h : FilteredImage p rows fts) {row : Nat} (hr : row < rows.length) :
    ∃ rest, (forwardRaw rows fts).drop (row * (strideOf p.cfgWidth + 1)) =
      fts.getD row 0 :: (forwardBytes rows (fts.getD row 0) row ++ rest) :=
  drop_flatMap_range (fun _ hi => h.length_forwardRow _ hi) hr

theorem FilteredImage.length_flatten (h : FilteredImage p rows fts) :
    rows.flatten.length = rows.length * strideOf p.cfgWidth := by
  rw [List.length_flatten, List.map_congr_left h.rowLength, List.map_const', List.sum_replicate, smul_eq_mul]

/-! ### The neighbours in the image -/

theorem imageNeighbour_left (rows : List (List Byte)) (row col : Nat) :
    imageNeighbour rows row col 0 bpp = leftOf (fun c => (rows.getD row [])[c]?) col := by
  simp [imageNeighbour, leftOf, bpp, List.getD_eq_getElem?_getD]

/-- The first `row` rows of the image stand in PIX. -/
def HoldsRows (rows : List (List Byte)) (stride row : Nat) (pix : List Host.Cell) : Prop :=
  ∀ i, i < row * stride → Memory.read pix i = rows.flatten[i]?

theorem HoldsRows.read_above (h : FilteredImage p rows fts) {row : Nat} {pix : List Host.Cell}
    (hp : HoldsRows rows (strideOf p.cfgWidth) row pix) (hr : 0 < row) {col : Nat} (hc : col < strideOf p.cfgWidth) :
    Memory.read pix ((row - 1) * strideOf p.cfgWidth + col) = (rows.getD (row - 1) [])[col]? := by
  rw [hp _ (rowAbove_lt hr hc), flatten_getElem?_of_length h.rowLength _ hc]

theorem HoldsRows.neighbourB_eq (h : FilteredImage p rows fts) {row : Nat} {pix : List Host.Cell}
    (hp : HoldsRows rows (strideOf p.cfgWidth) row pix) {col : Nat} (hc : col < strideOf p.cfgWidth) :
    neighbourB pix (strideOf p.cfgWidth) row col = imageNeighbour rows row col 1 0 := by
  unfold neighbourB imageNeighbour
  by_cases hr : 0 < row
  · rw [if_pos hr, if_pos ⟨hr, Nat.zero_le _⟩, hp.read_above h hr hc, ← List.getD_eq_getElem?_getD, Nat.sub_zero]
  · rw [if_neg hr, if_neg fun h => hr h.1]

theorem HoldsRows.neighbourUL_eq (h : FilteredImage p rows fts) {row : Nat} {pix : List Host.Cell}
    (hp : HoldsRows rows (strideOf p.cfgWidth) row pix) {col : Nat} (hc : col < strideOf p.cfgWidth) :
    neighbourUL pix (strideOf p.cfgWidth) row col = imageNeighbour rows row col 1 bpp := by
  unfold neighbourUL imageNeighbour bpp
  by_cases hr : 0 < row ∧ 4 ≤ col
  · rw [if_pos hr, if_pos (show 1 ≤ row ∧ 4 ≤ col from hr), hp.read_above h hr.1 (by omega), ← List.getD_eq_getElem?_getD]
  · rw [if_neg hr]; exact (if_neg hr).symm

/-! ### The rows of the session -/

/-- A state of the session between two rows: the rows of the image before `row` are defiltered, and after the last one the
session is over. -/
structure Defiltered (p : Params) (rows : List (List Byte)) (fts : List Byte) (s : State) : Prop where
  port : s.cmdPort = []
  raw : s.raw = forwardRaw rows fts
  width : s.width = p.cfgWidth
  height : s.height = p.cfgHeight
  stride : s.stride = strideOf p.cfgWidth
  pix : s.PixFilled (s.row * s.stride)
  image : HoldsRows rows s.stride s.row s.pix
  running : s.row ≠ rows.length → s.phase = .defiltering
  finished : s.row = rows.length → s.phase = .done ∧ s.done = true

theorem Defiltered.rowReady (h : FilteredImage p rows fts) {s : State} (hs : Defiltered p rows fts s)
    (hr : s.row < rows.length) : s.RowReady where
  inImage := by rw [hs.height, ← h.rowCount]; exact hr
  stride := by rw [hs.stride]; exact Nat.mul_pos (by decide) (toNat_pos h.width)
  pix := hs.pix

theorem Defiltered.takePort {s : State} (hs : Defiltered p rows fts s) : Defiltered p rows fts s.takePort where
  port := by rw [takePort_cmdPort, hs.port]; rfl
  raw := hs.raw
  width := hs.width
  height := hs.height
  stride := hs.stride
  pix := ⟨hs.pix.size, hs.pix.cells⟩
  image := hs.image
  running := hs.running
  finished := hs.finished

/-- The row that a scanline writes is the row of the image: it solves the same recurrence, since what the forward filter
subtracts the reconstruction adds. -/
theorem Defiltered.read_row (h : FilteredImage p rows fts) {s t : State} (hs : Defiltered p rows fts s)
    (hr : s.row < rows.length) {ft : Byte} (hw : RowWritten ft (forwardBytes rows ft s.row) s t) {col : Nat}
    (hc : col < s.stride) : Memory.read t.pix (s.row * s.stride + col) = (rows.getD s.row [])[col]? := by
  refine channel_determined (P := fun c => c < s.stride) (f := fun c => Memory.read t.pix (s.row * s.stride + c))
    (g := fun c => (rows.getD s.row [])[c]?)
    (u := fun c a => recon (forwardByte rows ft s.row c)
      (pred ft a (neighbourB s.pix s.stride s.row c) (neighbourUL s.pix s.stride s.row c)))
    (v := fun c a => recon (forwardByte rows ft s.row c)
      (pred ft a (imageNeighbour rows s.row c 1 0) (imageNeighbour rows s.row c 1 bpp)))
    (fun c _ hc => by omega) (fun c hc => ?_) (fun c hc => ?_) (fun c a hc => ?_) col hc
  · have hbytes := hw.bytes c (by rw [h.length_forwardBytes ft hr, ← hs.stride]; exact hc)
    simpa only [← neighbourA_eq_leftOf, forwardBytes, List.getElem_map, List.getElem_range] using hbytes
  · have hlen : c < (rows.getD s.row []).length := by rw [h.length_row hr, ← hs.stride]; exact hc
    simp only [← imageNeighbour_left, forwardByte, recon_sub, List.getD_eq_getElem _ _ hlen, List.getElem?_eq_getElem hlen]
  · have himage := hs.image
    rw [hs.stride] at himage hc
    simp only [hs.stride, himage.neighbourB_eq h hc, himage.neighbourUL_eq h hc]

/-- A scanline of the filtered image adds its row to the rows in PIX. -/
theorem Defiltered.holdsRows_next (h : FilteredImage p rows fts) {s t : State} (hs : Defiltered p rows fts s)
    (hr : s.row < rows.length) {ft : Byte} (hw : RowWritten ft (forwardBytes rows ft s.row) s t) :
    HoldsRows rows s.stride (s.row + 1) t.pix := by
  intro i hi
  by_cases hold : i < s.row * s.stride
  · rw [hw.kept i hold, hs.image i hold]
  · obtain ⟨col, rfl⟩ := Nat.exists_eq_add_of_le (Nat.not_lt.mp hold)
    have hcol : col < s.stride := by rw [Nat.add_mul, one_mul] at hi; omega
    rw [hs.read_row h hr hw hcol, flatten_getElem?_of_length (fun r hmem => (h.rowLength r hmem).trans hs.stride.symm) _ hcol]

theorem Defiltered.next (h : FilteredImage p rows fts) {s t : State} (hs : Defiltered p rows fts s)
    (hr : s.row < rows.length) {ft : Byte} (hw : RowWritten ft (forwardBytes rows ft s.row) s t) :
    Defiltered p rows fts t := by
  have hafter := hw.after
  have hlast : s.row + 1 = rows.length ↔ s.row + 1 = s.height.toNat := by rw [hs.height, h.rowCount]
  exact
  { port := hafter.cmdPort.trans hs.port
    raw := hafter.raw.trans hs.raw
    width := hafter.width.trans hs.width
    height := hafter.height.trans hs.height
    stride := hafter.stride.trans hs.stride
    pix :=
      ⟨by rw [hafter.pixSize, hs.pix.size, State.imageSize, State.imageSize, hafter.height, hafter.stride],
        by rw [hafter.row, hafter.stride]; exact hw.cells⟩
    image := by rw [hafter.row, hafter.stride]; exact hs.holdsRows_next h hr hw
    running := fun hmore => by
      rw [hafter.row, ne_eq, hlast] at hmore
      exact (hafter.phase_of_more hmore).1.trans (hs.running hr.ne)
    finished := fun hend => by
      rw [hafter.row, hlast] at hend
      exact hafter.phase_of_last hend }

theorem hostAct_of_empty {s : State} (h : s.cmdPort = []) : hostAct s = .nothing := by
  rw [hostAct, h]

/-- A step of the session executes the record of the next row. -/
theorem Defiltered.exists_step (h : FilteredImage p rows fts) {s : State} (hs : Defiltered p rows fts s)
    (hr : s.row < rows.length) : ∃ t, step s = .next t ∧ t.row = s.row + 1 ∧ Defiltered p rows fts t := by
  obtain ⟨rest, hrest⟩ := h.drop_forwardRaw hr
  have hlen : (forwardBytes rows (fts.getD s.row 0) s.row).length = s.stride :=
    (h.length_forwardBytes _ hr).trans hs.stride.symm
  have hdecode : decode (.scanline s.stride (s.raw.drop s.rpos)) =
      .ok (filterKind (fts.getD s.row 0) (forwardBytes rows (fts.getD s.row 0) s.row)) rest := by
    rw [State.rpos, hs.raw, hs.stride, hrest, ← h.length_forwardBytes _ hr]
    exact decodeScanline_cons _ _ _
  obtain ⟨t, ht, hw⟩ := scanline_written (isScanline_filterKind (h.filter_le hr) _) (hs.takePort.rowReady h hr) hlen
  refine ⟨t, ?_, hw.after.row, hs.takePort.next h hr hw⟩
  rw [step_nothing (hostAct_of_empty hs.port), advance_of_decode_scanline (s := s.takePort) (hs.running hr.ne) hdecode, ht]

/-- A run goes on from the state its first step answers. -/
theorem run_succ {M : Host.Core} {s t : M.State} (h : M.step s = .next t) (k : Nat) : M.run (k + 1) s = M.run k t := by
  rw [Host.Core.run, h]

theorem run_succ_of_step {s t : State} (h : step s = .next t) (k : Nat) :
    Host.Core.run Sys2Proof.core (k + 1) s = Host.Core.run Sys2Proof.core k t :=
  run_succ (M := Sys2Proof.core) h k

/-- One step for each row that is left. -/
theorem Defiltered.run (h : FilteredImage p rows fts) (k : Nat) {s : State} (hs : Defiltered p rows fts s)
    (hk : s.row + k = rows.length) :
    ∃ t : State, Host.Core.run Sys2Proof.core k s = .next t ∧ t.row = rows.length ∧ Defiltered p rows fts t := by
  induction k generalizing s with
  | zero => exact ⟨s, rfl, hk, hs⟩
  | succ k ih =>
    obtain ⟨t, ht, hrow, hnext⟩ := hs.exists_step h (by omega)
    rw [run_succ_of_step ht]
    exact ih hnext (by omega)

/-- After the last row OUT presents the image. -/
theorem Defiltered.out_eq (h : FilteredImage p rows fts) {s : State} (hs : Defiltered p rows fts s)
    (hend : s.row = rows.length) :
    s.out = some { width := p.cfgWidth, height := p.cfgHeight, stride := strideOf p.cfgWidth, bytes := rows.flatten } := by
  have hlen : rows.flatten.length = s.row * s.stride := by rw [h.length_flatten, hend, hs.stride]
  have hlen' : s.pixBytes.length = s.row * s.stride := by
    simpa [State.pixBytes] using congrArg List.length hs.pix.cells
  have hbytes : s.pixBytes = rows.flatten := List.ext_getElem? fun i => by
    by_cases hi : i < s.row * s.stride
    · rw [State.pixBytes, ← Memory.read_getElem hs.pix.cells hi, hs.image i hi]
    · rw [List.getElem?_eq_none (by omega), List.getElem?_eq_none (by omega)]
  rw [State.out, (hs.finished hend).2, if_pos rfl, hbytes, hs.width, hs.height, hs.stride]

/-! ### The command that begins it (R228) -/

/-- With a legal size, no cap in the way and RAW long enough, `CMD_DEFILTER` enters the engine. -/
theorem stepStartDefilter_enters {w v : Word} {raw : List Byte} {s : State} (hw : w ≠ 0) (hv : v ≠ 0)
    (hrawCap : s.params.rawCap = .inf) (hpixelCap : s.params.pixelCap = .inf) (hraw : expRawOf w v ≤ raw.length) :
    stepStartDefilter w v raw s = .ok
      { afterCommit w v s with raw := raw, pixSize := v.toNat * strideOf w, pix := [], row := 0, phase := .defiltering } := by
  have hcap : (afterCommit w v s).capacityExceeded = false := by
    show (Cap.exceededBy s.params.rawCap _ || Cap.exceededBy s.params.pixelCap _) = false
    rw [hrawCap, hpixelCap]; rfl
  rcases sdeEnter_cases { afterCommit w v s with raw := raw } with ⟨hshort, -⟩ | ⟨-, henter⟩
  · exact absurd hraw (Nat.not_le.mpr hshort)
  · simp only [stepStartDefilter, dimensionFault_nonzero hw hv]
    rw [← afterCommit, hcap, if_neg Bool.false_ne_true, henter]
    rfl

/-- After its first step the session has no row defiltered. -/
theorem FilteredImage.start (h : FilteredImage p rows fts) (hrawCap : p.rawCap = .inf) (hpixelCap : p.pixelCap = .inf)
    (hraw : p.rawIn = forwardRaw rows fts) :
    ∃ t, step (State.afterReset p [.code 2]) = .next t ∧ t.row = 0 ∧ Defiltered p rows fts t := by
  have hlong : expRawOf p.cfgWidth p.cfgHeight ≤ p.rawIn.length := by rw [hraw, h.length_forwardRaw]
  have hstep : step (State.afterReset p [.code 2]) =
      (stepStartDefilter p.cfgWidth p.cfgHeight p.rawIn (State.afterReset p [])).outcome := rfl
  rw [stepStartDefilter_enters (s := State.afterReset p []) h.width h.height hrawCap hpixelCap hlong, outcome_ok] at hstep
  refine ⟨_, hstep, rfl, ?_⟩
  exact
  { port := rfl
    raw := hraw
    width := rfl
    height := rfl
    stride := rfl
    pix := ⟨rfl, by rw [Nat.zero_mul]; rfl⟩
    image := fun i hi => absurd hi (by rw [Nat.zero_mul]; exact Nat.not_lt_zero i)
    running := fun _ => rfl
    finished := fun h0 => absurd (toNat_pos h.height) (by rw [← h.rowCount, ← h0]; exact Nat.lt_irrefl 0) }

end

/-- Settles O48: the command enters the engine, each further step defilters a row, and after the last one PIX holds the image. -/
theorem defilterUndoesTheForwardFilter : Obligations.DefilterUndoesTheForwardFilter := by
  intro p rows fts hrawCap hpixelCap hwidth hheight hcount hfilters hlength hfilter hraw
  have himage : FilteredImage p rows fts := ⟨hwidth, hheight, hcount, hfilters, hlength, hfilter⟩
  obtain ⟨s, hs, hrow, hstart⟩ := himage.start hrawCap hpixelCap hraw
  obtain ⟨t, ht, hend, hdone⟩ := hstart.run himage rows.length (by omega)
  refine ⟨t, ?_, (hdone.finished hend).1, hdone.out_eq himage hend⟩
  rw [Nat.add_comm, run_succ_of_step hs, ht]

end Sys2Proof.Machine
end

section
/-! Proofs of the sequencer family: the step of each phase (R222 to R225), what the CMD port presents (R220, R237), and the two
commands (R221, R228). -/

namespace Sys2Proof.Machine

/-! ### The step table as the spec writes it (R222) -/

theorem advance_endSeen {s : State} (hp : s.phase = .endSeen) : advance s = (stepEndSeen s).outcome :=
  advance_of_seq (by simp only [fetch, hp])

theorem advance_decompressing {s : State} (hp : s.phase = .decompressing) : advance s = (stepDecompress s).outcome :=
  advance_of_seq (by simp only [fetch, hp])

/-- Where the step table has no step, the state stays (R222, R227, R272). -/
theorem advance_waiting_or_over {s : State} (h : (s.phase = .start ∧ s.cmd = 0) ∨ s.phase = .done ∨ s.phase = .failed) :
    advance s = .next s := by
  refine advance_of_idle ?_
  rcases h with ⟨hp, hc⟩ | hp | hp
  · simp [fetch, hp, hc]
  · simp only [fetch, hp]
  · simp only [fetch, hp]

/-- Under the invariant, running the decoded record of a phase is running the spec's step of that phase. -/
theorem State.Inv.advance_eq_phaseStep {s : State} (hI : s.Inv) : advance s = (phaseStep s).outcome := by
  cases hp : s.phase with
  | start => rw [advance_waiting_or_over (.inl ⟨hp, hI.cmd.mpr hp⟩), phaseStep, hp, outcome_ok]
  | signatureChecked | headerKnown | payloadAccumulating => rw [advance_frame (by rw [hp]; rfl), phaseStep, hp]
  | reading => exact absurd hp hI.notReading
  | endSeen => rw [advance_endSeen hp, phaseStep, hp]
  | decompressing => rw [advance_decompressing hp, phaseStep, hp]
  | defiltering =>
    obtain ⟨hraw, hready, -⟩ := hI.defiltering hp
    have hheader : s.HeaderLegal := hI.header (hI.late (.inr (.inl hp)))
    rw [advance_scanline hp hraw hready (expRaw_eq hheader), phaseStep, hp]
  | done => rw [advance_waiting_or_over (.inr (.inl hp)), phaseStep, hp, outcome_ok]
  | failed => rw [advance_waiting_or_over (.inr (.inr hp)), phaseStep, hp, outcome_ok]

/-- Settles O8: taking the CMD port keeps the invariant, under which the two steps of each phase are the same. -/
theorem stepFollowsTheStepTable : Obligations.StepFollowsTheStepTable := by
  intro s hI hact
  rw [step_nothing hact, (inv_takePort hI).advance_eq_phaseStep]

/-- Settles O9. -/
theorem noStepIsEnabledWhenWaitingOrOver : Obligations.NoStepIsEnabledWhenWaitingOrOver := by
  intro s hact h
  rw [step_nothing hact, advance_waiting_or_over (s := s.takePort) h]

/-! ### The decoded record (R222) -/

/-- After `frame_check`, R150's dispatch on the registers has the effect of the kind the tag selects. -/
theorem dispatch_of_body {tag : Tag} {data : List Byte} {u : State} (h : u.body = tag.bytes ++ data) :
    dispatch u.frameType u.frameData u = effectOf tag data u := by
  have htype : u.frameType = tag.bytes := by rw [State.frameType, h]; exact List.take_left' rfl
  have hdata : u.frameData = data := by rw [State.frameData, h]; exact List.drop_left' rfl
  rw [htype, hdata, dispatch_eq]

/-- The step of the chunk loop on a frame that stands at `pos` whole is the frame's own, also where its length or its CRC
raises. -/
theorem stepFrame_eq_frameStep {s : State} {rest : List Byte} {tag : Tag} {data : List Byte} {crc : Word}
    (ha : s.params.srcAnswers = .inf) (hl : data.length < lengthLimit)
    (h : s.params.src.drop s.pos = frameBytes tag data crc ++ rest) :
    stepFrame s = frameStep tag data crc (effectOf tag) s := by
  rw [stepFrame, frameRead_eq_frameTake ha hl h, frameStep, andThen_assoc]
  cases ht : frameTake tag data crc s with
  | ok t =>
    rw [andThen_ok, andThen_ok]
    cases hc : frameCheck t with
    | ok u =>
      have hbody : u.body = tag.bytes ++ data := by rw [(frameCheck_ok hc).2, frameTake_ok ht]; rfl
      rw [andThen_ok, andThen_ok, dispatch_of_body hbody]
    | raised u => rfl
    | stuck f => rfl
  | raised t => rfl
  | stuck f => rfl

/-- In the chunk loop the frame that decodes at `pos` is executed. -/
theorem advance_of_decode_frame {s : State} {i : Instr} {rest : List Byte} (hloop : s.phase.inChunkLoop = true)
    (ha : s.params.srcAnswers = .inf) (h : decode (.frame (s.params.src.drop s.pos)) = .ok i rest) :
    advance s = exec i s := by
  obtain ⟨tag, data, crc, rfl, hl, hsrc⟩ := decodeFrame_ok h
  rw [advance_frame hloop, stepFrame_eq_frameStep ha hl hsrc, exec_frameKind]

/-- A code on the CMD port that decodes is a command, in `Start` (R220). -/
theorem step_of_decode_cmd {s : State} {c : BitVec 2} {port : List PortAction} {i : Instr}
    (hport : s.cmdPort = .code c :: port) (hp : s.phase = .start)
    (h : decode (.cmd c s.params.cfgWidth s.params.cfgHeight s.params.rawIn) = .ok i []) :
    step s = exec i s := by
  have hact : hostAct s = .command i := by simp only [hostAct, hport, hp, if_true, h]
  rw [step, hact]

theorem advance_of_cmd_recorded {s : State} (hp : s.phase = .start) (hc : s.cmd = 1) : advance s = exec .sig s := by
  simp only [advance, fetch, hp, hc, if_true]

/-- Settles O7, a lemma for each place a record is read from. -/
theorem stepRunsTheDecodedRecord : Obligations.StepRunsTheDecodedRecord := by
  refine ⟨fun s i rest hact hloop ha h => ?_, fun s i rest hact hp h => ?_, fun s c port i => step_of_decode_cmd,
    fun s hact hp hc => ?_⟩
  · rw [step_nothing hact, advance_of_decode_frame (s := s.takePort) hloop ha h]
  · rw [step_nothing hact, advance_of_decode_scanline (s := s.takePort) hp h]
  · rw [step_nothing hact, advance_of_cmd_recorded (s := s.takePort) hp hc]

/-! ### Commands that are ignored (R220, R237) -/

theorem hostAct_code_ignored {s : State} {c : BitVec 2} {port : List PortAction} (hport : s.cmdPort = .code c :: port)
    (h : s.phase ≠ .start ∨ c = 0 ∨ c = 3) : hostAct s = .nothing := by
  simp only [hostAct, hport]
  rcases h with hp | rfl | rfl
  · exact if_neg hp
  · exact ite_self _
  · exact ite_self _

theorem exec_cmdDecode_outside_start {s : State} (hp : s.phase ≠ .start) : exec .cmdDecode s = .next s.takePort :=
  if_neg hp

theorem exec_cmdDefilter_outside_start {s : State} (w h : Word) (raw : List Byte) (hp : s.phase ≠ .start) :
    exec (.cmdDefilter w h raw) s = .next s.takePort :=
  if_neg hp

/-- Settles O11: the ignored code is nothing, and so is `idle`; once it is taken off the port the two states are the same. -/
theorem commandsOutsideStartAreIgnored : Obligations.CommandsOutsideStartAreIgnored := by
  refine ⟨fun s c port hport h => ?_, fun s => exec_cmdDecode_outside_start,
    fun s w h raw => exec_cmdDefilter_outside_start w h raw⟩
  have htake : s.takePort = State.takePort { s with cmdPort := .idle :: port } := by
    rw [State.takePort, State.takePort, hport]; rfl
  have hidle : hostAct { s with cmdPort := .idle :: port } = .nothing := rfl
  rw [step_nothing (hostAct_code_ignored hport h), step_nothing hidle, htake]

/-! ### `CMD_DECODE` (R221) -/

theorem exec_cmdDecode_start {s : State} (hp : s.phase = .start) :
    exec .cmdDecode s = exec .sig { s.takePort with cmd := 1 } :=
  if_pos hp

/-- Settles O30: the command is the signature record, which finds the signature at `pos` (`signatureRecordIsCheckedOnce`). -/
theorem cmdDecodeStartsTheSession : Obligations.CmdDecodeStartsTheSession := by
  refine ⟨fun s => exec_cmdDecode_start, fun s rest hp ha hsrc => ?_⟩
  obtain ⟨-, -, hgood⟩ := signatureRecordIsCheckedOnce { s.takePort with cmd := 1 } ha
  exact (exec_cmdDecode_start hp).trans (hgood rest hsrc)

/-! ### Capacities and the engine's entry (R181, R224) -/

theorem capacityExceeded_iff (s : State) :
    s.capacityExceeded = true ↔
      Cap.exceededBy s.params.rawCap s.expRaw = true ∨ Cap.exceededBy s.params.pixelCap (s.height.toNat * s.stride) = true :=
  Bool.or_eq_true_iff

theorem sdeEnter_short {s : State} (h : s.rawLen < s.expRaw) :
    sdeEnter s = .raised (raise (.truncatedImageData s.expRaw s.rawLen) s) :=
  if_pos h

theorem sdeEnter_enters {s : State} (h : s.expRaw ≤ s.rawLen) :
    sdeEnter s = .ok { s with pixSize := s.imageSize, pix := [], row := 0, phase := .defiltering } :=
  if_neg (Nat.not_lt.mpr h)

/-! ### `CMD_DEFILTER` (R228) -/

theorem exec_cmdDefilter_start {s : State} (w h : Word) (raw : List Byte) (hp : s.phase = .start) :
    exec (.cmdDefilter w h raw) s = (stepStartDefilter w h raw s.takePort).outcome :=
  if_pos hp

theorem stepStartDefilter_zero {w v : Word} (h : w = 0 ∨ v = 0) (raw : List Byte) (s : State) :
    stepStartDefilter w v raw s = .raised (raise (.unsupportedDimensions w v) { s with cmd := 2 }) := by
  simp only [stepStartDefilter, dimensionFault_zero h]

theorem stepStartDefilter_tooLarge {w v : Word} {s : State} (hw : w ≠ 0) (hv : v ≠ 0) (raw : List Byte)
    (hcap : (afterCommit w v s).capacityExceeded = true) :
    stepStartDefilter w v raw s = .raised (raise .allocationFailure (afterCommit w v s)) := by
  simp only [stepStartDefilter, dimensionFault_nonzero hw hv]
  exact if_pos hcap

theorem stepStartDefilter_fits {w v : Word} {s : State} (hw : w ≠ 0) (hv : v ≠ 0) (raw : List Byte)
    (hcap : ¬ (afterCommit w v s).capacityExceeded = true) :
    stepStartDefilter w v raw s = sdeEnter { afterCommit w v s with raw := raw } := by
  simp only [stepStartDefilter, dimensionFault_nonzero hw hv]
  exact if_neg hcap

/-- In `Start` the commit leaves the phase (R154). -/
theorem afterCommit_of_start {s : State} (hp : s.phase = .start) (w v : Word) :
    afterCommit w v s =
      { s with
        cmd := 2, width := w, height := v, bitDepth := 8, colorType := 6, compressionMethod := 0, filterMethod := 0,
        interlaceMethod := 0, stride := 4 * w.toNat, expRaw := v.toNat * (4 * w.toNat + 1), hdrValid := true } := by
  have hphase : (if s.phase = .signatureChecked then .headerKnown else s.phase) = s.phase := if_neg (by simp [hp])
  rw [afterCommit, commitHeader, hphase]
  rfl

/-- Settles O31: the dimensions, then the capacities under the committed header, then the engine's entry with RAW in place. -/
theorem cmdDefilterStartsTheEngine : Obligations.CmdDefilterStartsTheEngine := by
  intro s w h raw hp committed tooLarge
  have hcommit : afterCommit w h s.takePort = committed := afterCommit_of_start (s := s.takePort) hp w h
  have hcap : (afterCommit w h s.takePort).capacityExceeded = true ↔ tooLarge := capacityExceeded_iff _
  rw [exec_cmdDefilter_start w h raw hp]
  refine ⟨fun h0 => ?_, fun hw hh hlarge => ?_, fun hw hh hfits hshort => ?_, fun hw hh hfits hlong => ?_⟩
  · rw [stepStartDefilter_zero h0, outcome_raised]
  · rw [stepStartDefilter_tooLarge hw hh raw (hcap.mpr hlarge), hcommit, outcome_raised]
  · rw [stepStartDefilter_fits hw hh raw (mt hcap.mp hfits), hcommit,
      sdeEnter_short (s := { committed with raw := raw }) hshort, outcome_raised]
    rfl
  · rw [stepStartDefilter_fits hw hh raw (mt hcap.mp hfits), hcommit,
      sdeEnter_enters (s := { committed with raw := raw }) hlong, outcome_ok]
    rfl

/-! ### `EndSeen` and `Decompressing` (R224, R225) -/

theorem stepEndSeen_missing {s : State} (hv : s.hdrValid = false) : stepEndSeen s = .raised (raise .missingHeader s) :=
  if_pos hv

theorem stepEndSeen_valid {s : State} (hv : s.hdrValid = true) :
    stepEndSeen s =
      if s.capacityExceeded then .raised (raise .allocationFailure s) else .ok { s with phase := .decompressing } := by
  rw [stepEndSeen, hv, if_neg Bool.true_eq_false_eq_False]

/-- Settles O32. -/
theorem endSeenChecksHeaderAndCapacities : Obligations.EndSeenChecksHeaderAndCapacities := by
  intro s hact hp tooLarge
  have hcap : s.takePort.capacityExceeded = true ↔ tooLarge := capacityExceeded_iff _
  rw [step_nothing hact, advance_endSeen (s := s.takePort) hp]
  refine ⟨fun hv => ?_, fun hv hlarge => ?_, fun hv hfits => ?_⟩
  · rw [stepEndSeen_missing (s := s.takePort) hv, outcome_raised]
  · rw [stepEndSeen_valid (s := s.takePort) hv, if_pos (hcap.mpr hlarge), outcome_raised]
  · rw [stepEndSeen_valid (s := s.takePort) hv, if_neg (mt hcap.mp hfits), outcome_ok]

theorem stepDecompress_err {s : State} (h : inflate s.params.inflateUnit s.pay = some .err) :
    stepDecompress s = .raised (raise .decompressError s) := by
  rw [stepDecompress, h]

theorem stepDecompress_wrongSize {s : State} {bytes : List Byte} (h : inflate s.params.inflateUnit s.pay = some (.ok bytes))
    (hne : bytes.length ≠ s.expRaw) :
    stepDecompress s = .raised (raise (.sizeMismatch s.expRaw bytes.length) s) := by
  simp only [stepDecompress, h]
  exact if_pos hne

/-- An answer of the expected size is long enough for the engine's entry, which cannot raise. -/
theorem stepDecompress_rightSize {s : State} {bytes : List Byte} (h : inflate s.params.inflateUnit s.pay = some (.ok bytes))
    (heq : bytes.length = s.expRaw) :
    stepDecompress s = .ok
      { s with raw := bytes, pay := [], pixSize := s.imageSize, pix := [], row := 0, phase := .defiltering } := by
  simp only [stepDecompress, h]
  exact (if_neg (not_not_intro heq)).trans (sdeEnter_enters (s := { s with raw := bytes, pay := [] }) heq.ge)

/-- Settles O33, by the collaborator's answer. -/
theorem decompressingCallsInflateOnce : Obligations.DecompressingCallsInflateOnce := by
  intro s hact hp
  rw [step_nothing hact, advance_decompressing (s := s.takePort) hp]
  refine ⟨fun herr => ?_, fun bytes hok => ⟨fun hne => ?_, fun heq => ?_⟩⟩
  · rw [stepDecompress_err (s := s.takePort) herr, outcome_raised]
  · rw [stepDecompress_wrongSize (s := s.takePort) hok hne, outcome_raised, takePort_expRaw]
  · rw [stepDecompress_rightSize (s := s.takePort) hok heq, outcome_ok]
    rfl

end Sys2Proof.Machine
end

section
/-! Proofs of the sequencer family over whole runs: where the phase can go (R222), what OUT presents (R233, R236), and that every
session ends (R229, R238). -/

namespace Sys2Proof.Machine

/-! ### The moves of the phase (R222) -/

/-- The phases in which a step without reset can leave a phase. -/
def Phase.nexts : Phase → List Phase
  | .start => [.start, .signatureChecked, .defiltering, .failed]
  | .signatureChecked => [.signatureChecked, .headerKnown, .payloadAccumulating, .endSeen, .failed]
  | .reading => []
  | .headerKnown => [.headerKnown, .payloadAccumulating, .endSeen, .failed]
  | .payloadAccumulating => [.payloadAccumulating, .endSeen, .failed]
  | .endSeen => [.decompressing, .failed]
  | .decompressing => [.defiltering, .failed]
  | .defiltering => [.defiltering, .done, .failed]
  | .done => [.done]
  | .failed => [.failed]

theorem Phase.mem_nexts_of_loop {p q : Phase} (hp : p.inChunkLoop = true)
    (hq : q = p ∨ q = .payloadAccumulating ∨ q = .endSeen ∨ q = .failed) : q ∈ p.nexts := by
  cases p with
  | signatureChecked | headerKnown | payloadAccumulating => rcases hq with rfl | rfl | rfl | rfl <;> decide
  | _ => cases hp

/-- The chunk loop is left for `EndSeen` or `Failed`. -/
theorem Phase.nexts_of_loop {p : Phase} (hp : p.inChunkLoop = true) :
    ∀ q ∈ p.nexts, q.inChunkLoop = true ∨ q = .endSeen ∨ q = .failed := by
  cases p with
  | signatureChecked | headerKnown | payloadAccumulating => decide
  | _ => cases hp

/-- No step leads back to `Start` from a later phase. -/
theorem Phase.start_not_mem_nexts {p : Phase} (hp : p ≠ .start) : .start ∉ p.nexts := by
  cases p with
  | start => exact absurd rfl hp
  | _ => decide

/-- `commit_header` moves the phase from `SignatureChecked` only. -/
theorem Phase.commit_mem_nexts {p : Phase} (hp : p.inChunkLoop = true) :
    (if p = .signatureChecked then .headerKnown else p) ∈ p.nexts := by
  split_ifs with h
  · subst h; decide
  · exact Phase.mem_nexts_of_loop hp (.inl rfl)

theorem StepTo.phase_mem {s t : State} (h : StepTo s t) : t.phase ∈ s.phase.nexts := by
  cases h with
  | idle h => rcases h with h | h | h <;> rw [h] <;> decide
  | sigShort h | sigBad h | sigGood h | dimensions _ _ h | noRoom _ _ h | shortRaw _ _ _ h | defilter _ _ _ h
  | decompressing h | inflated _ h | badFilter _ h => rw [h]; simp [Phase.nexts]
  | raisedAsIs e h => rcases h with h | h <;> rw [h, raise_phase] <;> decide
  | frameRaised e u h => exact Phase.mem_nexts_of_loop h (.inr (.inr (.inr rfl)))
  | frameIgnored tag data crc h => exact Phase.mem_nexts_of_loop h (.inl rfl)
  | header tag data crc h => exact Phase.commit_mem_nexts h
  | payload tag data crc h => exact Phase.mem_nexts_of_loop h (.inr (.inl rfl))
  | loopEnd tag data crc h => exact Phase.mem_nexts_of_loop h (.inr (.inr (.inl rfl)))
  | scanline ft xs t h _ _ ht =>
    rw [(scanlineStep_frame ht).1.phase, afterRowPhase, h]
    split_ifs <;> decide

/-- Settles O10: each clause is a row of `Phase.nexts`. -/
theorem phaseMovesAsTheStepTable : Obligations.PhaseMovesAsTheStepTable := by
  intro s t hn h
  have hmem : t.phase ∈ s.phase.nexts := (stepTo_of_noReset hn h).phase_mem
  cases hp : s.phase with
  | reading => rw [hp] at hmem; cases hmem
  | _ => simpa [hp, Phase.nexts, Phase.inChunkLoop] using hmem

/-! ### The OUT port (R233, R236) -/

theorem out_of_not_done {s : State} (h : s.done = false) : s.out = none := by
  rw [State.out, h, if_neg Bool.false_ne_true]

theorem out_of_done {s : State} (h : s.done = true) :
    s.out = some { width := s.width, height := s.height, stride := s.stride, bytes := s.pixBytes } := by
  rw [State.out, h, if_pos rfl]

/-- With the first `n` cells of PIX written, the bytes on OUT are these cells in order. -/
theorem State.PixFilled.pixBytes {s : State} {n : Nat} (h : s.PixFilled n) :
    s.pixBytes.length = n ∧ ∀ i (hi : i < s.pixBytes.length), Memory.read s.pix i = some s.pixBytes[i] := by
  have hlen : s.pixBytes.length = n := by simpa [State.pixBytes] using congrArg List.length h.cells
  exact ⟨hlen, fun i hi => (Memory.read_getElem h.cells (hlen ▸ hi)).trans (List.getElem?_eq_getElem hi)⟩

/-- Settles O58: the invariant has `done = 1` exactly in `Done`, and every cell of the image written there. -/
theorem outIsTheFinishedImageOrNothing : Obligations.OutIsTheFinishedImageOrNothing := by
  refine ⟨fun s => out_of_not_done, fun s hI hp => out_of_not_done (done_eq_false hI hp), fun s hI hp => ?_⟩
  have hstride : s.stride = 4 * s.width.toNat := (hI.header (hI.late (.inr (.inr hp)))).stride
  obtain ⟨-, hpix⟩ := hI.finished hp
  obtain ⟨hlen, hread⟩ := hpix.pixBytes
  refine ⟨s.pixBytes, ?_, ?_, hread⟩
  · rw [out_of_done (hI.done.mpr hp), hstride]
  · rw [hlen, State.imageSize, hstride]

/-! ### Every session ends (R229, R238) -/

/-- A session that has begun, whose collaborators answer and which the host leaves alone from here on. -/
structure State.Unattended (s : State) : Prop where
  inv : s.Inv
  answering : s.params.Answering
  port : s.cmdPort = []
  begun : s.phase ≠ .start

/-- A bound on the steps that are left: a twelfth of the bytes that are left in the chunk loop, the rows that are left in the
engine, and the steps between the two. -/
def State.stepsLeft (s : State) : Nat :=
  match s.phase with
  | .start | .reading => 0
  | .signatureChecked | .headerKnown | .payloadAccumulating => (s.srcLen - s.pos) / 12 + 4294967296 + 3
  | .endSeen => 4294967296 + 1
  | .decompressing => 4294967296
  | .defiltering => s.height.toNat - s.row
  | .done | .failed => 0

theorem stepsLeft_loop {s : State} (h : s.phase.inChunkLoop = true) :
    s.stepsLeft = (s.srcLen - s.pos) / 12 + 4294967296 + 3 := by
  cases hp : s.phase with
  | signatureChecked | headerKnown | payloadAccumulating => simp only [State.stepsLeft, hp]
  | _ => rw [hp] at h; cases h

theorem stepsLeft_endSeen {s : State} (h : s.phase = .endSeen) : s.stepsLeft = 4294967296 + 1 := by
  simp only [State.stepsLeft, h]

theorem stepsLeft_decompressing {s : State} (h : s.phase = .decompressing) : s.stepsLeft = 4294967296 := by
  simp only [State.stepsLeft, h]

theorem stepsLeft_defiltering {s : State} (h : s.phase = .defiltering) : s.stepsLeft = s.height.toNat - s.row := by
  simp only [State.stepsLeft, h]

theorem stepsLeft_over {s : State} (h : s.phase = .done ∨ s.phase = .failed) : s.stepsLeft = 0 := by
  rcases h with h | h <;> simp only [State.stepsLeft, h]

/-- The engine has fewer steps left than the phases before it. -/
theorem stepsLeft_defiltering_lt {s : State} (h : s.phase = .defiltering) : s.stepsLeft < 4294967296 := by
  have hheight : s.height.toNat < 4294967296 := s.height.isLt
  rw [stepsLeft_defiltering h]
  omega

theorem stepsLeft_le (s : State) : s.stepsLeft ≤ s.srcLen / 12 + 4294967296 + 3 := by
  cases hp : s.phase with
  | signatureChecked | headerKnown | payloadAccumulating => rw [stepsLeft_loop (by rw [hp]; rfl)]; omega
  | start | reading => simp [State.stepsLeft, hp]
  | endSeen => rw [stepsLeft_endSeen hp]; omega
  | decompressing => rw [stepsLeft_decompressing hp]; omega
  | defiltering => have := stepsLeft_defiltering_lt hp; omega
  | done => rw [stepsLeft_over (.inl hp)]; omega
  | failed => rw [stepsLeft_over (.inr hp)]; omega

/-- A scanline goes to the next row, or the step fails. -/
theorem StepTo.next_row {s t : State} (h : StepTo s t) (hp : s.phase = .defiltering) :
    t.phase = .failed ∨ (t.row = s.row + 1 ∧ t.height = s.height) := by
  cases h with
  | badFilter => exact .inl rfl
  | scanline ft xs t _ _ _ ht =>
    have hafter := (scanlineStep_frame ht).1
    exact .inr ⟨hafter.row, hafter.height⟩
  | idle h | raisedAsIs _ h => simp [hp] at h
  | sigShort h | sigBad h | sigGood h | dimensions _ _ h | noRoom _ _ h | shortRaw _ _ _ h | defilter _ _ _ h
  | decompressing h | inflated _ h | frameRaised _ _ h | frameIgnored _ _ _ h | header _ _ _ h | payload _ _ _ h
  | loopEnd _ _ _ h => simp [hp, Phase.inChunkLoop] at h

/-- A frame that is counted takes 12 bytes of the stream, which holds it whole. -/
theorem StepTo.stepsLeft_lt_of_loop {s t : State} (h : StepTo s t) (hI : s.Inv) (hl : s.phase.inChunkLoop = true) :
    t.stepsLeft < s.stepsLeft := by
  rw [stepsLeft_loop hl]
  rcases h.counts_in_loop hl with ⟨hf, -⟩ | ⟨hf, -, hpos⟩
  · rw [stepsLeft_over (.inr hf)]; omega
  rcases Phase.nexts_of_loop hl t.phase h.phase_mem with hl' | hend | hfail
  · have hsrc : t.srcLen = s.srcLen := by rw [State.srcLen, h.params, State.srcLen]
    have hle : t.pos ≤ t.srcLen := (h.inv hI).pos
    rw [stepsLeft_loop hl']
    omega
  · rw [stepsLeft_endSeen hend]; omega
  · exact absurd hfail hf

theorem StepTo.stepsLeft_lt_of_defiltering {s t : State} (h : StepTo s t) (hI : s.Inv) (hp : s.phase = .defiltering) :
    t.stepsLeft < s.stepsLeft := by
  obtain ⟨-, hready, -⟩ := hI.defiltering hp
  have hrow : s.row < s.height.toNat := hready.inImage
  have hmem : t.phase ∈ [.defiltering, .done, .failed] := by simpa only [hp, Phase.nexts] using h.phase_mem
  rw [stepsLeft_defiltering hp]
  by_cases hover : t.phase = .done ∨ t.phase = .failed
  · rw [stepsLeft_over hover]; omega
  · obtain ⟨hdone, hfail⟩ := not_or.mp hover
    obtain ⟨hnext, hheight⟩ := (h.next_row hp).resolve_left hfail
    have hp' : t.phase = .defiltering := by simpa [hdone, hfail] using hmem
    rw [stepsLeft_defiltering hp', hheight, hnext]
    omega

/-- Every step of a session that is not over leaves fewer steps. -/
theorem StepTo.stepsLeft_lt {s t : State} (h : StepTo s t) (hI : s.Inv) (hs : s.phase ≠ .start)
    (hover : s.phase.isOver = false) : t.stepsLeft < s.stepsLeft := by
  have hmem := h.phase_mem
  cases hp : s.phase with
  | signatureChecked | headerKnown | payloadAccumulating => exact h.stepsLeft_lt_of_loop hI (by rw [hp]; rfl)
  | start => exact absurd hp hs
  | reading => exact absurd hp hI.notReading
  | endSeen =>
    rw [stepsLeft_endSeen hp]
    rcases (by simpa [hp, Phase.nexts] using hmem : t.phase = .decompressing ∨ t.phase = .failed) with hd | hf
    · rw [stepsLeft_decompressing hd]; omega
    · rw [stepsLeft_over (.inr hf)]; omega
  | decompressing =>
    rw [stepsLeft_decompressing hp]
    rcases (by simpa [hp, Phase.nexts] using hmem : t.phase = .defiltering ∨ t.phase = .failed) with hd | hf
    · exact stepsLeft_defiltering_lt hd
    · rw [stepsLeft_over (.inr hf)]; omega
  | defiltering => exact h.stepsLeft_lt_of_defiltering hI hp
  | done | failed => rw [hp] at hover; cases hover

theorem StepTo.cmdPort {s t : State} (h : StepTo s t) : t.cmdPort = s.cmdPort := by
  cases h with
  | frameRaised e u _ hu => rw [raise_cmdPort, hu]
  | scanline ft xs t _ _ _ ht => exact (scanlineStep_frame ht).1.cmdPort
  | _ => rfl

theorem takePort_of_empty {s : State} (h : s.cmdPort = []) : s.takePort = s := by
  obtain ⟨⟩ := s
  cases h
  rfl

/-- A session that is left alone goes on by a step of its phase, and by nothing else. -/
theorem State.Unattended.exists_step {s : State} (hs : s.Unattended) (hover : s.phase.isOver = false) :
    ∃ t, step s = .next t ∧ t.Unattended ∧ t.stepsLeft < s.stepsLeft := by
  obtain ⟨t, ht⟩ := everyStepCompletes s hs.inv hs.answering
  have hnoReset : NoReset s := fun port => by rw [hostAct_of_empty hs.port]; nofun
  have hto : StepTo s t := takePort_of_empty hs.port ▸ stepTo_of_noReset hnoReset ht
  refine ⟨t, ht, ⟨hto.inv hs.inv, hto.params ▸ hs.answering, hto.cmdPort.trans hs.port, fun hp => ?_⟩,
    hto.stepsLeft_lt hs.inv hs.begun hover⟩
  exact Phase.start_not_mem_nexts hs.begun (hp ▸ hto.phase_mem)

/-- The session is over within the bound, by induction on it. -/
theorem State.Unattended.ends {n : Nat} {s : State} (hs : s.Unattended) (hn : s.stepsLeft ≤ n) :
    ∃ (k : Nat) (t : State), k ≤ n ∧ Host.Core.run Sys2Proof.core k s = .next t ∧ t.phase.isOver = true := by
  induction n generalizing s with
  | zero =>
    refine ⟨0, s, le_rfl, rfl, ?_⟩
    by_contra hover
    obtain ⟨t, -, -, hlt⟩ := hs.exists_step (by simpa using hover)
    omega
  | succ n ih =>
    cases hover : s.phase.isOver with
    | true => exact ⟨0, s, Nat.zero_le _, rfl, hover⟩
    | false =>
      obtain ⟨t, ht, hnext, hlt⟩ := hs.exists_step hover
      obtain ⟨k, u, hk, hrun, hend⟩ := ih hnext (by omega)
      exact ⟨k + 1, u, Nat.succ_le_succ hk, (run_succ_of_step ht k).trans hrun, hend⟩

/-- Settles O60: `stepsLeft` goes down with every step, and is within the bound at the start. -/
theorem everySessionEnds : Obligations.EverySessionEnds :=
  fun s hI ha hport hs => State.Unattended.ends ⟨hI, ha, hport, hs⟩ (stepsLeft_le s)

end Sys2Proof.Machine
end

section
/-! Proofs of the exceptions family: what taking a fault writes (R251, R268, R270), and that a fault of the chunk loop is precise
(R271). -/

namespace Sys2Proof.Machine

/-! ### A fault of the chunk loop (R271) -/

/-- A step of the chunk loop that fails is a fault raised over a change of `pos` and the frame registers: every other way of
`StepTo` counts the frame or belongs to another phase. -/
theorem StepTo.raised_of_failed_in_loop {s t : State} (h : StepTo s t) (hl : s.phase.inChunkLoop = true)
    (hf : t.phase = .failed) : ∃ e u, t = raise e u ∧ SameButFrame s u ∧ s.pos ≤ u.pos := by
  have hcount : t.chunkIndex = s.chunkIndex := by
    rcases h.counts_in_loop hl with ⟨-, hc, -⟩ | ⟨hne, -, -⟩
    · exact hc
    · exact absurd hf hne
  cases h with
  | frameRaised e u _ hu hp => exact ⟨e, u, rfl, hu, hp.1⟩
  | frameIgnored | header | payload | loopEnd => exact absurd hcount (Nat.succ_ne_self _)
  | idle h => rcases h with h | h | h <;> simp [h, Phase.inChunkLoop] at hl
  | raisedAsIs _ h => rcases h with h | h <;> simp [h, Phase.inChunkLoop] at hl
  | sigShort h | sigBad h | sigGood h | dimensions _ _ h | noRoom _ _ h | shortRaw _ _ _ h | defilter _ _ _ h
  | decompressing h | inflated _ h | badFilter _ h | scanline _ _ _ h => simp [h, Phase.inChunkLoop] at hl

/-- Settles O17: the step raises over a change of `pos` and the frame registers, and neither that change nor the fault entry
writes any of the registers named. -/
theorem frameFaultsArePrecise : Obligations.FrameFaultsArePrecise := by
  intro s t hn hl h hf
  have ht : StepTo s.takePort t := stepTo_of_noReset (fun port => by rw [hn]; nofun) h
  obtain ⟨e, u, rfl, hu, hpos⟩ := ht.raised_of_failed_in_loop hl hf
  obtain ⟨_, _, _, _, _, _, rfl⟩ := hu.exists_eq
  exact ⟨rfl, rfl, SameHeader.refl s, rfl, rfl, rfl, rfl, rfl, rfl, rfl, rfl, hpos⟩

/-! ### Fault entry and the codes (R251, R268, R270) -/

/-- Settles O14: `raise` is this update of the record. -/
theorem faultEntryWritesOnlyTheFaultRegisters : Obligations.FaultEntryWritesOnlyTheFaultRegisters := fun _ _ => rfl

/-- Settles O15: fault entry copies the code and the parameters of the fault, which are the rows of R251's table. -/
theorem faultCodesAndInfoRegisters : Obligations.FaultCodesAndInfoRegisters := by
  intro s v w h m n
  simp only [raise_errCode, raise_errInfo0, raise_errInfo1, raise_errInfo2]
  exact ⟨rfl, rfl, rfl, rfl, rfl, rfl, rfl, rfl, rfl, rfl, rfl, rfl, rfl, rfl, rfl, rfl⟩

/-- Settles O16, by the sixteen faults: the code of each is a closed value, 5 to 10 for the six of the header. -/
theorem unsupportedProfileIsCodesFiveToTen : Obligations.UnsupportedProfileIsCodesFiveToTen := by
  intro e
  cases e with
  | unsupportedCompression v => exact iff_of_true rfl (.inl ⟨v, .inl rfl⟩)
  | unsupportedFilterMethod v => exact iff_of_true rfl (.inl ⟨v, .inr (.inl rfl)⟩)
  | unsupportedColorType v => exact iff_of_true rfl (.inl ⟨v, .inr (.inr (.inl rfl))⟩)
  | unsupportedBitDepth v => exact iff_of_true rfl (.inl ⟨v, .inr (.inr (.inr (.inl rfl)))⟩)
  | unsupportedInterlacing v => exact iff_of_true rfl (.inl ⟨v, .inr (.inr (.inr (.inr rfl)))⟩)
  | unsupportedDimensions w h => exact iff_of_true rfl (.inr ⟨w, h, rfl⟩)
  | _ => exact iff_of_false (by simp [DecodeFault.code, isUnsupportedProfile]) (by simp)

end Sys2Proof.Machine
end

section
/-! Proofs of the reset and hazards family: what reset leaves (R40, R290), and where the model stops for a collaborator that never
answers (R299). -/

namespace Sys2Proof.Machine

/-! ### Reset (R40, R290) -/

/-- Reset on the CMD port is the step, in any phase. -/
theorem step_of_reset {s : State} {port : List PortAction} (h : s.cmdPort = .reset :: port) : step s = .next (hostReset port s) := by
  have hact : hostAct s = .reset port := by rw [hostAct, h]
  rw [step, hact]

/-- Settles O12: reset rebuilds the state from the parameters and the rest of the port alone, whatever the
other registers held. -/
theorem resetLeavesTheResetValues : Obligations.ResetLeavesTheResetValues := by
  intro s port hport
  refine ⟨_, step_of_reset hport, ?_⟩
  simp only [hostReset, State.afterReset, and_self]

/-! ### A `crc32` that never answers (R124, R299) -/

theorem crc32_silent (body : List Byte) : crc32 .silent body = none := rfl

theorem frameCheck_silent {s : State} (h : s.params.crcUnit = .silent) : frameCheck s = .stuck .crcNoAnswer := by
  rw [frameCheck, h, crc32_silent]

theorem frameTake_room (tag : Tag) {data : List Byte} (crc : Word) {s : State} (hl : data.length < lengthLimit)
    (hroom : Cap.exceededBy s.params.chunkCap data.length = false) :
    frameTake tag data crc s = .ok (afterFrameRead tag data crc s) := by
  rcases frameTake_cases tag data crc s with ⟨h, -⟩ | ⟨-, h, -⟩ | ⟨-, -, h⟩
  · omega
  · rw [hroom] at h; cases h
  · exact h

/-- A frame that `frame_read` takes stops at the CRC comparison, before any effect of its kind. -/
theorem frameStep_silent (tag : Tag) {data : List Byte} (crc : Word) (effect : List Byte → State → Flow) {s : State}
    (hl : data.length < lengthLimit) (hroom : Cap.exceededBy s.params.chunkCap data.length = false)
    (hcrc : s.params.crcUnit = .silent) : frameStep tag data crc effect s = .stuck .crcNoAnswer := by
  rw [frameStep, frameTake_room tag crc hl hroom, andThen_ok, frameCheck_silent (s := afterFrameRead tag data crc s) hcrc,
    andThen_stuck]

/-! ### An `inflate` that never answers (R225, R299) -/

theorem inflate_silent (payload : List Byte) : inflate .silent payload = none := rfl

theorem stepDecompress_silent {s : State} (h : s.params.inflateUnit = .silent) : stepDecompress s = .stuck .infNoAnswer := by
  rw [stepDecompress, h, inflate_silent]

/-! ### A source that never answers (R120, R299) -/

theorem srcRead_noAnswer {n : Nat} {s : State} (k : List Byte → State → Flow)
    (h : Cap.exceededBy s.params.srcAnswers (s.pos + n) = true) : srcRead n s k = .stuck .srcNoAnswer :=
  if_pos h

/-- `frame_read` begins with the four bytes of the length field (R123). -/
theorem frameRead_noAnswer {s : State} (h : Cap.exceededBy s.params.srcAnswers (s.pos + 4) = true) :
    frameRead s = .stuck .srcNoAnswer :=
  srcRead_noAnswer _ h

/-- Settles O34, a lemma for each collaborator. -/
theorem silentCollaboratorsHangTheStep : Obligations.SilentCollaboratorsHangTheStep := by
  refine ⟨fun s i tag data crc hi hl hroom hcrc => ?_, fun s hact hp hinf => ?_, fun s hact hloop hsrc => ?_⟩
  · obtain ⟨effect, hexec⟩ := exec_isFrame hi s
    rw [hexec, frameStep_silent tag crc effect hl hroom hcrc, outcome_stuck]
  · rw [step_nothing hact, advance_decompressing (s := s.takePort) hp, stepDecompress_silent (s := s.takePort) hinf,
      outcome_stuck]
  · rw [step_nothing hact, advance_frame (s := s.takePort) hloop, stepFrame, frameRead_noAnswer (s := s.takePort) hsrc,
      andThen_stuck, outcome_stuck]

end Sys2Proof.Machine
end
